-- ==== Sys2Proof/Word.lean ====
section
/-! DEFINITION. The bit-vector types of SI2CM, each width as 00_scope.md rule R6 fixes it. -/

namespace Sys2Proof

/-- A command word or a response word: `CMD_W = RESP_W = 32` (R6, R80, R96). -/
abbrev Word := BitVec 32

/-- One bus byte, `BYTE_W = 8` (R6). -/
abbrev Byte := BitVec 8

/-- A 7-bit slave address, `SLAVE_ADDR_W` (R6). -/
abbrev Addr := BitVec 7

/-- A 7-bit register index, `REG_INDEX_W` (R6). -/
abbrev RegIndex := BitVec 7

/-- A 16-bit register value, `REG_VALUE_W` (R6). -/
abbrev Value := BitVec 16

/-- The number of a GPIO line, `LINE_ID_W = 8`, lines 0..255 (R6, R61). -/
abbrev LineId := BitVec 8

/-- A pending byte count, `COUNT_W = 8` (R6). -/
abbrev Count := BitVec 8

end Sys2Proof
end

