-- ==== Sys2Proof/Syntax.lean ====
section
/-! DEFINITION. The eleven commands, one constructor per row of spec/opcode_table.json (30_encoding.md rule R83).
Operands are bit vectors of their field's width, so an operand that does not fit its field cannot be written here
(R82); WellFormed.lean has the assembler line, where it can. -/

namespace Sys2Proof

/-- The opcodes of R83, in the table's order. -/
inductive Op where
  | configure
  | start
  | endTxn
  | sendAck
  | sendNack
  | recvAck
  | writeByte
  | readByte
  | writeReg
  | readReg
  | requestRead
  deriving DecidableEq, Repr

/-- The commands of R83 with their operands in the order of the source's parameter lists (R97). -/
inductive Instr where
  /-- CONFIGURE addr, sda_line, scl_line (R110) -/
  | configure (addr : Addr) (sda scl : LineId)
  /-- START addr (R120) -/
  | start (addr : Addr)
  /-- END (R122) -/
  | endTxn
  /-- SEND_ACK (R140) -/
  | sendAck
  /-- SEND_NACK (R141) -/
  | sendNack
  /-- RECV_ACK (R142) -/
  | recvAck
  /-- WRITE_BYTE value8 (R130) -/
  | writeByte (value : Byte)
  /-- READ_BYTE (R132) -/
  | readByte
  /-- WRITE_REG reg, value16 (R151) -/
  | writeReg (reg : RegIndex) (value : Value)
  /-- READ_REG reg (R153) -/
  | readReg (reg : RegIndex)
  /-- REQUEST_READ addr, count (R112) -/
  | requestRead (addr : Addr) (count : Count)
  deriving DecidableEq, Repr

/-- The opcode of a command. -/
def Instr.op : Instr → Op
  | .configure _ _ _ => .configure
  | .start _ => .start
  | .endTxn => .endTxn
  | .sendAck => .sendAck
  | .sendNack => .sendNack
  | .recvAck => .recvAck
  | .writeByte _ => .writeByte
  | .readByte => .readByte
  | .writeReg _ _ => .writeReg
  | .readReg _ => .readReg
  | .requestRead _ _ => .requestRead

/-- The mnemonic of an opcode, as the table spells it. -/
def Op.mnemonic : Op → String
  | .configure => "CONFIGURE"
  | .start => "START"
  | .endTxn => "END"
  | .sendAck => "SEND_ACK"
  | .sendNack => "SEND_NACK"
  | .recvAck => "RECV_ACK"
  | .writeByte => "WRITE_BYTE"
  | .readByte => "READ_BYTE"
  | .writeReg => "WRITE_REG"
  | .readReg => "READ_REG"
  | .requestRead => "REQUEST_READ"

end Sys2Proof
end

