-- ==== Sys2Proof/WellFormed.lean ====
section
/-! DEFINITION. The assembler line of 30_encoding.md rule R97 and its check. A line carries its operands as plain
numbers; an operand that does not fit its field is an assembly error, not a command (R97), so only a well-formed
line assembles. Every command of Syntax.lean is the command of a well-formed line. -/

namespace Sys2Proof

/-- One line of a command script, operands in the order of R97. -/
inductive AsmLine where
  | configure (addr sda scl : Nat)
  | start (addr : Nat)
  | endTxn
  | sendAck
  | sendNack
  | recvAck
  | writeByte (value : Nat)
  | readByte
  | writeReg (reg value : Nat)
  | readReg (reg : Nat)
  | requestRead (addr count : Nat)
  deriving DecidableEq, Repr

/-- `n` is expressible in a field of `w` bits (R82: the format enforces the range). -/
def fits (w n : Nat) : Bool := decide (n < 2 ^ w)

/-- Every operand of the line fits its field of R81. -/
def AsmLine.wellFormed : AsmLine → Bool
  | .configure addr sda scl => fits 7 addr && fits 8 sda && fits 8 scl
  | .start addr => fits 7 addr
  | .endTxn => true
  | .sendAck => true
  | .sendNack => true
  | .recvAck => true
  | .writeByte value => fits 8 value
  | .readByte => true
  | .writeReg reg value => fits 7 reg && fits 16 value
  | .readReg reg => fits 7 reg
  | .requestRead addr count => fits 7 addr && fits 8 count

/-- The command whose operands are the line's, each cut to its field. -/
def AsmLine.command : AsmLine → Instr
  | .configure addr sda scl => .configure (.ofNat 7 addr) (.ofNat 8 sda) (.ofNat 8 scl)
  | .start addr => .start (.ofNat 7 addr)
  | .endTxn => .endTxn
  | .sendAck => .sendAck
  | .sendNack => .sendNack
  | .recvAck => .recvAck
  | .writeByte value => .writeByte (.ofNat 8 value)
  | .readByte => .readByte
  | .writeReg reg value => .writeReg (.ofNat 7 reg) (.ofNat 16 value)
  | .readReg reg => .readReg (.ofNat 7 reg)
  | .requestRead addr count => .requestRead (.ofNat 7 addr) (.ofNat 8 count)

/-- Assembling a line: a command, or none for an assembly error (R97). -/
def AsmLine.assemble (l : AsmLine) : Option Instr :=
  if l.wellFormed then some l.command else none

/-- The script line of a command. -/
def Instr.toAsm : Instr → AsmLine
  | .configure addr sda scl => .configure addr.toNat sda.toNat scl.toNat
  | .start addr => .start addr.toNat
  | .endTxn => .endTxn
  | .sendAck => .sendAck
  | .sendNack => .sendNack
  | .recvAck => .recvAck
  | .writeByte value => .writeByte value.toNat
  | .readByte => .readByte
  | .writeReg reg value => .writeReg reg.toNat value.toNat
  | .readReg reg => .readReg reg.toNat
  | .requestRead addr count => .requestRead addr.toNat count.toNat

/-- A command is well formed when its script line is. -/
def Instr.wellFormed (i : Instr) : Bool := i.toAsm.wellFormed

end Sys2Proof
end

