-- ==== Sys2Proof/Decode.lean ====
section
/-! DEFINITION. Command words: the opcode table of 30_encoding.md rule R83, the decoder, and the encoder by the
seven formats of R81. The decoder is total: a word of no row is illegal, by name (R94). A command is one word of 32
bits on the command port (R80), so there is no byte order here. -/

namespace Sys2Proof

/-- A row of R83: a word `w` is the row's command exactly when `w &&& mask = pattern`. -/
structure OpcodeRow where
  op : Op
  pattern : Word
  mask : Word
  deriving DecidableEq, Repr

/-- The opcode table (R83), columns `match` and `mask`. -/
def opcodeTable : List OpcodeRow :=
  [ ⟨.configure,   0x10000000#32, 0xFF000080#32⟩,
    ⟨.start,       0x20000000#32, 0xFFFFFF80#32⟩,
    ⟨.endTxn,      0x30000000#32, 0xFFFFFFFF#32⟩,
    ⟨.sendAck,     0x40000000#32, 0xFFFFFFFF#32⟩,
    ⟨.sendNack,    0x50000000#32, 0xFFFFFFFF#32⟩,
    ⟨.recvAck,     0x60000000#32, 0xFFFFFFFF#32⟩,
    ⟨.writeByte,   0x70000000#32, 0xFFFFFF00#32⟩,
    ⟨.readByte,    0x80000000#32, 0xFFFFFFFF#32⟩,
    ⟨.writeReg,    0x90000000#32, 0xFF800000#32⟩,
    ⟨.readReg,     0xA0000000#32, 0xFF80FFFF#32⟩,
    ⟨.requestRead, 0xB0000000#32, 0xFFFF0080#32⟩ ]

/-- The word is the row's command (R83). -/
def OpcodeRow.covers (r : OpcodeRow) (w : Word) : Bool := w &&& r.mask == r.pattern

/-- The opcode field `OP`, bits [31:28] (R80). -/
def opField (w : Word) : BitVec 4 := w.extractLsb' 28 4

/-- `ADDR`, bits [6:0] (R81). -/
def addrField (w : Word) : Addr := w.extractLsb' 0 7

/-- `VALUE8`, bits [7:0] (R81). -/
def value8Field (w : Word) : Byte := w.extractLsb' 0 8

/-- `VALUE16`, bits [15:0] (R81). -/
def value16Field (w : Word) : Value := w.extractLsb' 0 16

/-- `REG`, bits [22:16] (R81). -/
def regField (w : Word) : RegIndex := w.extractLsb' 16 7

/-- `SDA`, bits [15:8] (R81). -/
def sdaField (w : Word) : LineId := w.extractLsb' 8 8

/-- `SCL`, bits [23:16] (R81). -/
def sclField (w : Word) : LineId := w.extractLsb' 16 8

/-- `COUNT`, bits [15:8] (R81). -/
def countField (w : Word) : Count := w.extractLsb' 8 8

/-- The command of an opcode with the operands a word holds, taken exactly as their bits stand (R82). -/
def Op.withOperands (op : Op) (w : Word) : Instr :=
  match op with
  | .configure => .configure (addrField w) (sdaField w) (sclField w)
  | .start => .start (addrField w)
  | .endTxn => .endTxn
  | .sendAck => .sendAck
  | .sendNack => .sendNack
  | .recvAck => .recvAck
  | .writeByte => .writeByte (value8Field w)
  | .readByte => .readByte
  | .writeReg => .writeReg (regField w) (value16Field w)
  | .readReg => .readReg (regField w)
  | .requestRead => .requestRead (addrField w) (countField w)

/-- Why a word is illegal (R94). -/
inductive Illegal where
  /-- `OP` is 0x0 or 0xC to 0xF -/
  | reservedOpcode (op : BitVec 4)
  /-- `OP` is a command's, and a reserved bit of its format is 1 -/
  | reservedBitSet (op : BitVec 4)
  deriving DecidableEq, Repr

/-- What the decoder makes of a word. -/
inductive Decoded where
  | command (i : Instr)
  | illegal (why : Illegal)
  deriving DecidableEq, Repr

/-- `OP` is 0x0 or 0xC to 0xF (R83, R94). -/
def opReserved (op : BitVec 4) : Bool := op == 0#4 || decide (0xC#4 ≤ op)

/-- The name of an illegal word's rejection (R94). -/
def illegalReason (w : Word) : Illegal :=
  if opReserved (opField w) then .reservedOpcode (opField w) else .reservedBitSet (opField w)

/-- The decoder (R83, R94): the row that covers the word, else illegal. -/
def decode (w : Word) : Decoded :=
  match opcodeTable.find? (fun r => r.covers w) with
  | some r => .command (r.op.withOperands w)
  | none => .illegal (illegalReason w)

/-- The value of the opcode field of each command (R83). -/
def Op.code : Op → BitVec 4
  | .configure => 0x1#4
  | .start => 0x2#4
  | .endTxn => 0x3#4
  | .sendAck => 0x4#4
  | .sendNack => 0x5#4
  | .recvAck => 0x6#4
  | .writeByte => 0x7#4
  | .readByte => 0x8#4
  | .writeReg => 0x9#4
  | .readReg => 0xA#4
  | .requestRead => 0xB#4

/-- A field's bits at place `lo` of the word, every other bit 0 (R84's `value << lo`). -/
def place {n : Nat} (field : BitVec n) (lo : Nat) : Word := field.zeroExtend 32 <<< lo

/-- Format N, no operand (R81). -/
def formatN (op : Op) : Word := place op.code 28

/-- Format A, an address (R81). -/
def formatA (op : Op) (addr : Addr) : Word := place op.code 28 ||| place addr 0

/-- Format B, a byte (R81). -/
def formatB (op : Op) (value : Byte) : Word := place op.code 28 ||| place value 0

/-- Format C, configure (R81). -/
def formatC (op : Op) (addr : Addr) (sda scl : LineId) : Word :=
  place op.code 28 ||| place scl 16 ||| place sda 8 ||| place addr 0

/-- Format W, write register (R81). -/
def formatW (op : Op) (reg : RegIndex) (value : Value) : Word :=
  place op.code 28 ||| place reg 16 ||| place value 0

/-- Format R, read register (R81). -/
def formatR (op : Op) (reg : RegIndex) : Word := place op.code 28 ||| place reg 16

/-- Format Q, request (R81). -/
def formatQ (op : Op) (addr : Addr) (count : Count) : Word :=
  place op.code 28 ||| place count 8 ||| place addr 0

/-- The encoder: the word of a command by its format (R81, R83). -/
def encode : Instr → Word
  | .configure addr sda scl => formatC .configure addr sda scl
  | .start addr => formatA .start addr
  | .endTxn => formatN .endTxn
  | .sendAck => formatN .sendAck
  | .sendNack => formatN .sendNack
  | .recvAck => formatN .recvAck
  | .writeByte value => formatB .writeByte value
  | .readByte => formatN .readByte
  | .writeReg reg value => formatW .writeReg reg value
  | .readReg reg => formatR .readReg reg
  | .requestRead addr count => formatQ .requestRead addr count

/-- The command word whose bits are `w`, every bit from `nbits` on being 0: one word of 32 bits (R80). -/
def tableWord (nbits w : Nat) : Word := BitVec.ofNat 32 (w % 2 ^ nbits)

/-- The command the decoder reads from a word written as a number, bit 0 the least significant. -/
def decodeTableWord (nbits w : Nat) : Option Instr :=
  match decode (tableWord nbits w) with
  | .command i => some i
  | .illegal _ => none

end Sys2Proof
end

