-- ==== Sys2Proof/Config.lean ====
section
/-! DEFINITION. What is fixed for a run but not given a value by the spec: the delay constant, the levels of an
arbitrary bus environment, and the register values 10_state.md rule R36 leaves unspecified after reset. Every one
is an `opaque` constant without a body, so no proof can see a value of it. The two symbolic lines and what the
master does to a line are named here because the environment's levels are a function of them. -/

namespace Sys2Proof

/-- The two symbolic lines: data and clock (R10, R14). -/
inductive Line where
  | sda
  | scl
  deriving DecidableEq, Repr

/-- What SI2CM does to a line, as the environment is told of it: `Driven(v)` or `Released` (R56). A level is a
Bool, `true` for high (R9). -/
inductive Drive where
  | released
  | driven (v : Bool)
  deriving DecidableEq, Repr

/-- One call of `env_obs`: the symbolic line and what SI2CM now does to it (R56). -/
structure Observation where
  line : Line
  drive : Drive
  deriving DecidableEq, Repr

namespace Config

/-- `T_DELAY_US` less one: the spec leaves the delay an open positive integer (R6, R55; U6). -/
opaque delayLessOne : Nat

/-- `T_DELAY_US`, microseconds, a positive integer with no value given (R6). No rule's result depends on it. -/
def delayUs : Nat := delayLessOne + 1

/-- `env_lvl` of environment number `id`, which is otherwise arbitrary: the level it puts on a released line, as a
function of everything it has observed, newest observation first (R56; U5: any value). -/
opaque envLevel (id : Nat) (seen : List Observation) (l : Line) : Bool

/-- `CFG.SLAVE_ADDR` after reset: unspecified (R36; U7: any value). -/
opaque resetSlaveAddr : Addr

/-- `CFG.SDA_LINE` after reset: unspecified (R36). -/
opaque resetSdaLine : LineId

/-- `CFG.SCL_LINE` after reset: unspecified (R36). -/
opaque resetSclLine : LineId

/-- `PEND.ADDR` after reset: unspecified (R36). -/
opaque resetPendAddr : Addr

/-- `PEND.COUNT` after reset: unspecified (R36). -/
opaque resetPendCount : Count

/-- `SHIFT` after reset: unspecified (R36). -/
opaque resetShift : Byte

/-- `BITCNT` after reset: unspecified within its values 0..8 (R20, R36). -/
opaque resetBitcnt : Fin 9

/-- `RXHI` after reset: unspecified (R36). -/
opaque resetRxhi : Byte

/-- `PIN[l].OUT` of line number `l` after reset: unspecified (R36). -/
opaque resetPinOut (l : Nat) : Bool

end Config

end Sys2Proof
end

