-- ==== Sys2Proof/Machine/State.lean ====
section
/-! DEFINITION. The state of SI2CM, all that 10_state.md rule R20 lists, and beside it what the step needs of the
world outside: the bus environment (R50, R56), the command words the host has yet to present and the responses
given (R7, R96), and the trace of pin events (R11). Every field is plain data. -/

namespace Sys2Proof.Machine

open Sys2Proof

/-- The configuration registers `CFG` (R21, R22, R23). -/
structure Cfg where
  slaveAddr : Addr
  sdaLine : LineId
  sclLine : LineId
  configured : Bool
  deriving DecidableEq, Repr

/-- The pending request `PEND` (R24). -/
structure Pend where
  addr : Addr
  count : Count
  valid : Bool
  deriving DecidableEq, Repr

/-- The direction of a GPIO line, `IN` or `OUT` (R29). -/
inductive Dir where
  | input
  | output
  deriving DecidableEq, Repr

/-- The pin state of one GPIO line: `PIN[l].DIR` and `PIN[l].OUT` (R29). -/
structure Pin where
  dir : Dir
  out : Bool
  deriving DecidableEq, Repr

/-- The sequencer position `SEQ` (R30): `Idle`, or `Run(cmd, k)`, command `cmd` in flight with `k` pin events
performed. `bit` is the pseudocode's local variable (`a` of RECV_ACK, `b` of READ_BYTE): the bit the last `SMP` of
the command in flight delivered; it is gone when the command ends (R32). -/
inductive Seq where
  | idle
  | run (cmd : Instr) (k : Nat) (bit : Bool)
  deriving DecidableEq, Repr

/-- The four pin events (R50, R51); `SMP` carries the bit it yielded (R11). -/
inductive Event where
  | drv (l : Line) (v : Bool)
  | rel (l : Line)
  | smp (l : Line) (b : Bool)
  | dly
  deriving DecidableEq, Repr

/-- The wire levels of the two symbolic lines at one moment (R57). -/
structure Levels where
  sda : Bool
  scl : Bool
  deriving DecidableEq, Repr

/-- One entry of the trace: the event, and the wire levels before it and from its end on, both of the lines that SDA
and SCL stand for at the event (R10, R11, R57, R58). -/
structure TracePoint where
  event : Event
  before : Levels
  after : Levels
  deriving DecidableEq, Repr

/-- The phases of the reference slave (R185). -/
inductive Phase where
  | idle
  | dev
  | rega
  | whi
  | wlo
  | rhi
  | rlo
  | ign
  deriving DecidableEq, Repr

/-- The reference slave RSLAVE: its address `SA` and its state (R185). -/
structure RSlave where
  sa : Addr
  reg : Vector Value 128
  ph : Phase
  n : Nat
  sh : Byte
  idx : RegIndex
  rw : Bool
  hi : Byte
  msda : Drive
  mscl : Drive
  lb : Option Bool
  cond : Bool
  deriving DecidableEq, Repr

/-- The bus environment (R56): an arbitrary one, known only by its number and by what it has observed so far,
newest first; the empty bus NOSLAVE (R190); or the reference slave RSLAVE (R185). -/
inductive Env where
  | any (id : Nat) (seen : List Observation)
  | noSlave
  | rslave (r : RSlave)
  deriving DecidableEq, Repr

/-- The machine. The first eight fields are SI2CM's own state (R20); the last four are the environment, the
command port's remaining input, the response port's output so far and the trace so far. -/
@[ext]
structure State where
  cfg : Cfg
  pend : Pend
  inTxn : Bool
  shift : Byte
  bitcnt : BitVec 4
  rxhi : Byte
  seq : Seq
  pins : Vector Pin 256
  env : Env
  commands : List Word
  responses : List Word
  trace : List TracePoint
  deriving DecidableEq, Repr

/-- The stops that are faults of the model. -/
inductive Fault where
  /-- Raised by a step of the sequencer at `Run(cmd, k)` with `k` above the length of the command's event list. R30
  says `0 <= k <= length`, so no such position exists: safe. -/
  | sequencerOutOfRange
  deriving DecidableEq, Repr

/-- The cases the spec gives no meaning, so that a model must refuse (R14, R210, 93_implementation_defined.md). -/
inductive Refusal where
  /-- Raised by exec for an instruction without a meaning in the model; none is left. Safe. -/
  | notModelled (mnemonic : String)
  /-- Raised by START, WRITE_REG and READ_REG while `STATUS.IN_TXN = 1` (R210, U1). Safe. -/
  | transactionOpen
  /-- Raised by END, WRITE_BYTE, READ_BYTE, SEND_ACK, SEND_NACK and RECV_ACK while `STATUS.IN_TXN = 0` or
  `CFG.CONFIGURED = 0` (R210, U1). Safe. -/
  | noTransaction
  /-- Raised by CONFIGURE while `STATUS.IN_TXN = 1` (R111, R210, U2). Safe. -/
  | configureInTransaction
  /-- Raised by every command that emits a pin event while `CFG.SDA_LINE = CFG.SCL_LINE` (R210, U3). Safe. -/
  | sameLine
  deriving DecidableEq, Repr

/-- What a step or a command ends in. -/
abbrev Result := Host.Outcome State Fault Refusal

/-- The pin state after reset: every line `DIR = IN`, `OUT` unspecified (R36). -/
def resetPins : Vector Pin 256 :=
  ⟨((List.range 256).map fun l => (⟨.input, Config.resetPinOut l⟩ : Pin)).toArray, by simp⟩

/-- The machine right after reset (R36). The three flags are 0, `SEQ` is `Idle`, every line is an input; every
register R36 leaves unspecified holds its free value of Config. Nothing has been presented, answered or performed,
and the environment is an arbitrary one that has observed nothing. -/
def State.reset : State where
  cfg := ⟨Config.resetSlaveAddr, Config.resetSdaLine, Config.resetSclLine, false⟩
  pend := ⟨Config.resetPendAddr, Config.resetPendCount, false⟩
  inTxn := false
  shift := Config.resetShift
  bitcnt := BitVec.ofNat 4 Config.resetBitcnt.val
  rxhi := Config.resetRxhi
  seq := .idle
  pins := resetPins
  env := .any 0 []
  commands := []
  responses := []
  trace := []

end Sys2Proof.Machine
end

