-- ==== Sys2Proof/Machine/Operands.lean ====
section
/-! DEFINITION. The operand arithmetic of SI2CM, all of 45_arithmetic_control_system.md rule R160: the bytes on the
wire (R90, R91, R92), the byte shifter's shifts (R130, R132), the reassembly (R92) and the response word (R96). -/

namespace Sys2Proof.Machine

open Sys2Proof

/-- The device-address byte `DEVBYTE = (a << 1) | 0` (R90). -/
def devByte (a : Addr) : Byte := (a.zeroExtend 8 <<< 1) ||| 0#8

/-- The register-address byte of a write, `REGBYTE_W = (r << 1) | 0` (R91). -/
def regByteW (r : RegIndex) : Byte := (r.zeroExtend 8 <<< 1) ||| 0#8

/-- The register-address byte of a read, `REGBYTE_R = (r << 1) | 1` (R91). -/
def regByteR (r : RegIndex) : Byte := (r.zeroExtend 8 <<< 1) ||| 1#8

/-- `HI(v) = v[15:8]` (R92). -/
def hiByte (v : Value) : Byte := v.extractLsb' 8 8

/-- `LO(v) = v[7:0]` (R92). -/
def loByte (v : Value) : Byte := v.extractLsb' 0 8

/-- The receiver's reassembly `(HI << 8) | LO` (R92, R153). -/
def assembleValue (hi lo : Byte) : Value := (hi.zeroExtend 16 <<< 8) ||| lo.zeroExtend 16

/-- `SHIFT[7]`, the next bit WRITE_BYTE puts on SDA (R27, R130). -/
def shiftTop (x : Byte) : Bool := x.getLsbD 7

/-- `(SHIFT << 1)[7:0]` (R130). -/
def shiftOutByte (x : Byte) : Byte := x <<< 1

/-- A bit as a byte: a level is `1` for high (R9). -/
def bitByte (b : Bool) : Byte := if b then 1#8 else 0#8

/-- `((SHIFT << 1) | b)[7:0]` (R132). -/
def shiftInByte (x : Byte) (b : Bool) : Byte := (x <<< 1) ||| bitByte b

/-- The bits of a byte, most significant first: the bit of iteration `i` is `(v >> (7 - i)) & 1` (R62, R130). -/
def bitsMsbFirst (v : Byte) : List Bool :=
  (List.range 8).map fun i => (v >>> (7 - i)).getLsbD 0

/-- The byte READ_BYTE assembles from sampled bits, first bit most significant (R132, R134). -/
def assembleBits (bits : List Bool) : Byte := bits.foldl shiftInByte 0#8

/-- `zext_16` of a byte (R96). -/
def valueOfByte (x : Byte) : Value := x.zeroExtend 16

/-- `zext_16` of a bit (R96). -/
def valueOfBit (b : Bool) : Value := (bitByte b).zeroExtend 16

/-- The response statuses (R96, R171). -/
inductive Status where
  | ok
  | configurationError
  | illegalCommand
  deriving DecidableEq, Repr

/-- `STATUS`, bits [31:28] of the response (R96, R171). -/
def statusCode : Status → BitVec 4
  | .ok => 0#4
  | .configurationError => 1#4
  | .illegalCommand => 2#4

/-- The response word: status, twelve zero bits, value (R96). -/
def responseWord (st : Status) (v : Value) : Word := (statusCode st).zeroExtend 32 <<< 28 ||| v.zeroExtend 32

/-- `CSR0 = CFG`, 25 bits, for printing only (R26). -/
def csr0 (c : Cfg) : BitVec 25 :=
  (BitVec.ofBool c.configured).zeroExtend 25 <<< 24 ||| c.sclLine.zeroExtend 25 <<< 16
    ||| c.sdaLine.zeroExtend 25 <<< 8 ||| c.slaveAddr.zeroExtend 25

/-- `CSR1 = PEND`, 17 bits, for printing only (R26). -/
def csr1 (p : Pend) : BitVec 17 :=
  (BitVec.ofBool p.valid).zeroExtend 17 <<< 16 ||| p.count.zeroExtend 17 <<< 8 ||| p.addr.zeroExtend 17

/-- `CSR2 = STATUS`, for printing only (R26). -/
def csr2 (s : State) : BitVec 1 := BitVec.ofBool s.inTxn

end Sys2Proof.Machine
end

