-- ==== Sys2Proof/Machine/Env.lean ====
section
/-! DEFINITION. The bus environment: `env_obs` and `env_lvl` of 20_memory.md rule R56 for an arbitrary environment,
for the empty bus NOSLAVE (60_exceptions.md rule R190) and for the reference slave RSLAVE (R185 to R188). None of it
is part of SI2CM. -/

namespace Sys2Proof.Machine

open Sys2Proof

/-- The reference slave's initial state (R185). `IDX`, `RW` and `HI` have no initial value there and are free
inputs. -/
def RSlave.init (sa : Addr) (reg : Vector Value 128) (idx : RegIndex) (rw : Bool) (hi : Byte) : RSlave :=
  ⟨sa, reg, .idle, 0, 0#8, idx, rw, hi, .released, .released, none, false⟩

/-- The phases in which the slave receives a byte (R185). -/
def Phase.receiving : Phase → Bool
  | .dev => true
  | .rega => true
  | .whi => true
  | .wlo => true
  | .idle => false
  | .rhi => false
  | .rlo => false
  | .ign => false

/-- `REG[i]` (R185). -/
def RSlave.regAt (e : RSlave) (i : RegIndex) : Value := e.reg[i.toNat]'i.isLt

/-- `REG[i] <- v` (R188). -/
def RSlave.setReg (e : RSlave) (i : RegIndex) (v : Value) : RSlave :=
  { e with reg := e.reg.set i.toNat v i.isLt }

/-- `out(E)`, RSLAVE's own output on SDA (R186). -/
def RSlave.out (e : RSlave) : Bool :=
  match e.ph with
  | .dev => e.n != 8
  | .rega => e.n != 8
  | .whi => e.n != 8
  | .wlo => e.n != 8
  | .rhi => if e.n < 8 then (e.regAt e.idx).getLsbD (15 - e.n) else true
  | .rlo => if e.n < 8 then (e.regAt e.idx).getLsbD (7 - e.n) else true
  | .idle => true
  | .ign => true

/-- `sda(E)` (R186). -/
def RSlave.sda (e : RSlave) : Bool :=
  match e.msda with
  | .driven v => v
  | .released => e.out

/-- `scl(E)`: RSLAVE never drives SCL (R186). -/
def RSlave.scl (e : RSlave) : Bool :=
  match e.mscl with
  | .driven v => v
  | .released => true

/-- What completing a received byte does, by phase (R188, "if N = 8 after the increment"); `SH` already holds the
byte. -/
def RSlave.byteDone (e : RSlave) : RSlave :=
  match e.ph with
  | .dev => if e.sh.extractLsb' 1 7 = e.sa then e else { e with ph := .ign, n := 0 }
  | .rega => { e with idx := e.sh.extractLsb' 1 7, rw := e.sh.getLsbD 0 }
  | .whi => { e with hi := e.sh }
  | .wlo => e.setReg e.idx (assembleValue e.hi e.sh)
  | .idle => e
  | .rhi => e
  | .rlo => e
  | .ign => e

/-- The phase after the acknowledgment slot of a received byte (R188). -/
def RSlave.afterAck (e : RSlave) : Phase :=
  match e.ph with
  | .dev => .rega
  | .rega => if e.rw then .rhi else .whi
  | .whi => .wlo
  | .wlo => .ign
  | .idle => .idle
  | .rhi => .rhi
  | .rlo => .rlo
  | .ign => .ign

/-- A slot while receiving (R188). -/
def RSlave.slotReceive (e : RSlave) (b : Bool) : RSlave :=
  if e.n < 8 then
    let e1 := { e with sh := shiftInByte e.sh b, n := e.n + 1 }
    if e1.n = 8 then e1.byteDone else e1
  else
    { e with n := 0, sh := 0#8, ph := e.afterAck }

/-- A slot while sending; `again` is the phase after the master's ACK (R188). -/
def RSlave.slotSend (e : RSlave) (b : Bool) (again : Phase) : RSlave :=
  if e.n < 8 then { e with n := e.n + 1 }
  else { e with n := 0, ph := if b then .ign else again }

/-- `slot(b)`, the slot transition (R188). -/
def RSlave.slot (e : RSlave) (b : Bool) : RSlave :=
  match e.ph with
  | .idle => e
  | .ign => e
  | .dev => e.slotReceive b
  | .rega => e.slotReceive b
  | .whi => e.slotReceive b
  | .wlo => e.slotReceive b
  | .rhi => e.slotSend b .rlo
  | .rlo => e.slotSend b .ign

/-- The slave's view of the master's pins after an observation: `MSDA`, `MSCL` (R187). -/
def RSlave.view (e : RSlave) (o : Observation) : RSlave :=
  match o.line with
  | .sda => { e with msda := o.drive }
  | .scl => { e with mscl := o.drive }

/-- The falling edge of R187: the slot transition when the clock-high period was a slot. -/
def RSlave.fall (e : RSlave) : RSlave :=
  let e1 := match e.lb with
    | some b => if e.cond then e else e.slot b
    | none => e
  { e1 with cond := false, lb := none }

/-- A START or STOP condition of R187: a fresh byte in phase `ph`. -/
def RSlave.condition (e : RSlave) (ph : Phase) : RSlave :=
  { e with ph := ph, n := 0, sh := 0#8, cond := true }

/-- `env_obs` of RSLAVE (R187): the two levels before and after the new view select exactly one case. -/
def RSlave.observe (e : RSlave) (o : Observation) : RSlave :=
  let e1 := e.view o
  match e.scl, e1.scl with
  | true, true =>
    match e.sda, e1.sda with
    | true, false => e1.condition .dev
    | false, true => e1.condition .idle
    | true, true => e1
    | false, false => e1
  | false, true => { e1 with lb := some e1.sda, cond := false }
  | true, false => e1.fall
  | false, false => e1

/-- `env_obs(E, L, d)` (R56, R187, R190). -/
def Env.observe (e : Env) (o : Observation) : Env :=
  match e with
  | .any id seen => .any id (o :: seen)
  | .noSlave => .noSlave
  | .rslave r => .rslave (r.observe o)

/-- `env_lvl(E, L)`: the level the environment puts on a released line (R56, R186, R190). -/
def Env.level (e : Env) (l : Line) : Bool :=
  match e with
  | .any id seen => Config.envLevel id seen l
  | .noSlave => true
  | .rslave r =>
    match l with
    | .sda => r.out
    | .scl => true

end Sys2Proof.Machine
end

