-- ==== Sys2Proof/Machine/Flags.lean ====
section
/-! DEFINITION. The flags and control registers, each written in one place (10_state.md rule R32), and the
conditions on them that decide whether a command faults or has a meaning (70_reset_and_hazards.md rule R210).
SI2CM has no arithmetic condition codes and no acknowledge flag (R32). -/

namespace Sys2Proof.Machine

open Sys2Proof

/-- `CFG` as CONFIGURE leaves it: the three fields and `CFG.CONFIGURED <- 1` (R110). -/
def State.setCfg (s : State) (addr : Addr) (sda scl : LineId) : State :=
  { s with cfg := ⟨addr, sda, scl, true⟩ }

/-- `PEND` as REQUEST_READ leaves it: the two fields and `PEND.VALID <- 1` (R112). -/
def State.setPend (s : State) (addr : Addr) (count : Count) : State :=
  { s with pend := ⟨addr, count, true⟩ }

/-- `CFG.SLAVE_ADDR <- a` (R120). -/
def State.setSlaveAddr (s : State) (a : Addr) : State :=
  { s with cfg := { s.cfg with slaveAddr := a } }

/-- `STATUS.IN_TXN <- b` (R120, R122). -/
def State.setInTxn (s : State) (b : Bool) : State := { s with inTxn := b }

/-- `CFG.SDA_LINE = CFG.SCL_LINE`, the configuration no pin event has a meaning with (R210, U3). -/
def State.sameLines (s : State) : Bool := s.cfg.sdaLine == s.cfg.sclLine

/-- A transaction is open in the sense of R210's fifth row: `IN_TXN = 1`, and `CONFIGURED = 1` as R33 says. -/
def State.transactionOpen (s : State) : Bool := s.cfg.configured && s.inTxn

end Sys2Proof.Machine
end

