-- ==== Sys2Proof/Machine/Ops.lean ====
section
/-! DEFINITION. The shared operations: the pin port and the wire (20_memory.md rules R50 to R57), the
micro-operations a command's pseudocode is made of and the program that lists them, the response and the raising of
a fault (30_encoding.md rule R96, 60_exceptions.md rule R172), and the frame of a command: what R210 asks before it
runs and how it is carried out (10_state.md rule R31). -/

namespace Sys2Proof.Machine

open Sys2Proof

/-- `line(L)`: the GPIO line a symbolic line stands for at this moment (R10, R50). -/
def State.lineId (s : State) (l : Line) : LineId :=
  match l with
  | .sda => s.cfg.sdaLine
  | .scl => s.cfg.sclLine

/-- `PIN[l]` (R29). -/
def State.pin (s : State) (l : LineId) : Pin := s.pins[l.toNat]'l.isLt

/-- `PIN[l] <- p` (R29). -/
def State.setPin (s : State) (l : LineId) (p : Pin) : State :=
  { s with pins := s.pins.set l.toNat p l.isLt }

/-- `wire(S, E, L)`, the wire level of a symbolic line (R57). -/
def State.wire (s : State) (l : Line) : Bool :=
  match (s.pin (s.lineId l)).dir with
  | .output => (s.pin (s.lineId l)).out
  | .input => s.env.level l

/-- The environment is told what SI2CM now does to a line (R50, R56). -/
def State.tell (s : State) (l : Line) (d : Drive) : State :=
  { s with env := s.env.observe ⟨l, d⟩ }

/-- The sequencer after one more pin event (R31). -/
def Seq.tick : Seq → Seq
  | .idle => .idle
  | .run i k b => .run i (k + 1) b

/-- The sampled bit is delivered to the command in flight (R50). -/
def Seq.deliver (b : Bool) : Seq → Seq
  | .idle => .idle
  | .run i k _ => .run i k b

/-- The bit last delivered to the command in flight. -/
def Seq.bit : Seq → Bool
  | .idle => false
  | .run _ _ b => b

/-- The wire levels of the two lines (R57). -/
def State.levels (s : State) : Levels := ⟨s.wire .sda, s.wire .scl⟩

/-- The event is over: it is appended to the trace with the wire levels it found and those it leaves, and `SEQ`
advances (R31, R50, R58). -/
def State.record (s : State) (before : Levels) (e : Event) : State :=
  { s with trace := s.trace ++ [⟨e, before, s.levels⟩], seq := s.seq.tick }

/-- The pin event `DRV(L, v)` (R50, R52). -/
def State.drv (s : State) (l : Line) (v : Bool) : State :=
  ((s.setPin (s.lineId l) ⟨.output, v⟩).tell l (.driven v)).record s.levels (.drv l v)

/-- The pin event `REL(L)`: `OUT` keeps its value (R50, R53). -/
def State.rel (s : State) (l : Line) : State :=
  ((s.setPin (s.lineId l) ⟨.input, (s.pin (s.lineId l)).out⟩).tell l .released).record s.levels (.rel l)

/-- The pin event `SMP(L)`: the wire level is delivered, and nothing else changes (R50, R54). -/
def State.smp (s : State) (l : Line) : State :=
  ({ s with seq := s.seq.deliver (s.wire l) }).record s.levels (.smp l (s.wire l))

/-- The pin event `DLY` (R50, R55): the model has no time, and the event stays in the trace. -/
def State.dly (s : State) : State := s.record s.levels .dly

/-- One line of a command's pseudocode. The first five emit a pin event, the others write registers. -/
inductive MicroOp where
  /-- `DRV(L, v)` -/
  | drv (l : Line) (v : Bool)
  /-- `DRV(SDA, SHIFT[7])` (R130) -/
  | drvShift
  /-- `REL(L)` -/
  | rel (l : Line)
  /-- `SMP(L)`, its bit kept for the command in flight -/
  | smp (l : Line)
  /-- `DLY` -/
  | dly
  /-- CONFIGURE's register writes (R110) -/
  | setCfg (addr : Addr) (sda scl : LineId)
  /-- REQUEST_READ's register writes (R112) -/
  | setPend (addr : Addr) (count : Count)
  /-- `CFG.SLAVE_ADDR <- ADDR` (R120) -/
  | setSlaveAddr (a : Addr)
  /-- `CFG.SLAVE_ADDR <- CFG.SLAVE_ADDR`, the START of a macro command (R151, R153) -/
  | keepSlaveAddr
  /-- `STATUS.IN_TXN <- b` (R120, R122) -/
  | setInTxn (b : Bool)
  /-- `SHIFT <- v; BITCNT <- 0` (R130, R132) -/
  | loadShift (v : Byte)
  /-- `SHIFT <- DEVBYTE; BITCNT <- 0` (R90, R151, R153) -/
  | loadDevByte
  /-- `SHIFT <- (SHIFT << 1)[7:0]; BITCNT <- BITCNT + 1` (R130) -/
  | shiftOut
  /-- `SHIFT <- ((SHIFT << 1) | b)[7:0]; BITCNT <- BITCNT + 1` (R132) -/
  | shiftIn
  /-- `RXHI <- SHIFT`, the byte READ_BYTE returned (R153) -/
  | latchHi
  deriving DecidableEq, Repr

/-- The micro-operation emits a pin event. -/
def MicroOp.isEvent : MicroOp → Bool
  | .drv _ _ => true
  | .drvShift => true
  | .rel _ => true
  | .smp _ => true
  | .dly => true
  | .setCfg _ _ _ => false
  | .setPend _ _ => false
  | .setSlaveAddr _ => false
  | .keepSlaveAddr => false
  | .setInTxn _ => false
  | .loadShift _ => false
  | .loadDevByte => false
  | .shiftOut => false
  | .shiftIn => false
  | .latchHi => false

/-- `SHIFT <- v; BITCNT <- 0` (R27). -/
def State.loadShift (s : State) (v : Byte) : State := { s with shift := v, bitcnt := 0#4 }

/-- The shift of WRITE_BYTE (R130). -/
def State.shiftOut (s : State) : State :=
  { s with shift := shiftOutByte s.shift, bitcnt := s.bitcnt + 1#4 }

/-- The shift of READ_BYTE, taking in the sampled bit (R132). -/
def State.shiftIn (s : State) : State :=
  { s with shift := shiftInByte s.shift s.seq.bit, bitcnt := s.bitcnt + 1#4 }

/-- `RXHI <- SHIFT` (R153). -/
def State.latchHi (s : State) : State := { s with rxhi := s.shift }

/-- What a micro-operation does (R10, R50). -/
def MicroOp.apply (s : State) : MicroOp → State
  | .drv l v => s.drv l v
  | .drvShift => s.drv .sda (shiftTop s.shift)
  | .rel l => s.rel l
  | .smp l => s.smp l
  | .dly => s.dly
  | .setCfg addr sda scl => s.setCfg addr sda scl
  | .setPend addr count => s.setPend addr count
  | .setSlaveAddr a => s.setSlaveAddr a
  | .keepSlaveAddr => s.setSlaveAddr s.cfg.slaveAddr
  | .setInTxn b => s.setInTxn b
  | .loadShift v => s.loadShift v
  | .loadDevByte => s.loadShift (devByte s.cfg.slaveAddr)
  | .shiftOut => s.shiftOut
  | .shiftIn => s.shiftIn
  | .latchHi => s.latchHi

/-- A command's pseudocode, from its first line to the one before `respond` (R30). -/
abbrev Program := List MicroOp

/-- The whole program, in order (R50: never reordered, merged, dropped or repeated). -/
def runProgram (p : Program) (s : State) : State := p.foldl MicroOp.apply s

/-- The length of a program's event list (R30). -/
def eventCount (p : Program) : Nat := p.countP MicroOp.isEvent

/-- `respond(status, value)`: the response word is produced and the sequencer returns to idle (R10, R31, R96). -/
def State.respond (s : State) (st : Status) (v : Value) : State :=
  { s with responses := s.responses ++ [responseWord st v], seq := .idle }

/-- `raise <Fault>`: the response carries the fault's status, and nothing else changes (R10, R172). This is all the
trap entry there is: nothing is saved, no mode changes, control goes nowhere. -/
def State.raise (s : State) (st : Status) : State :=
  { s with responses := s.responses ++ [responseWord st 0#16] }

/-- A command is taken from the host: `SEQ <- Run(cmd, 0)` (R31). The in-flight bit has no value yet; no command
reads it before its first `SMP`. -/
def State.accept (s : State) (i : Instr) : State := { s with seq := .run i 0 false }

/-- What must hold before a command of no transaction that begins one runs: START, WRITE_REG, READ_REG. First
`CFG.CONFIGURED` (ConfigurationError), then the table (R173, R210). -/
def opening (s : State) (go : State → Result) : Result :=
  if s.cfg.configured = false then .next (s.raise .configurationError)
  else if s.inTxn = true then .refused .transactionOpen
  else if s.sameLines = true then .refused .sameLine
  else go s

/-- What must hold before a command inside a transaction runs: END, WRITE_BYTE, READ_BYTE, SEND_ACK, SEND_NACK,
RECV_ACK (R210). -/
def within (s : State) (go : State → Result) : Result :=
  if s.transactionOpen = false then .refused .noTransaction
  else if s.sameLines = true then .refused .sameLine
  else go s

/-- What must hold before CONFIGURE runs: `STATUS.IN_TXN = 0` (R111, R210). -/
def between (s : State) (go : State → Result) : Result :=
  if s.inTxn = true then .refused .configureInTransaction else go s

/-- A command that nothing stops is carried out as one big step: taken, its program performed, its response given
(R31: such a model loses nothing). `value` is the response's value, read when the program is done. -/
def carryOut (i : Instr) (p : Program) (value : State → Value) (s : State) : Result :=
  let t := runProgram p (s.accept i)
  .next (t.respond .ok (value t))

/-- The response value of a command without a result (R96). -/
def noValue (_ : State) : Value := 0#16

end Sys2Proof.Machine
end

