-- ==== Sys2Proof/Machine/Bookkeeping.lean ====
section
/-! DEFINITION. The bookkeeping commands CONFIGURE and REQUEST_READ (40_config.md). -/

namespace Sys2Proof.Machine

open Sys2Proof

/-- The program of CONFIGURE: no pin event (R110). -/
def configureProgram (addr : Addr) (sda scl : LineId) : Program := [.setCfg addr sda scl]

/-- CONFIGURE (R110, R111): legal outside a transaction, configured or not. -/
def execConfigure (addr : Addr) (sda scl : LineId) (s : State) : Result :=
  between s (carryOut (.configure addr sda scl) (configureProgram addr sda scl) noValue)

/-- The program of REQUEST_READ: no pin event (R112). -/
def requestReadProgram (addr : Addr) (count : Count) : Program := [.setPend addr count]

/-- REQUEST_READ (R112, R113): legal in every state; nothing is checked. -/
def execRequestRead (addr : Addr) (count : Count) (s : State) : Result :=
  carryOut (.requestRead addr count) (requestReadProgram addr count) noValue s

end Sys2Proof.Machine
end

