-- ==== Sys2Proof/Machine/Ack.lean ====
section
/-! DEFINITION. The ACK/NACK arbiter: SEND_ACK, SEND_NACK and RECV_ACK (43_ack.md). -/

namespace Sys2Proof.Machine

open Sys2Proof

/-- The program of SEND_ACK: SDA low for one clock pulse (R140). -/
def sendAckProgram : Program :=
  [.drv .sda false, .dly, .drv .scl true, .dly, .drv .scl false, .dly]

/-- SEND_ACK (R140). -/
def execSendAck (s : State) : Result := within s (carryOut .sendAck sendAckProgram noValue)

/-- The program of SEND_NACK: SDA high for one clock pulse (R141). -/
def sendNackProgram : Program :=
  [.drv .sda true, .dly, .drv .scl true, .dly, .drv .scl false, .dly]

/-- SEND_NACK (R141). -/
def execSendNack (s : State) : Result := within s (carryOut .sendNack sendNackProgram noValue)

/-- The program of RECV_ACK: SDA to input, one clock pulse, the sample inside it (R142). -/
def recvAckProgram : Program :=
  [.rel .sda, .dly, .drv .scl true, .dly, .smp .sda, .drv .scl false, .dly]

/-- The response value of RECV_ACK: the sampled bit, with no inversion (R96, R142). -/
def recvAckValue (s : State) : Value := valueOfBit s.seq.bit

/-- RECV_ACK (R142). A sampled 1 is no fault (R175). -/
def execRecvAck (s : State) : Result := within s (carryOut .recvAck recvAckProgram recvAckValue)

end Sys2Proof.Machine
end

