-- ==== Sys2Proof/Machine/ByteShifter.lean ====
section
/-! DEFINITION. The byte shifter: WRITE_BYTE and READ_BYTE (42_byte_shifter.md). -/

namespace Sys2Proof.Machine

open Sys2Proof

/-- `for i in 0..7`: exactly eight iterations (R10). -/
def eightTimes (body : Program) : Program := (List.replicate 8 body).flatten

/-- One iteration of WRITE_BYTE: the bit is set up while SCL is 0, then one clock pulse (R130). -/
def writeBit : Program :=
  [.drvShift, .dly, .drv .scl true, .dly, .drv .scl false, .dly, .shiftOut]

/-- The program of WRITE_BYTE (R130). -/
def writeByteProgram (value : Byte) : Program := .loadShift value :: eightTimes writeBit

/-- WRITE_BYTE (R130). -/
def execWriteByte (value : Byte) (s : State) : Result :=
  within s (carryOut (.writeByte value) (writeByteProgram value) noValue)

/-- One iteration of READ_BYTE: the sample lies after the delay of the rising edge, before the falling edge (R132). -/
def readBit : Program :=
  [.drv .scl true, .dly, .smp .sda, .drv .scl false, .dly, .shiftIn]

/-- The program of READ_BYTE (R132). -/
def readByteProgram : Program := [.rel .sda, .dly, .loadShift 0#8] ++ eightTimes readBit

/-- The response value of READ_BYTE: `zext_16(SHIFT)` (R96, R132). -/
def readByteValue (s : State) : Value := valueOfByte s.shift

/-- READ_BYTE (R132). -/
def execReadByte (s : State) : Result :=
  within s (carryOut .readByte readByteProgram readByteValue)

end Sys2Proof.Machine
end

