-- ==== Sys2Proof/Machine/StartStop.lean ====
section
/-! DEFINITION. The START/STOP sequencer: START and END (41_start_stop.md). -/

namespace Sys2Proof.Machine

open Sys2Proof

/-- The pin events and the flag of START, after the address is recorded (R120). -/
def startEvents : Program :=
  [ .drv .sda true, .dly,
    .drv .scl true, .dly,
    .drv .sda false, .dly,
    .drv .scl false, .dly,
    .setInTxn true ]

/-- The program of START (R120). -/
def startProgram (addr : Addr) : Program := .setSlaveAddr addr :: startEvents

/-- START (R120): ConfigurationError when unconfigured, with no event and no state change. -/
def execStart (addr : Addr) (s : State) : Result :=
  opening s (carryOut (.start addr) (startProgram addr) noValue)

/-- The program of END (R122). -/
def endProgram : Program :=
  [ .drv .sda false, .dly,
    .drv .scl true, .dly,
    .drv .sda true, .dly,
    .setInTxn false ]

/-- END (R122). -/
def execEndTxn (s : State) : Result := within s (carryOut .endTxn endProgram noValue)

end Sys2Proof.Machine
end

