-- ==== Sys2Proof/Machine/RegisterAccess.lean ====
section
/-! DEFINITION. The register read/write state machine: WRITE_REG and READ_REG (44_register_access.md). Each is a
fixed sequence of the primitive commands' programs; a primitive's name in the pseudocode means its event list and
its state writes, without a response of its own. -/

namespace Sys2Proof.Machine

open Sys2Proof

/-- `START(CFG.SLAVE_ADDR)`: the address is rewritten with its own value (R151, R153). -/
def startConfiguredProgram : Program := .keepSlaveAddr :: startEvents

/-- `WRITE_BYTE((CFG.SLAVE_ADDR << 1) | 0)` (R90, R151, R153). -/
def writeDevByteProgram : Program := .loadDevByte :: eightTimes writeBit

/-- The program of WRITE_REG, line by line (R151). The four acknowledgment samples reach nothing (R155). -/
def writeRegProgram (reg : RegIndex) (value : Value) : Program :=
  [ startConfiguredProgram,
    writeDevByteProgram, recvAckProgram,
    writeByteProgram (regByteW reg), recvAckProgram,
    writeByteProgram (hiByte value), recvAckProgram,
    writeByteProgram (loByte value), recvAckProgram,
    endProgram ].flatten

/-- WRITE_REG (R151). -/
def execWriteReg (reg : RegIndex) (value : Value) (s : State) : Result :=
  opening s (carryOut (.writeReg reg value) (writeRegProgram reg value) noValue)

/-- The program of READ_REG, line by line (R153): `RXHI` takes the first byte, the second stays in `SHIFT`. -/
def readRegProgram (reg : RegIndex) : Program :=
  [ startConfiguredProgram,
    writeDevByteProgram, recvAckProgram,
    writeByteProgram (regByteR reg), recvAckProgram,
    readByteProgram, [.latchHi], sendAckProgram,
    readByteProgram, sendNackProgram,
    endProgram ].flatten

/-- The response value of READ_REG: `(RXHI << 8) | lo`, where `lo` is `SHIFT` (R96, R153). -/
def readRegValue (s : State) : Value := assembleValue s.rxhi s.shift

/-- READ_REG (R153). -/
def execReadReg (reg : RegIndex) (s : State) : Result :=
  opening s (carryOut (.readReg reg) (readRegProgram reg) readRegValue)

end Sys2Proof.Machine
end

