-- ==== Sys2Proof/Machine/Dispatch.lean ====
section
/-! DEFINITION. One arm per command: the meaning of each. -/

namespace Sys2Proof.Machine

open Sys2Proof

def exec (i : Instr) (s : State) : Host.Outcome State Fault Refusal :=
  match i with
  | .configure addr sda scl => Sys2Proof.Machine.execConfigure addr sda scl s
  | .start addr => Sys2Proof.Machine.execStart addr s
  | .endTxn => Sys2Proof.Machine.execEndTxn s
  | .sendAck => Sys2Proof.Machine.execSendAck s
  | .sendNack => Sys2Proof.Machine.execSendNack s
  | .recvAck => Sys2Proof.Machine.execRecvAck s
  | .writeByte value => Sys2Proof.Machine.execWriteByte value s
  | .readByte => Sys2Proof.Machine.execReadByte s
  | .writeReg reg value => Sys2Proof.Machine.execWriteReg reg value s
  | .readReg reg => Sys2Proof.Machine.execReadReg reg s
  | .requestRead addr count => Sys2Proof.Machine.execRequestRead addr count s

end Sys2Proof.Machine
end

