-- ==== Sys2Proof/Machine/Sequencer.lean ====
section
/-! DEFINITION. The sequencer, event by event (10_state.md rules R30, R31), and how it takes a command word from the
host. A step taken at `Idle` carries a whole command out at once; a step taken at `Run(cmd, k)` performs one pin event,
or ends the command when `k` is the length of its event list. -/

namespace Sys2Proof.Machine

open Sys2Proof

/-- The program of each command. -/
def programOf : Instr → Program
  | .configure addr sda scl => configureProgram addr sda scl
  | .start addr => startProgram addr
  | .endTxn => endProgram
  | .sendAck => sendAckProgram
  | .sendNack => sendNackProgram
  | .recvAck => recvAckProgram
  | .writeByte value => writeByteProgram value
  | .readByte => readByteProgram
  | .writeReg reg value => writeRegProgram reg value
  | .readReg reg => readRegProgram reg
  | .requestRead addr count => requestReadProgram addr count

/-- The response value of each command, read when its program is done (R96). -/
def valueOf : Instr → State → Value
  | .configure _ _ _ => noValue
  | .start _ => noValue
  | .endTxn => noValue
  | .sendAck => noValue
  | .sendNack => noValue
  | .recvAck => recvAckValue
  | .writeByte _ => noValue
  | .readByte => readByteValue
  | .writeReg _ _ => noValue
  | .readReg _ => readRegValue
  | .requestRead _ _ => noValue

/-- `Idle` and a legal command word presented: the fault's response at once, the refusal of R210, or
`SEQ <- Run(cmd, 0)` (R31). -/
def present (i : Instr) (s : State) : Result :=
  match i with
  | .configure _ _ _ => between s fun s => .next (s.accept i)
  | .start _ => opening s fun s => .next (s.accept i)
  | .endTxn => within s fun s => .next (s.accept i)
  | .sendAck => within s fun s => .next (s.accept i)
  | .sendNack => within s fun s => .next (s.accept i)
  | .recvAck => within s fun s => .next (s.accept i)
  | .writeByte _ => within s fun s => .next (s.accept i)
  | .readByte => within s fun s => .next (s.accept i)
  | .writeReg _ _ => opening s fun s => .next (s.accept i)
  | .readReg _ => opening s fun s => .next (s.accept i)
  | .requestRead _ _ => .next (s.accept i)

/-- The rest of a program after its first `k` pin events. -/
def afterEvents : Nat → Program → Program
  | 0, p => p
  | _ + 1, [] => []
  | k + 1, op :: p => if op.isEvent then afterEvents k p else afterEvents (k + 1) p

/-- A program up to and including its next pin event. -/
def throughEvent : Program → Program
  | [] => []
  | op :: p => if op.isEvent then [op] else op :: throughEvent p

/-- One step of the sequencer at `Run(cmd, k)` (R31). The register writes that stand before event `k` in the
pseudocode are made with it, those after the last event when the command ends. -/
def sequencerStep (i : Instr) (k : Nat) (s : State) : Result :=
  let rest := afterEvents k (programOf i)
  if k < eventCount (programOf i) then .next (runProgram (throughEvent rest) s)
  else if k = eventCount (programOf i) then
    let t := runProgram rest s
    .next (t.respond .ok (valueOf i t))
  else .fault .sequencerOutOfRange

/-- A command word is taken: an illegal one raises IllegalCommand before any other check (R94, R174, R177), a legal
one is carried out. -/
def takeWord (w : Word) (s : State) : Result :=
  match decode w with
  | .command i => exec i s
  | .illegal _ => .next (s.raise .illegalCommand)

/-- The command port at `Idle` (R8): the next word the host presents leaves the port; with none, the block stays as
it is (R192). -/
def takeCommand (s : State) : Result :=
  match s.commands with
  | [] => .next s
  | w :: ws => takeWord w { s with commands := ws }

/-- The host presents `w` next, to an idle sequencer. -/
def State.presentNext (s : State) (w : Word) : State :=
  { s with commands := w :: s.commands, seq := .idle }

end Sys2Proof.Machine
end

