-- ==== Sys2Proof/Machine/Step.lean ====
section
/-! DEFINITION. The step: at `Idle` the next command word, at `Run(cmd, k)` the sequencer's next transition
(10_state.md rule R31). -/

namespace Sys2Proof.Machine

open Sys2Proof

/-- One step of the machine (R31). -/
def step (s : State) : Host.Outcome State Fault Refusal :=
  match s.seq with
  | .idle => takeCommand s
  | .run i k _ => sequencerStep i k s

/-- The state in which the very next step takes the command word with bits `w` (bits from `nbits` on being 0): the
host presents it to an idle sequencer, before whatever it was to present. -/
def State.withFetchWord (s : State) (nbits w : Nat) : State := s.presentNext (tableWord nbits w)

end Sys2Proof.Machine
end

