-- ==== Sys2Proof/Machine/Bus.lean ====
section
/-! DEFINITION. The test harness of the spec: bus conditions, slots and the symbol sequence of a trace
(20_memory.md rules R58, R59), read off the wire levels the trace records, and what a trace says of events and of
duration (R11, R221). -/

namespace Sys2Proof.Machine

open Sys2Proof

/-- A bus symbol: a START condition, a STOP condition, or the bit of a slot (R59). -/
inductive Symbol where
  | S
  | P
  | bit (b : Bool)
  deriving DecidableEq, Repr

/-- The bus condition an event is, if any: SDA changes while SCL is 1 before and after the event (R58). -/
def TracePoint.condition (p : TracePoint) : Option Symbol :=
  match p.before.scl, p.after.scl, p.before.sda, p.after.sda with
  | true, true, true, false => some .S
  | true, true, false, true => some .P
  | true, true, true, true => none
  | true, true, false, false => none
  | true, false, _, _ => none
  | false, true, _, _ => none
  | false, false, _, _ => none

/-- The event is a rising edge: it changes SCL from 0 to 1 (R59). -/
def TracePoint.rises (p : TracePoint) : Bool := !p.before.scl && p.after.scl

/-- The event is a falling edge: it changes SCL from 1 to 0 (R59). -/
def TracePoint.falls (p : TracePoint) : Bool := p.before.scl && !p.after.scl

/-- The symbol an event completes, if any: the condition it is, or the bit of the slot it ends. `slot` is the bit taken
at the last rising edge, while neither a falling edge nor a condition has followed it (R59). -/
def TracePoint.symbol (slot : Option Bool) (p : TracePoint) : Option Symbol :=
  match p.condition with
  | some c => some c
  | none => if p.falls then slot.map .bit else none

/-- The slot under way after an event: begun by a rising edge with the level SDA then has, over at a falling edge, lost
at a condition (R59). -/
def TracePoint.nextSlot (slot : Option Bool) (p : TracePoint) : Option Bool :=
  if p.condition.isSome || p.falls then none
  else if p.rises then some p.after.sda
  else slot

/-- The symbol sequence of a trace, with the slot that is under way where it begins (R59). -/
def symbolsFrom : Option Bool → List TracePoint → List Symbol
  | _, [] => []
  | slot, p :: ps => (p.symbol slot).toList ++ symbolsFrom (p.nextSlot slot) ps

/-- What `t`'s trace has beyond `s`'s: the trace of what led from `s` to `t`. -/
def traceSince (s t : State) : List TracePoint := t.trace.drop s.trace.length

/-- The pin events that led from `s` to `t` (R11). -/
def eventsSince (s t : State) : List Event := (traceSince s t).map TracePoint.event

/-- The symbol sequence of what led from `s` to `t` (R59). No slot is under way at `s` (notes/assumptions/16.md). -/
def symbolsSince (s t : State) : List Symbol := symbolsFrom none (traceSince s t)

/-- The slot symbols of a byte, most significant bit first (R59, R62). -/
def byteSymbols (v : Byte) : List Symbol := (bitsMsbFirst v).map .bit

/-- What the environment observes of a list of events: every `DRV` and `REL`, in order (R50, R56). -/
def observed : List Event → List Observation
  | [] => []
  | .drv l v :: es => ⟨l, .driven v⟩ :: observed es
  | .rel l :: es => ⟨l, .released⟩ :: observed es
  | .smp _ _ :: es => observed es
  | .dly :: es => observed es

/-- The environment after a list of events (R50). -/
def Env.after (e : Env) (es : List Event) : Env := (observed es).foldl Env.observe e

/-- The event is a `DLY`. -/
def Event.isDly : Event → Bool
  | .dly => true
  | .drv _ _ => false
  | .rel _ => false
  | .smp _ _ => false

/-- The event is a `DRV`. -/
def Event.isDrv : Event → Bool
  | .drv _ _ => true
  | .dly => false
  | .rel _ => false
  | .smp _ _ => false

/-- The event is a `REL`. -/
def Event.isRel : Event → Bool
  | .rel _ => true
  | .dly => false
  | .drv _ _ => false
  | .smp _ _ => false

/-- The event is an `SMP`. -/
def Event.isSmp : Event → Bool
  | .smp _ _ => true
  | .dly => false
  | .drv _ _ => false
  | .rel _ => false

/-- The pin event a line of pseudocode emits in a state: none where it writes registers (R10, R50). -/
def MicroOp.eventIn (s : State) : MicroOp → Option Event
  | .drv l v => some (.drv l v)
  | .drvShift => some (.drv .sda (shiftTop s.shift))
  | .rel l => some (.rel l)
  | .smp l => some (.smp l (s.wire l))
  | .dly => some .dly
  | .setCfg _ _ _ => none
  | .setPend _ _ => none
  | .setSlaveAddr _ => none
  | .keepSlaveAddr => none
  | .setInTxn _ => none
  | .loadShift _ => none
  | .loadDevByte => none
  | .shiftOut => none
  | .shiftIn => none
  | .latchHi => none

/-- A lower bound of a trace's duration in microseconds: its `DLY` events times `T_DELAY_US` (R221). -/
def minDurationUs (es : List Event) : Nat := es.countP Event.isDly * Config.delayUs

end Sys2Proof.Machine
end

