-- ==== Sys2Proof/Safety.lean ====
section
/-! DEFINITION. The conditions claims are stated under: when a command has a meaning (70_reset_and_hazards.md rule
R210), the invariants of the machine, and when two states differ in the bus environment only. -/

namespace Sys2Proof.Machine

open Sys2Proof

/-- START, WRITE_REG and READ_REG have a meaning: configured, no transaction open, two different lines (R210). -/
abbrev State.canOpen (s : State) : Prop :=
  s.cfg.configured = true ∧ s.inTxn = false ∧ s.cfg.sdaLine ≠ s.cfg.sclLine

/-- END, WRITE_BYTE, READ_BYTE, SEND_ACK, SEND_NACK and RECV_ACK have a meaning (R210). -/
abbrev State.canTransfer (s : State) : Prop :=
  s.cfg.configured = true ∧ s.inTxn = true ∧ s.cfg.sdaLine ≠ s.cfg.sclLine

end Sys2Proof.Machine

namespace Sys2Proof

/-- The command emits a pin event: all but the bookkeeping commands (R14). -/
def Instr.emits : Instr → Bool
  | .configure _ _ _ => false
  | .requestRead _ _ => false
  | .start _ => true
  | .endTxn => true
  | .sendAck => true
  | .sendNack => true
  | .recvAck => true
  | .writeByte _ => true
  | .readByte => true
  | .writeReg _ _ => true
  | .readReg _ => true

/-- The command begins a transaction and so checks `CFG.CONFIGURED`: START, WRITE_REG, READ_REG (R173). -/
def Instr.opens : Instr → Bool
  | .start _ => true
  | .writeReg _ _ => true
  | .readReg _ => true
  | .configure _ _ _ => false
  | .requestRead _ _ => false
  | .endTxn => false
  | .sendAck => false
  | .sendNack => false
  | .recvAck => false
  | .writeByte _ => false
  | .readByte => false

/-- The commands that may stand between START and END (R124). -/
def Instr.inner : Instr → Bool
  | .sendAck => true
  | .sendNack => true
  | .recvAck => true
  | .writeByte _ => true
  | .readByte => true
  | .requestRead _ _ => true
  | .configure _ _ _ => false
  | .start _ => false
  | .endTxn => false
  | .writeReg _ _ => false
  | .readReg _ => false

/-- The number of slots of a command between START and END (R220). -/
def Instr.slots : Instr → Nat
  | .configure _ _ _ => 0
  | .requestRead _ _ => 0
  | .start _ => 0
  | .endTxn => 0
  | .writeByte _ => 8
  | .readByte => 8
  | .sendAck => 1
  | .sendNack => 1
  | .recvAck => 1
  | .writeReg _ _ => 36
  | .readReg _ => 36

end Sys2Proof

namespace Sys2Proof.Machine

open Sys2Proof

/-- The state in which a command has its effect: the legality table of R210, its faults left out. -/
def State.mayRun (s : State) : Instr → Prop
  | .configure _ _ _ => s.inTxn = false
  | .requestRead _ _ => True
  | .start _ => s.canOpen
  | .writeReg _ _ => s.canOpen
  | .readReg _ => s.canOpen
  | .endTxn => s.canTransfer
  | .sendAck => s.canTransfer
  | .sendNack => s.canTransfer
  | .recvAck => s.canTransfer
  | .writeByte _ => s.canTransfer
  | .readByte => s.canTransfer

/-- The command in flight, if any, was one the block may carry out, and `k` is within its event list (R30, R210). -/
def State.seqSound (s : State) : Prop :=
  match s.seq with
  | .idle => True
  | .run i k _ =>
    k ≤ eventCount (programOf i)
      ∧ (i.emits = true → s.cfg.configured = true ∧ s.cfg.sdaLine ≠ s.cfg.sclLine)
      ∧ (i.op = .configure → s.inTxn = false)

/-- The control invariant, of every state a step can reach: an open transaction implies a configured block (R33) with
two different lines (R210, U3), and the sequencer position is sound (R30). -/
structure State.ControlInv (s : State) : Prop where
  configured : s.inTxn = true → s.cfg.configured = true
  linesDiffer : s.inTxn = true → s.cfg.sdaLine ≠ s.cfg.sclLine
  seqSound : s.seqSound

/-- What holds between commands: the sequencer is idle, and an open transaction implies a configured block with two
different lines whose clock line is driven low (R33, R37, R123). -/
structure State.BetweenCommands (s : State) : Prop where
  idle : s.seq = .idle
  configured : s.inTxn = true → s.cfg.configured = true
  linesDiffer : s.inTxn = true → s.cfg.sdaLine ≠ s.cfg.sclLine
  clockLow : s.inTxn = true → s.pin s.cfg.sclLine = ⟨.output, false⟩

/-- `DRV(SCL,1) DLY DRV(SCL,0) DLY`: one clock pulse. -/
def pulseEvents : List Event := [.drv .scl true, .dly, .drv .scl false, .dly]

/-- The pin events of one bit SI2CM puts on SDA (R130, R140, R141). -/
def bitEvents (b : Bool) : List Event := [.drv .sda b, .dly] ++ pulseEvents

/-- The 48 pin events of a byte SI2CM sends (R130). -/
def byteEvents (v : Byte) : List Event := (bitsMsbFirst v).flatMap bitEvents

/-- The pin events of a slot in which SI2CM samples SDA (R132, R142). -/
def sampleEvents (b : Bool) : List Event :=
  [.drv .scl true, .dly, .smp .sda b, .drv .scl false, .dly]

/-- The seven pin events of RECV_ACK that samples `a` (R142). -/
def recvAckEvents (a : Bool) : List Event := [.rel .sda, .dly] ++ sampleEvents a

/-- The pin events of READ_BYTE that samples `bits` (R132). -/
def readByteEvents (bits : List Bool) : List Event :=
  [.rel .sda, .dly] ++ bits.flatMap sampleEvents

/-- The eight pin events of START (R120). -/
def startEventList : List Event :=
  [ .drv .sda true, .dly, .drv .scl true, .dly, .drv .sda false, .dly, .drv .scl false, .dly ]

/-- The six pin events of END (R122). -/
def endEventList : List Event :=
  [ .drv .sda false, .dly, .drv .scl true, .dly, .drv .sda true, .dly ]

/-- `PIN` after both configured lines have been written, SDA's first; every other line as it was. -/
def State.pinsWith (s : State) (sda scl : Pin) : Vector Pin 256 :=
  (s.pins.set s.cfg.sdaLine.toNat sda s.cfg.sdaLine.isLt).set s.cfg.sclLine.toNat scl s.cfg.sclLine.isLt

/-- Exactly one `DLY` follows every `DRV` and every `REL`, and none stands anywhere else (R55). -/
def delaysFollowTransitions : List Event → Bool
  | [] => true
  | .drv _ _ :: .dly :: es => delaysFollowTransitions es
  | .rel _ :: .dly :: es => delaysFollowTransitions es
  | .smp _ _ :: es => delaysFollowTransitions es
  | .drv _ _ :: _ => false
  | .rel _ :: _ => false
  | .dly :: _ => false

/-- The event with a sampled bit struck out: what of an event does not come from the environment. -/
def Event.shape : Event → Event
  | .smp l _ => .smp l false
  | .drv l v => .drv l v
  | .rel l => .rel l
  | .dly => .dly

end Sys2Proof.Machine
end

