-- ==== Sys2Proof/Certificates/Slice0/Obligations.lean ====
section
/-! DEFINITION. The statements about SI2CM, from the numbered rules of spec/. In a statement about a command's effect,
`t = { s with …, env := t.env, trace := t.trace }` says every field of the state that is not named keeps its value;
what the command adds to the trace and what the environment observes are said through `eventsSince` and in
`EnvironmentObservesEveryDrive`. The statement of a command's rule also says which words are the command, with which
operands, by the rule's `match` and `mask`. -/

open Sys2Proof Sys2Proof.Machine

/-! ### Encoding -/

/-- Decoding the word of a command gives the command back, for every operand (R81, R82, R83). -/
def Obligations.DecodeOfEncode : Prop := ∀ i : Instr, decode (encode i) = .command i

/-- A word that decodes to a command is that command's word: no two words are one command, and no bit is ignored
(R81, R83, R94). -/
def Obligations.EncodeOfDecode : Prop := ∀ (w : Word) (i : Instr), decode w = .command i → encode i = w

/-- The rows of the opcode table are disjoint (R83). -/
def Obligations.OpcodeRowsDisjoint : Prop :=
  ∀ (w : Word) (r q : OpcodeRow), r ∈ opcodeTable → q ∈ opcodeTable →
    w &&& r.mask = r.pattern → w &&& q.mask = q.pattern → r = q

/-- A word is illegal exactly when it matches no row, that is when `OP` is 0x0 or 0xC to 0xF, or a reserved bit of the
format is 1 (R94). -/
def Obligations.IllegalIffReserved : Prop :=
  ∀ w : Word,
    ((∃ why, decode w = .illegal why) ↔ ∀ r ∈ opcodeTable, w &&& r.mask ≠ r.pattern)
    ∧ ((∃ why, decode w = .illegal why) ↔
        (opField w = 0x0#4 ∨ opField w = 0xC#4 ∨ opField w = 0xD#4 ∨ opField w = 0xE#4 ∨ opField w = 0xF#4
          ∨ ∃ r ∈ opcodeTable, opField w = r.op.code ∧ w &&& r.mask &&& 0x0FFFFFFF#32 ≠ 0#32))

/-- The worked encodings of R84, and the all-zero and the all-ones word (R94), decode to what they stand for. -/
def Obligations.WorkedWordsDecode : Prop :=
  decode 0x10050421#32 = .command (.configure 0x21#7 4#8 5#8)
  ∧ decode 0x20000021#32 = .command (.start 0x21#7)
  ∧ decode 0x30000000#32 = .command .endTxn
  ∧ decode 0x40000000#32 = .command .sendAck
  ∧ decode 0x50000000#32 = .command .sendNack
  ∧ decode 0x60000000#32 = .command .recvAck
  ∧ decode 0x700000B0#32 = .command (.writeByte 0xB0#8)
  ∧ decode 0x80000000#32 = .command .readByte
  ∧ decode 0x90081234#32 = .command (.writeReg 0x08#7 0x1234#16)
  ∧ decode 0xA0080000#32 = .command (.readReg 0x08#7)
  ∧ decode 0xB0000221#32 = .command (.requestRead 0x21#7 2#8)
  ∧ (∃ why, decode 0x00000000#32 = .illegal why)
  ∧ (∃ why, decode 0xFFFFFFFF#32 = .illegal why)

/-- Every command is the command of its own script line, and a line that assembles is the line of its command: an
operand that does not fit its field is an assembly error (R82, R97). -/
def Obligations.AssemblyIsFaithful : Prop :=
  (∀ i : Instr, i.toAsm.assemble = some i) ∧ ∀ (l : AsmLine) (i : Instr), l.assemble = some i → i.toAsm = l

/-- The address bytes: the device-address byte is `(a << 1) | 0`, the register-address byte `(r << 1) | 0` for a write
and `(r << 1) | 1` for a read, and these two differ in bit 0 only (R90, R91). -/
def Obligations.AddressBytes : Prop :=
  (∀ a : Addr, (devByte a).toNat = 2 * a.toNat)
  ∧ ∀ r : RegIndex, (regByteW r).toNat = 2 * r.toNat ∧ (regByteR r).toNat = 2 * r.toNat + 1
      ∧ regByteW r ^^^ regByteR r = 1#8

/-- A 16-bit value survives the split into two bytes and the reassembly (R92). -/
def Obligations.ValueSplitLossless : Prop :=
  (∀ v : Value, assembleValue (hiByte v) (loByte v) = v)
  ∧ ∀ hi lo : Byte, hiByte (assembleValue hi lo) = hi ∧ loByte (assembleValue hi lo) = lo

/-- The shifter laws: the bits WRITE_BYTE sends, assembled by READ_BYTE's recurrence, give the byte back, and bit
`7 - i` of an assembled byte is the `i`-th sample (R134). -/
def Obligations.ShifterLaws : Prop :=
  (∀ v : Byte, bitsMsbFirst v = [v.getLsbD 7, v.getLsbD 6, v.getLsbD 5, v.getLsbD 4, v.getLsbD 3, v.getLsbD 2,
      v.getLsbD 1, v.getLsbD 0])
  ∧ (∀ v : Byte, assembleBits (bitsMsbFirst v) = v)
  ∧ ∀ bits : List Bool, bits.length = 8 → bitsMsbFirst (assembleBits bits) = bits

/-! ### The pin events -/

/-- `DRV(L, v)` makes the line an output at level `v` in one event; every other line is as before, the environment
observes `Driven(v)`, and the wire level of `L` is `v` (R52, R57). -/
def Obligations.DriveEstablishesLevel : Prop :=
  ∀ (s : State) (l : Line) (v : Bool),
    (s.drv l v).pin (s.lineId l) = ⟨.output, v⟩
    ∧ (∀ m : LineId, m ≠ s.lineId l → (s.drv l v).pin m = s.pin m)
    ∧ (s.drv l v).env = s.env.observe ⟨l, .driven v⟩
    ∧ (s.drv l v).wire l = v

/-- `REL(L)` makes the line an input and keeps `OUT`; the wire level is then the environment's (R53, R57). -/
def Obligations.ReleaseGivesTheLineAway : Prop :=
  ∀ (s : State) (l : Line),
    (s.rel l).pin (s.lineId l) = ⟨.input, (s.pin (s.lineId l)).out⟩
    ∧ (∀ m : LineId, m ≠ s.lineId l → (s.rel l).pin m = s.pin m)
    ∧ (s.rel l).env = s.env.observe ⟨l, .released⟩
    ∧ (s.rel l).wire l = (s.env.observe ⟨l, .released⟩).level l

/-- `SMP(L)` yields the wire level of `L`, which while `L` is released is the environment's; it writes no pin state
and is invisible to the environment (R54, R57). R50 says that the bit is delivered to the datapath; that it becomes the
third component of `Run(cmd, k)`, the last clause, is the model's choice (notes/assumptions/8.md). -/
def Obligations.SampleYieldsTheWire : Prop :=
  ∀ (s : State) (l : Line),
    eventsSince s (s.smp l) = [.smp l (s.wire l)]
    ∧ ((s.pin (s.lineId l)).dir = .input → s.wire l = s.env.level l)
    ∧ (s.smp l).pins = s.pins ∧ (s.smp l).env = s.env
    ∧ ∀ i k b, s.seq = .run i k b → (s.smp l).seq = .run i (k + 1) (s.wire l)

/-! ### Bookkeeping commands -/

/-- CONFIGURE outside a transaction records the address and the lines, sets `CONFIGURED`, emits nothing, and responds
OK (R110). -/
def Obligations.ConfigureRecords : Prop :=
  (∀ w : Word, w &&& 0xFF000080#32 = 0x10000000#32 →
    decode w = .command (.configure (w.extractLsb' 0 7) (w.extractLsb' 8 8) (w.extractLsb' 16 8)))
  ∧ ∀ (s : State) (a : Addr) (d c : LineId), s.inTxn = false →
    exec (.configure a d c) s
      = .next { s with cfg := ⟨a, d, c, true⟩, seq := .idle, responses := s.responses ++ [0x00000000#32] }

/-- REQUEST_READ records the pending request and nothing else, in every state (R112). -/
def Obligations.RequestReadRecords : Prop :=
  (∀ w : Word, w &&& 0xFFFF0080#32 = 0xB0000000#32 →
    decode w = .command (.requestRead (w.extractLsb' 0 7) (w.extractLsb' 8 8)))
  ∧ ∀ (s : State) (a : Addr) (n : Count),
    exec (.requestRead a n) s
      = .next { s with pend := ⟨a, n, true⟩, seq := .idle, responses := s.responses ++ [0x00000000#32] }

/-! ### The primitive commands -/

/-- START: the address is recorded, the eight events are emitted in order, both lines end driven low, `IN_TXN` is 1,
and the response is OK; on an unconfigured block it is a ConfigurationError, without effect (R120). -/
def Obligations.StartSequence : Prop :=
  (∀ w : Word, w &&& 0xFFFFFF80#32 = 0x20000000#32 → decode w = .command (.start (w.extractLsb' 0 7)))
  ∧ (∀ (s : State) (a : Addr), s.cfg.configured = false →
    exec (.start a) s = .next { s with responses := s.responses ++ [0x10000000#32] })
  ∧ ∀ (s : State) (a : Addr), s.canOpen →
    ∃ t, exec (.start a) s = .next t
      ∧ eventsSince s t = startEventList
      ∧ t = { s with
          cfg := { s.cfg with slaveAddr := a }
          inTxn := true
          seq := .idle
          pins := s.pinsWith ⟨.output, false⟩ ⟨.output, false⟩
          responses := s.responses ++ [0x00000000#32]
          env := t.env
          trace := t.trace }

/-- END: the six events in order, both lines end driven high, `IN_TXN` is 0, and the response is OK (R122). -/
def Obligations.EndSequence : Prop :=
  (∀ w : Word, w &&& 0xFFFFFFFF#32 = 0x30000000#32 → decode w = .command .endTxn)
  ∧ ∀ s : State, s.canTransfer →
    ∃ t, exec .endTxn s = .next t
      ∧ eventsSince s t = endEventList
      ∧ t = { s with
          inTxn := false
          seq := .idle
          pins := s.pinsWith ⟨.output, true⟩ ⟨.output, true⟩
          responses := s.responses ++ [0x00000000#32]
          env := t.env
          trace := t.trace }

/-- WRITE_BYTE: the 48 events that carry the byte's bits, most significant first, whatever the address; SDA ends
driven at bit 0, SCL low; `SHIFT` is 0, `BITCNT` 8; the response is OK (R130). -/
def Obligations.WriteByteSequence : Prop :=
  (∀ w : Word, w &&& 0xFFFFFF00#32 = 0x70000000#32 → decode w = .command (.writeByte (w.extractLsb' 0 8)))
  ∧ ∀ (s : State) (v : Byte), s.canTransfer →
    ∃ t, exec (.writeByte v) s = .next t
      ∧ eventsSince s t = byteEvents v
      ∧ t = { s with
          shift := 0#8
          bitcnt := 8#4
          seq := .idle
          pins := s.pinsWith ⟨.output, v.getLsbD 0⟩ ⟨.output, false⟩
          responses := s.responses ++ [0x00000000#32]
          env := t.env
          trace := t.trace }

/-- READ_BYTE: SDA is released, eight bits are sampled inside eight clock pulses, and the byte they assemble, first
bit most significant, is the response; SDA ends released, SCL low (R132). -/
def Obligations.ReadByteSequence : Prop :=
  (∀ w : Word, w &&& 0xFFFFFFFF#32 = 0x80000000#32 → decode w = .command .readByte)
  ∧ ∀ s : State, s.canTransfer →
    ∃ t bits, exec .readByte s = .next t
      ∧ bits.length = 8
      ∧ eventsSince s t = readByteEvents bits
      ∧ t = { s with
          shift := assembleBits bits
          bitcnt := 8#4
          seq := .idle
          pins := s.pinsWith ⟨.input, (s.pin s.cfg.sdaLine).out⟩ ⟨.output, false⟩
          responses := s.responses ++ [(assembleBits bits).zeroExtend 32]
          env := t.env
          trace := t.trace }

/-- SEND_ACK: SDA low for one clock pulse (R140). -/
def Obligations.SendAckSequence : Prop :=
  (∀ w : Word, w &&& 0xFFFFFFFF#32 = 0x40000000#32 → decode w = .command .sendAck)
  ∧ ∀ s : State, s.canTransfer →
    ∃ t, exec .sendAck s = .next t
      ∧ eventsSince s t = bitEvents false
      ∧ t = { s with
          seq := .idle
          pins := s.pinsWith ⟨.output, false⟩ ⟨.output, false⟩
          responses := s.responses ++ [0x00000000#32]
          env := t.env
          trace := t.trace }

/-- SEND_NACK: SDA high for one clock pulse, actively driven (R141). -/
def Obligations.SendNackSequence : Prop :=
  (∀ w : Word, w &&& 0xFFFFFFFF#32 = 0x50000000#32 → decode w = .command .sendNack)
  ∧ ∀ s : State, s.canTransfer →
    ∃ t, exec .sendNack s = .next t
      ∧ eventsSince s t = bitEvents true
      ∧ t = { s with
          seq := .idle
          pins := s.pinsWith ⟨.output, true⟩ ⟨.output, false⟩
          responses := s.responses ++ [0x00000000#32]
          env := t.env
          trace := t.trace }

/-- RECV_ACK: SDA is released, sampled inside one clock pulse, and the response is the sampled bit with no inversion;
the bit is kept nowhere else (R142). -/
def Obligations.RecvAckSequence : Prop :=
  (∀ w : Word, w &&& 0xFFFFFFFF#32 = 0x60000000#32 → decode w = .command .recvAck)
  ∧ ∀ s : State, s.canTransfer →
    ∃ t a, exec .recvAck s = .next t
      ∧ eventsSince s t = recvAckEvents a
      ∧ t = { s with
          seq := .idle
          pins := s.pinsWith ⟨.input, (s.pin s.cfg.sdaLine).out⟩ ⟨.output, false⟩
          responses := s.responses ++ [if a then 0x00000001#32 else 0x00000000#32]
          env := t.env
          trace := t.trace }

/-! ### The register commands -/

/-- WRITE_REG: one transaction that carries the device-address byte, the register-address byte of a write, the high
and the low byte of the value, each followed by an acknowledgment slot whose bit is discarded; the bus ends idle, and
the response is OK; on an unconfigured block it is a ConfigurationError, without effect (R151). -/
def Obligations.WriteRegSequence : Prop :=
  (∀ w : Word, w &&& 0xFF800000#32 = 0x90000000#32 →
    decode w = .command (.writeReg (w.extractLsb' 16 7) (w.extractLsb' 0 16)))
  ∧ (∀ (s : State) (r : RegIndex) (v : Value), s.cfg.configured = false →
    exec (.writeReg r v) s = .next { s with responses := s.responses ++ [0x10000000#32] })
  ∧ ∀ (s : State) (r : RegIndex) (v : Value), s.canOpen →
    ∃ t a0 a1 a2 a3, exec (.writeReg r v) s = .next t
      ∧ eventsSince s t
          = startEventList
            ++ (byteEvents (devByte s.cfg.slaveAddr) ++ recvAckEvents a0)
            ++ (byteEvents (regByteW r) ++ recvAckEvents a1)
            ++ (byteEvents (hiByte v) ++ recvAckEvents a2)
            ++ (byteEvents (loByte v) ++ recvAckEvents a3)
            ++ endEventList
      ∧ t = { s with
          shift := 0#8
          bitcnt := 8#4
          seq := .idle
          pins := s.pinsWith ⟨.output, true⟩ ⟨.output, true⟩
          responses := s.responses ++ [0x00000000#32]
          env := t.env
          trace := t.trace }

/-- READ_REG: one transaction that sends the device-address byte and the register-address byte of a read, then takes
two bytes, the first acknowledged and the second not; the response is the two bytes, high byte first, and the bus ends
idle; on an unconfigured block it is a ConfigurationError, without effect (R153). -/
def Obligations.ReadRegSequence : Prop :=
  (∀ w : Word, w &&& 0xFF80FFFF#32 = 0xA0000000#32 → decode w = .command (.readReg (w.extractLsb' 16 7)))
  ∧ (∀ (s : State) (r : RegIndex), s.cfg.configured = false →
    exec (.readReg r) s = .next { s with responses := s.responses ++ [0x10000000#32] })
  ∧ ∀ (s : State) (r : RegIndex), s.canOpen →
    ∃ t a0 a1 hi lo, exec (.readReg r) s = .next t
      ∧ hi.length = 8 ∧ lo.length = 8
      ∧ eventsSince s t
          = startEventList
            ++ (byteEvents (devByte s.cfg.slaveAddr) ++ recvAckEvents a0)
            ++ (byteEvents (regByteR r) ++ recvAckEvents a1)
            ++ (readByteEvents hi ++ bitEvents false)
            ++ (readByteEvents lo ++ bitEvents true)
            ++ endEventList
      ∧ t = { s with
          shift := assembleBits lo
          bitcnt := 8#4
          rxhi := assembleBits hi
          seq := .idle
          pins := s.pinsWith ⟨.output, true⟩ ⟨.output, true⟩
          responses := s.responses ++ [(assembleValue (assembleBits hi) (assembleBits lo)).zeroExtend 32]
          env := t.env
          trace := t.trace }

/-- WRITE_REG is the ten primitive commands issued one after another: same trace, same environment, same final state;
only the responses differ, one against ten (R156). -/
def Obligations.WriteRegIsTenPrimitives : Prop :=
  ∀ (s : State) (r : RegIndex) (v : Value) (ws : List Word), s.canOpen → s.seq = .idle →
    ∃ t u rs,
      Sys2Proof.core.run 1 { s with commands := encode (.writeReg r v) :: ws } = .next t
      ∧ Sys2Proof.core.run 10
          { s with
            commands :=
              [ .start s.cfg.slaveAddr, .writeByte (devByte s.cfg.slaveAddr), .recvAck, .writeByte (regByteW r),
                .recvAck, .writeByte (hiByte v), .recvAck, .writeByte (loByte v), .recvAck, .endTxn ].map encode
              ++ ws } = .next u
      ∧ t.commands = ws
      ∧ rs.length = 10 ∧ u.responses = s.responses ++ rs
      ∧ u = { t with responses := u.responses }

/-- READ_REG is its ten primitive commands issued one after another; its value is the two READ_BYTE values, the first
as the high byte (R153, R156). R156 says that the final states are the same; that `RXHI` differs, which READ_REG writes
and no primitive does, is the model's reading (notes/assumptions/15.md). -/
def Obligations.ReadRegIsTenPrimitives : Prop :=
  ∀ (s : State) (r : RegIndex) (ws : List Word), s.canOpen → s.seq = .idle →
    ∃ (t u : State) (r0 r1 r2 r3 r4 r6 r8 r9 : Word) (hi lo : Byte),
      Sys2Proof.core.run 1 { s with commands := encode (.readReg r) :: ws } = .next t
      ∧ Sys2Proof.core.run 10
          { s with
            commands :=
              [ .start s.cfg.slaveAddr, .writeByte (devByte s.cfg.slaveAddr), .recvAck, .writeByte (regByteR r),
                .recvAck, .readByte, .sendAck, .readByte, .sendNack, .endTxn ].map encode
              ++ ws } = .next u
      ∧ u.responses
          = s.responses ++ [r0, r1, r2, r3, r4, hi.zeroExtend 32, r6, lo.zeroExtend 32, r8, r9]
      ∧ t.responses = s.responses ++ [(assembleValue hi lo).zeroExtend 32]
      ∧ t.commands = ws
      ∧ u = { t with responses := u.responses, rxhi := s.rxhi }

/-- The acknowledgment bits of WRITE_REG reach nothing: in two environments the final states differ in the
environment and the trace only, and the traces only in sampled bits and wire levels (R155). -/
def Obligations.WriteRegIgnoresAcknowledgments : Prop :=
  ∀ (s : State) (e : Env) (r : RegIndex) (v : Value), s.canOpen →
    ∃ t u, exec (.writeReg r v) s = .next t
      ∧ exec (.writeReg r v) { s with env := e } = .next u
      ∧ u = { t with env := u.env, trace := u.trace }
      ∧ (eventsSince s t).map Event.shape = (eventsSince { s with env := e } u).map Event.shape

/-- A missing acknowledgment changes nothing: whatever RECV_ACK samples, the states it leaves differ in the response,
the environment and the trace only (R144, R175). -/
def Obligations.RecvAckBitIsResponseOnly : Prop :=
  ∀ (s : State) (e : Env), s.canTransfer →
    ∃ t u, exec .recvAck s = .next t
      ∧ exec .recvAck { s with env := e } = .next u
      ∧ u = { t with responses := u.responses, env := u.env, trace := u.trace }
      ∧ (eventsSince s t).map Event.shape = (eventsSince { s with env := e } u).map Event.shape

/-! ### Rules of the whole machine -/

/-- A command answers next exactly where R210 gives it a meaning or names the fault. -/
def Obligations.MeaningIffLegalOrder : Prop :=
  ∀ (i : Instr) (s : State),
    (∃ t, exec i s = .next t) ↔ (s.mayRun i ∨ (i.opens = true ∧ s.cfg.configured = false))

/-- Where R210 gives a command no meaning the model refuses it, by the name of the case (the refusals' names are the
model's: notes/assumptions/7.md). -/
def Obligations.NoMeaningIsRefused : Prop :=
  (∀ (s : State) (i : Instr), i.opens = true → s.cfg.configured = true → s.inTxn = true →
    exec i s = .refused .transactionOpen)
  ∧ (∀ (s : State) (i : Instr), i.emits = true → i.opens = false → (s.cfg.configured = false ∨ s.inTxn = false) →
    exec i s = .refused .noTransaction)
  ∧ (∀ (s : State) (a : Addr) (d c : LineId), s.inTxn = true →
    exec (.configure a d c) s = .refused .configureInTransaction)
  ∧ (∀ (s : State) (i : Instr), i.opens = true → s.cfg.configured = true → s.inTxn = false →
    s.cfg.sdaLine = s.cfg.sclLine → exec i s = .refused .sameLine)
  ∧ (∀ (s : State) (i : Instr), i.emits = true → i.opens = false → s.cfg.configured = true → s.inTxn = true →
    s.cfg.sdaLine = s.cfg.sclLine → exec i s = .refused .sameLine)

/-- ConfigurationError, status 1 and value 0, is the answer to exactly the commands that begin a transaction on an
unconfigured block, and nothing but the response happens (R172, R173); every other answer is OK. -/
def Obligations.ConfigurationErrorIff : Prop :=
  ∀ (i : Instr) (s t : State), exec i s = .next t →
    (i.opens = true ∧ s.cfg.configured = false ∧ t = { s with responses := s.responses ++ [0x10000000#32] })
    ∨ (¬(i.opens = true ∧ s.cfg.configured = false)
        ∧ ∃ v : Value, t.responses = s.responses ++ [v.zeroExtend 32])

/-- IllegalCommand: a word that matches no row of the opcode table is raised by the decoder before any other check, in
every state of an idle block; nothing happens but the response, status 2, value 0 (R174). -/
def Obligations.IllegalWordRaises : Prop :=
  ∀ (s : State) (w : Word) (ws : List Word),
    s.seq = .idle → s.commands = w :: ws → (∀ r ∈ opcodeTable, w &&& r.mask ≠ r.pattern) →
      step s = .next { s with commands := ws, responses := s.responses ++ [0x20000000#32] }

/-- A fault is not sticky: what has been responded, and what has been traced, never influences a step (R172). -/
def Obligations.HistoryIsNeverRead : Prop :=
  ∀ (s : State) (rs : List Word) (ps : List TracePoint),
    step { s with responses := rs ++ s.responses, trace := ps ++ s.trace }
      = match step s with
        | .next t => .next { t with responses := rs ++ t.responses, trace := ps ++ t.trace }
        | .fault f => .fault f
        | .refused r => .refused r

/-- A command that answers next gives exactly one response: its status is 0, 1 or 2, its reserved bits are 0, its value
is 0 when the status is not 0 and for every command but READ_REG, READ_BYTE and RECV_ACK (R96). -/
def Obligations.OneResponsePerCommand : Prop :=
  ∀ (i : Instr) (s t : State), exec i s = .next t →
    ∃ w : Word, t.responses = s.responses ++ [w]
      ∧ (w.extractLsb' 28 4).toNat ≤ 2
      ∧ w.extractLsb' 16 12 = 0#12
      ∧ (w.extractLsb' 28 4 ≠ 0#4 → w.extractLsb' 0 16 = 0#16)
      ∧ (i.op ≠ .readReg → i.op ≠ .readByte → i.op ≠ .recvAck → w.extractLsb' 0 16 = 0#16)

/-- The number of events and of `DLY` events of a command depends on its opcode only, and is 0 when it faults
(R220). -/
def Obligations.EventCountsByOpcode : Prop :=
  ∀ (i : Instr) (s t : State), exec i s = .next t →
    ((eventsSince s t).length, (eventsSince s t).countP Event.isDly)
      = if i.opens = true ∧ s.cfg.configured = false then (0, 0)
        else match i.op with
          | .configure => (0, 0)
          | .requestRead => (0, 0)
          | .start => (8, 4)
          | .endTxn => (6, 3)
          | .writeByte => (48, 24)
          | .readByte => (42, 17)
          | .sendAck => (6, 3)
          | .sendNack => (6, 3)
          | .recvAck => (7, 3)
          | .writeReg => (234, 115)
          | .readReg => (220, 101)

/-- The census of the register commands: their events, `DRV`, `REL`, `SMP` and `DLY` events, and, begun with SDA at 1,
36 slots, one START and one STOP condition (R158). -/
def Obligations.RegisterCommandCensus : Prop :=
  ∀ s : State, s.canOpen →
    (∀ (r : RegIndex) (v : Value), ∃ t, exec (.writeReg r v) s = .next t
      ∧ (eventsSince s t).length = 234
      ∧ (eventsSince s t).countP Event.isDrv = 111 ∧ (eventsSince s t).countP Event.isRel = 4
      ∧ (eventsSince s t).countP Event.isSmp = 4 ∧ (eventsSince s t).countP Event.isDly = 115
      ∧ (s.wire .sda = true → (symbolsSince s t).length = 36 + 1 + 1
          ∧ (symbolsSince s t).count .S = 1 ∧ (symbolsSince s t).count .P = 1))
    ∧ ∀ r : RegIndex, ∃ t, exec (.readReg r) s = .next t
      ∧ (eventsSince s t).length = 220
      ∧ (eventsSince s t).countP Event.isDrv = 97 ∧ (eventsSince s t).countP Event.isRel = 4
      ∧ (eventsSince s t).countP Event.isSmp = 18 ∧ (eventsSince s t).countP Event.isDly = 101
      ∧ (s.wire .sda = true → (symbolsSince s t).length = 36 + 1 + 1
          ∧ (symbolsSince s t).count .S = 1 ∧ (symbolsSince s t).count .P = 1)

/-- WRITE_REG lasts at least `115 x T_DELAY_US` microseconds, READ_REG `101 x T_DELAY_US` (R221). -/
def Obligations.MinimumDuration : Prop :=
  ∀ s : State, s.canOpen →
    (∀ (r : RegIndex) (v : Value), ∃ t, exec (.writeReg r v) s = .next t
      ∧ minDurationUs (eventsSince s t) = 115 * Config.delayUs)
    ∧ (∀ r : RegIndex, ∃ t, exec (.readReg r) s = .next t
      ∧ minDurationUs (eventsSince s t) = 101 * Config.delayUs)
    ∧ 0 < Config.delayUs

/-- Exactly one `DLY` follows every `DRV` and every `REL`, and none follows an `SMP` (R55). -/
def Obligations.OneDelayPerTransition : Prop :=
  ∀ (i : Instr) (s t : State), exec i s = .next t → delaysFollowTransitions (eventsSince s t) = true

/-- Only SDA is ever released or sampled, SCL never; a sample is taken while SCL is 1, and its bit is the level the
environment, having observed all the events so far, puts on SDA (R53, R54). -/
def Obligations.OnlySdaReleasedAndSampled : Prop :=
  ∀ (i : Instr) (s t : State), exec i s = .next t →
    ∀ (pre post : List TracePoint) (p : TracePoint), traceSince s t = pre ++ p :: post →
      (∀ l, p.event = .rel l → l = .sda)
      ∧ ∀ l b, p.event = .smp l b →
          l = .sda ∧ p.after.scl = true ∧ b = (s.env.after (pre.map TracePoint.event)).level .sda

/-- Every `DRV` and `REL` of a command is observed by the environment, in the order of its event list, and its events
are appended to the trace (R50). -/
def Obligations.EnvironmentObservesEveryDrive : Prop :=
  ∀ (i : Instr) (s t : State), exec i s = .next t →
    t.env = s.env.after (eventsSince s t) ∧ t.trace = s.trace ++ traceSince s t

/-- The pin state of every line other than the two configured ones is never written (R29). -/
def Obligations.OtherLinesUntouched : Prop :=
  ∀ (i : Instr) (s t : State) (l : LineId), exec i s = .next t →
    l ≠ s.cfg.sdaLine → l ≠ s.cfg.sclLine → t.pin l = s.pin l

/-- The three flags change only as listed: `CONFIGURED` is set by CONFIGURE and never cleared, `IN_TXN` is set by START
and cleared by END, the pending request is written by REQUEST_READ only (R32). -/
def Obligations.FlagsChangeOnlyAsListed : Prop :=
  ∀ (i : Instr) (s t : State), exec i s = .next t →
    (t.cfg.configured = if i.op = .configure then true else s.cfg.configured)
    ∧ (i.op = .start → s.cfg.configured = true → t.inTxn = true)
    ∧ (i.op = .endTxn → t.inTxn = false)
    ∧ (i.op ≠ .start → i.op ≠ .endTxn → t.inTxn = s.inTxn)
    ∧ (i.op ≠ .requestRead → t.pend = s.pend)
    ∧ (i.op = .requestRead → t.pend.valid = true)

/-- Who writes which register: the line numbers CONFIGURE, the slave address CONFIGURE and START, `SHIFT` and `BITCNT`
the byte and register commands, `RXHI` READ_REG (R26, R163). -/
def Obligations.RegisterWriters : Prop :=
  ∀ (i : Instr) (s t : State), exec i s = .next t →
    (i.op ≠ .configure → t.cfg.sdaLine = s.cfg.sdaLine ∧ t.cfg.sclLine = s.cfg.sclLine)
    ∧ (i.op ≠ .configure → i.op ≠ .start → t.cfg.slaveAddr = s.cfg.slaveAddr)
    ∧ (i.op ≠ .writeByte → i.op ≠ .readByte → i.op ≠ .writeReg → i.op ≠ .readReg →
        t.shift = s.shift ∧ t.bitcnt = s.bitcnt)
    ∧ (i.op ≠ .readReg → t.rxhi = s.rxhi)
    ∧ t.commands = s.commands

/-! ### Reset, the step, the sequencer -/

/-- The reset state: the three flags 0, `SEQ` idle, every line an input (R36). -/
def Obligations.ResetState : Prop :=
  State.reset.cfg.configured = false ∧ State.reset.pend.valid = false ∧ State.reset.inTxn = false
    ∧ State.reset.seq = .idle ∧ ∀ l : LineId, (State.reset.pin l).dir = .input

/-- A step of an idle block that is presented a legal word is the command's meaning, the word being taken from the
port. R31 has the sequencer go to `Run(cmd, 0)` and says that "a model that runs each command as one atomic big step
loses nothing": that a step at `Idle` is the whole command is the model's reading (notes/assumptions/4.md), and that
the word is the head of a list its choice (notes/assumptions/5.md). -/
def Obligations.StepRunsDecodedCommand : Prop :=
  ∀ (s : State) (w : Word) (ws : List Word) (i : Instr),
    s.seq = .idle → s.commands = w :: ws → decode w = .command i →
      step s = exec i { s with commands := ws }

/-- An idle block that is presented nothing stays as it is. The model's choice (notes/assumptions/5.md): R192 says only
that the lines hold their state between commands. -/
def Obligations.IdleBlockWaits : Prop :=
  ∀ s : State, s.seq = .idle → s.commands = [] → step s = .next s

/-- The big step loses nothing: taking a command and performing its events one sequencer step at a time, then ending
it, is the same as executing it at once; and what is refused or faults at once is refused or faults when presented
(R31). -/
def Obligations.SequencerRefinesCommand : Prop :=
  ∀ (i : Instr) (s : State), s.seq = .idle →
    (∀ s0, present i s = .next s0 → s0.seq ≠ .idle →
      Sys2Proof.core.run (eventCount (programOf i) + 1) s0 = exec i s)
    ∧ (∀ s0, present i s = .next s0 → s0.seq = .idle → exec i s = .next s0)
    ∧ ∀ r, present i s = .refused r ↔ exec i s = .refused r

/-- At `Run(cmd, k)` with `k` below the length, a sequencer step performs event number `k` of the command's
pseudocode, the first being number 0, and goes to `Run(cmd, k + 1)`; no response is given (R31). The pseudocode is cut
at that event: `pre` is empty or ends in an event and holds `k` of them, `writes` are the register writes that stand
between it and the event, `op` the event's line. That those writes are made in the same step is the model's reading
(notes/assumptions/10.md). -/
def Obligations.SequencerPerformsOneEvent : Prop :=
  ∀ (s : State) (i : Instr) (k : Nat) (b : Bool), s.seq = .run i k b → k < eventCount (programOf i) →
    ∃ (pre writes post : Program) (op : MicroOp) (t : State) (e : Event) (b' : Bool),
      programOf i = pre ++ writes ++ op :: post
      ∧ eventCount pre = k ∧ (∀ o ∈ pre.getLast?, o.isEvent = true)
      ∧ (∀ w ∈ writes, w.isEvent = false)
      ∧ op.eventIn (runProgram writes s) = some e
      ∧ step s = .next t
      ∧ t = op.apply (runProgram writes s)
      ∧ t.seq = .run i (k + 1) b'
      ∧ eventsSince s t = [e]
      ∧ t.responses = s.responses

/-- At `Run(cmd, k)` with `k` the length, a sequencer step emits nothing, gives the response and goes to `Idle`
(R31). -/
def Obligations.SequencerEndsCommand : Prop :=
  ∀ (s : State) (i : Instr) (b : Bool), s.seq = .run i (eventCount (programOf i)) b →
    ∃ t w, step s = .next t ∧ t.seq = .idle ∧ eventsSince s t = [] ∧ t.responses = s.responses ++ [w]

/-- Every step keeps the control invariant: an open transaction implies a configured block (R33) with two different
lines, and a sound sequencer position. -/
def Obligations.StepKeepsControlInvariant : Prop :=
  ∀ s t : State, s.ControlInv → step s = .next t → t.ControlInv

/-- The control invariant and the between-commands invariant hold after reset. -/
def Obligations.ResetMeetsInvariants : Prop := State.reset.ControlInv ∧ State.reset.BetweenCommands

/-- No step from a state with the control invariant ends in a fault of the model: the sequencer never overruns
(R30). -/
def Obligations.NoModelFault : Prop :=
  ∀ s : State, s.ControlInv → ∀ f, step s ≠ .fault f

/-- Every step between commands leaves the machine between commands: the sequencer idle, and the clock line driven low
while a transaction is open (R33, R37, R123). -/
def Obligations.StepKeepsBetweenCommands : Prop :=
  ∀ s t : State, s.BetweenCommands → step s = .next t → t.BetweenCommands

/-! ### Bus conditions, slots and symbols -/

/-- START makes exactly one START condition and no slot, from every state where it may run and in every environment; a
STOP condition comes first exactly where SDA is at 0 and SCL at 1, and SCL is still at 1 after event 0, the drive of SDA
to 1 (R58, R121 item 5; a released SCL is the environment's, which observes that event). The levels are those of the
lines that SDA and SCL stand for at that event (R10, R57): after a CONFIGURE, which itself makes no symbol, they are the
new lines', `u` being the state CONFIGURE leaves as to the wire. -/
def Obligations.StartConditionOnce : Prop :=
  (∀ (s : State) (a : Addr), s.canOpen →
    ∃ t, exec (.start a) s = .next t
      ∧ symbolsSince s t
          = if s.wire .sda = false ∧ s.wire .scl = true ∧ (s.drv .sda true).wire .scl = true then [.P, .S] else [.S])
  ∧ ∀ (s u : State) (a b : Addr) (d c : LineId) (ws : List Word), s.seq = .idle → s.inTxn = false → d ≠ c →
    u = { s with cfg := ⟨b, d, c, true⟩ } →
    ∃ t, Sys2Proof.core.run 2 { s with commands := encode (.configure b d c) :: encode (.start a) :: ws } = .next t
      ∧ symbolsSince s t
          = if u.wire .sda = false ∧ u.wire .scl = true ∧ (u.drv .sda true).wire .scl = true then [.P, .S] else [.S]

/-- END with the clock line driven low makes exactly one STOP condition and nothing else, whatever SDA was (R123). -/
def Obligations.StopConditionOnce : Prop :=
  ∀ s : State, s.canTransfer → s.pin s.cfg.sclLine = ⟨.output, false⟩ →
    ∃ t, exec .endTxn s = .next t ∧ symbolsSince s t = [.P]

/-- With the clock line driven low, the byte and acknowledgment commands make only slots: WRITE_BYTE the byte's eight
bits, SEND_ACK a 0, SEND_NACK a 1, READ_BYTE the bits of the byte it returns, RECV_ACK the bit it returns (R59, R62,
R130 to R142). -/
def Obligations.SlotsOfPrimitives : Prop :=
  ∀ s : State, s.canTransfer → s.pin s.cfg.sclLine = ⟨.output, false⟩ →
    (∀ v : Byte, ∃ t, exec (.writeByte v) s = .next t ∧ symbolsSince s t = byteSymbols v)
    ∧ (∃ t, exec .sendAck s = .next t ∧ symbolsSince s t = [.bit false])
    ∧ (∃ t, exec .sendNack s = .next t ∧ symbolsSince s t = [.bit true])
    ∧ (∃ t, exec .readByte s = .next t ∧ symbolsSince s t = byteSymbols t.shift)
    ∧ ∃ t a, exec .recvAck s = .next t ∧ symbolsSince s t = [.bit a]
        ∧ t.responses = s.responses ++ [if a then 0x00000001#32 else 0x00000000#32]

/-- The bracket law: START, any commands that may stand inside a transaction, END, begun with SDA at 1, give one START
condition, one bit per slot, one STOP condition. R124 says so of environments that do not change SDA while SCL is 1;
that it holds in every environment of the model rests on the model's reading that an environment changes only when it
observes a `DRV` or `REL` (notes/assumptions/13.md). -/
def Obligations.BracketLaw : Prop :=
  ∀ (s : State) (a : Addr) (is : List Instr) (ws : List Word),
    s.canOpen → s.seq = .idle → s.wire .sda = true → (∀ i ∈ is, i.inner = true) →
      ∃ (t : State) (bits : List Bool),
        Sys2Proof.core.run (is.length + 2)
            { s with commands := encode (.start a) :: (is.map encode ++ encode .endTxn :: ws) } = .next t
        ∧ bits.length = (is.map Instr.slots).sum
        ∧ symbolsSince s t = .S :: (bits.map Symbol.bit ++ [.P])

/-- The frames: begun with SDA at 1, WRITE_REG and READ_REG put on the bus a START condition, 36 slots and a STOP
condition, the bytes most significant bit first, READ_REG's own acknowledgment 0 after the first data byte and 1 after
the second, and its two data bytes are its value (R93). -/
def Obligations.RegisterFrames : Prop :=
  ∀ s : State, s.canOpen → s.wire .sda = true →
    (∀ (r : RegIndex) (v : Value), ∃ t a0 a1 a2 a3, exec (.writeReg r v) s = .next t
      ∧ symbolsSince s t
          = [.S] ++ byteSymbols (devByte s.cfg.slaveAddr) ++ [.bit a0] ++ byteSymbols (regByteW r) ++ [.bit a1]
            ++ byteSymbols (hiByte v) ++ [.bit a2] ++ byteSymbols (loByte v) ++ [.bit a3] ++ [.P])
    ∧ ∀ r : RegIndex, ∃ t a0 a1, exec (.readReg r) s = .next t
      ∧ symbolsSince s t
          = [.S] ++ byteSymbols (devByte s.cfg.slaveAddr) ++ [.bit a0] ++ byteSymbols (regByteR r) ++ [.bit a1]
            ++ byteSymbols t.rxhi ++ [.bit false] ++ byteSymbols t.shift ++ [.bit true] ++ [.P]

/-! ### Environments -/

/-- The empty bus: RECV_ACK responds 1, READ_BYTE 0xFF, READ_REG 0xFFFF (R190). -/
def Obligations.EmptyBusReadsOnes : Prop :=
  ∀ s : State, s.env = .noSlave →
    (s.canTransfer → ∃ t, exec .recvAck s = .next t ∧ t.responses = s.responses ++ [0x00000001#32])
    ∧ (s.canTransfer → ∃ t, exec .readByte s = .next t ∧ t.responses = s.responses ++ [0x000000FF#32])
    ∧ ∀ r : RegIndex, s.canOpen → ∃ t, exec (.readReg r) s = .next t ∧ t.responses = s.responses ++ [0x0000FFFF#32]

/-- The reference slave creates no bus condition of its own: an observation that leaves SCL at 1 and is neither a START
nor a STOP condition does not change its output, nor does a rising edge (R189). -/
def Obligations.ReferenceSlaveHoldsItsOutput : Prop :=
  ∀ (e : RSlave) (o : Observation), (e.view o).scl = true →
    (e.scl = true → e.sda = (e.view o).sda) → (e.observe o).out = e.out

/-- The round-trip law: against the reference slave at the configured address, on a bus it sees at rest, WRITE_REG then
READ_REG responds the value written, and the slave's register file has that one register changed (R157). -/
def Obligations.RoundTripAgainstReferenceSlave : Prop :=
  ∀ (s : State) (e : RSlave) (r : RegIndex) (v : Value),
    s.canOpen → s.env = .rslave e → e.sa = s.cfg.slaveAddr → e.sda = true → e.scl = true →
      ∃ t u e1 e2,
        exec (.writeReg r v) s = .next t
        ∧ t.env = .rslave e1 ∧ e1.reg = e.reg.set r.toNat v r.isLt ∧ e1.ph = .idle
        ∧ exec (.readReg r) t = .next u
        ∧ u.responses = s.responses ++ [0x00000000#32, v.zeroExtend 32]
        ∧ u.env = .rslave e2 ∧ e2.reg = e1.reg ∧ e2.ph = .idle
end

