-- ==== Sys2Proof/Laws/State.lean ====
section
/-! SUPPORT. One lemma per field and update of State, each true by definition: what every named operation leaves in
every field, so that no later proof unfolds a record update. -/

namespace Sys2Proof.Machine

open Sys2Proof

variable (s : State)

@[simp] theorem State.setCfg_cfg (a : Addr) (d c : LineId) : (s.setCfg a d c).cfg = ⟨a, d, c, true⟩ := rfl
@[simp] theorem State.setCfg_pend (a : Addr) (d c : LineId) : (s.setCfg a d c).pend = s.pend := rfl
@[simp] theorem State.setCfg_inTxn (a : Addr) (d c : LineId) : (s.setCfg a d c).inTxn = s.inTxn := rfl
@[simp] theorem State.setCfg_shift (a : Addr) (d c : LineId) : (s.setCfg a d c).shift = s.shift := rfl
@[simp] theorem State.setCfg_bitcnt (a : Addr) (d c : LineId) : (s.setCfg a d c).bitcnt = s.bitcnt := rfl
@[simp] theorem State.setCfg_rxhi (a : Addr) (d c : LineId) : (s.setCfg a d c).rxhi = s.rxhi := rfl
@[simp] theorem State.setCfg_seq (a : Addr) (d c : LineId) : (s.setCfg a d c).seq = s.seq := rfl
@[simp] theorem State.setCfg_pins (a : Addr) (d c : LineId) : (s.setCfg a d c).pins = s.pins := rfl
@[simp] theorem State.setCfg_env (a : Addr) (d c : LineId) : (s.setCfg a d c).env = s.env := rfl
@[simp] theorem State.setCfg_commands (a : Addr) (d c : LineId) : (s.setCfg a d c).commands = s.commands := rfl
@[simp] theorem State.setCfg_responses (a : Addr) (d c : LineId) : (s.setCfg a d c).responses = s.responses := rfl
@[simp] theorem State.setCfg_trace (a : Addr) (d c : LineId) : (s.setCfg a d c).trace = s.trace := rfl

@[simp] theorem State.setPend_cfg (a : Addr) (n : Count) : (s.setPend a n).cfg = s.cfg := rfl
@[simp] theorem State.setPend_pend (a : Addr) (n : Count) : (s.setPend a n).pend = ⟨a, n, true⟩ := rfl
@[simp] theorem State.setPend_inTxn (a : Addr) (n : Count) : (s.setPend a n).inTxn = s.inTxn := rfl
@[simp] theorem State.setPend_shift (a : Addr) (n : Count) : (s.setPend a n).shift = s.shift := rfl
@[simp] theorem State.setPend_bitcnt (a : Addr) (n : Count) : (s.setPend a n).bitcnt = s.bitcnt := rfl
@[simp] theorem State.setPend_rxhi (a : Addr) (n : Count) : (s.setPend a n).rxhi = s.rxhi := rfl
@[simp] theorem State.setPend_seq (a : Addr) (n : Count) : (s.setPend a n).seq = s.seq := rfl
@[simp] theorem State.setPend_pins (a : Addr) (n : Count) : (s.setPend a n).pins = s.pins := rfl
@[simp] theorem State.setPend_env (a : Addr) (n : Count) : (s.setPend a n).env = s.env := rfl
@[simp] theorem State.setPend_commands (a : Addr) (n : Count) : (s.setPend a n).commands = s.commands := rfl
@[simp] theorem State.setPend_responses (a : Addr) (n : Count) : (s.setPend a n).responses = s.responses := rfl
@[simp] theorem State.setPend_trace (a : Addr) (n : Count) : (s.setPend a n).trace = s.trace := rfl

@[simp] theorem State.setSlaveAddr_cfg (a : Addr) : (s.setSlaveAddr a).cfg = { s.cfg with slaveAddr := a } := rfl
@[simp] theorem State.setSlaveAddr_pend (a : Addr) : (s.setSlaveAddr a).pend = s.pend := rfl
@[simp] theorem State.setSlaveAddr_inTxn (a : Addr) : (s.setSlaveAddr a).inTxn = s.inTxn := rfl
@[simp] theorem State.setSlaveAddr_shift (a : Addr) : (s.setSlaveAddr a).shift = s.shift := rfl
@[simp] theorem State.setSlaveAddr_bitcnt (a : Addr) : (s.setSlaveAddr a).bitcnt = s.bitcnt := rfl
@[simp] theorem State.setSlaveAddr_rxhi (a : Addr) : (s.setSlaveAddr a).rxhi = s.rxhi := rfl
@[simp] theorem State.setSlaveAddr_seq (a : Addr) : (s.setSlaveAddr a).seq = s.seq := rfl
@[simp] theorem State.setSlaveAddr_pins (a : Addr) : (s.setSlaveAddr a).pins = s.pins := rfl
@[simp] theorem State.setSlaveAddr_env (a : Addr) : (s.setSlaveAddr a).env = s.env := rfl
@[simp] theorem State.setSlaveAddr_commands (a : Addr) : (s.setSlaveAddr a).commands = s.commands := rfl
@[simp] theorem State.setSlaveAddr_responses (a : Addr) : (s.setSlaveAddr a).responses = s.responses := rfl
@[simp] theorem State.setSlaveAddr_trace (a : Addr) : (s.setSlaveAddr a).trace = s.trace := rfl

@[simp] theorem State.setInTxn_cfg (b : Bool) : (s.setInTxn b).cfg = s.cfg := rfl
@[simp] theorem State.setInTxn_pend (b : Bool) : (s.setInTxn b).pend = s.pend := rfl
@[simp] theorem State.setInTxn_inTxn (b : Bool) : (s.setInTxn b).inTxn = b := rfl
@[simp] theorem State.setInTxn_shift (b : Bool) : (s.setInTxn b).shift = s.shift := rfl
@[simp] theorem State.setInTxn_bitcnt (b : Bool) : (s.setInTxn b).bitcnt = s.bitcnt := rfl
@[simp] theorem State.setInTxn_rxhi (b : Bool) : (s.setInTxn b).rxhi = s.rxhi := rfl
@[simp] theorem State.setInTxn_seq (b : Bool) : (s.setInTxn b).seq = s.seq := rfl
@[simp] theorem State.setInTxn_pins (b : Bool) : (s.setInTxn b).pins = s.pins := rfl
@[simp] theorem State.setInTxn_env (b : Bool) : (s.setInTxn b).env = s.env := rfl
@[simp] theorem State.setInTxn_commands (b : Bool) : (s.setInTxn b).commands = s.commands := rfl
@[simp] theorem State.setInTxn_responses (b : Bool) : (s.setInTxn b).responses = s.responses := rfl
@[simp] theorem State.setInTxn_trace (b : Bool) : (s.setInTxn b).trace = s.trace := rfl

@[simp] theorem State.setPin_cfg (l : LineId) (p : Pin) : (s.setPin l p).cfg = s.cfg := rfl
@[simp] theorem State.setPin_pend (l : LineId) (p : Pin) : (s.setPin l p).pend = s.pend := rfl
@[simp] theorem State.setPin_inTxn (l : LineId) (p : Pin) : (s.setPin l p).inTxn = s.inTxn := rfl
@[simp] theorem State.setPin_shift (l : LineId) (p : Pin) : (s.setPin l p).shift = s.shift := rfl
@[simp] theorem State.setPin_bitcnt (l : LineId) (p : Pin) : (s.setPin l p).bitcnt = s.bitcnt := rfl
@[simp] theorem State.setPin_rxhi (l : LineId) (p : Pin) : (s.setPin l p).rxhi = s.rxhi := rfl
@[simp] theorem State.setPin_seq (l : LineId) (p : Pin) : (s.setPin l p).seq = s.seq := rfl
@[simp] theorem State.setPin_pins (l : LineId) (p : Pin) : (s.setPin l p).pins = s.pins.set l.toNat p l.isLt := rfl
@[simp] theorem State.setPin_env (l : LineId) (p : Pin) : (s.setPin l p).env = s.env := rfl
@[simp] theorem State.setPin_commands (l : LineId) (p : Pin) : (s.setPin l p).commands = s.commands := rfl
@[simp] theorem State.setPin_responses (l : LineId) (p : Pin) : (s.setPin l p).responses = s.responses := rfl
@[simp] theorem State.setPin_trace (l : LineId) (p : Pin) : (s.setPin l p).trace = s.trace := rfl

@[simp] theorem State.tell_cfg (l : Line) (d : Drive) : (s.tell l d).cfg = s.cfg := rfl
@[simp] theorem State.tell_pend (l : Line) (d : Drive) : (s.tell l d).pend = s.pend := rfl
@[simp] theorem State.tell_inTxn (l : Line) (d : Drive) : (s.tell l d).inTxn = s.inTxn := rfl
@[simp] theorem State.tell_shift (l : Line) (d : Drive) : (s.tell l d).shift = s.shift := rfl
@[simp] theorem State.tell_bitcnt (l : Line) (d : Drive) : (s.tell l d).bitcnt = s.bitcnt := rfl
@[simp] theorem State.tell_rxhi (l : Line) (d : Drive) : (s.tell l d).rxhi = s.rxhi := rfl
@[simp] theorem State.tell_seq (l : Line) (d : Drive) : (s.tell l d).seq = s.seq := rfl
@[simp] theorem State.tell_pins (l : Line) (d : Drive) : (s.tell l d).pins = s.pins := rfl
@[simp] theorem State.tell_env (l : Line) (d : Drive) : (s.tell l d).env = s.env.observe ⟨l, d⟩ := rfl
@[simp] theorem State.tell_commands (l : Line) (d : Drive) : (s.tell l d).commands = s.commands := rfl
@[simp] theorem State.tell_responses (l : Line) (d : Drive) : (s.tell l d).responses = s.responses := rfl
@[simp] theorem State.tell_trace (l : Line) (d : Drive) : (s.tell l d).trace = s.trace := rfl

@[simp] theorem State.record_cfg (b : Levels) (e : Event) : (s.record b e).cfg = s.cfg := rfl
@[simp] theorem State.record_pend (b : Levels) (e : Event) : (s.record b e).pend = s.pend := rfl
@[simp] theorem State.record_inTxn (b : Levels) (e : Event) : (s.record b e).inTxn = s.inTxn := rfl
@[simp] theorem State.record_shift (b : Levels) (e : Event) : (s.record b e).shift = s.shift := rfl
@[simp] theorem State.record_bitcnt (b : Levels) (e : Event) : (s.record b e).bitcnt = s.bitcnt := rfl
@[simp] theorem State.record_rxhi (b : Levels) (e : Event) : (s.record b e).rxhi = s.rxhi := rfl
@[simp] theorem State.record_seq (b : Levels) (e : Event) : (s.record b e).seq = s.seq.tick := rfl
@[simp] theorem State.record_pins (b : Levels) (e : Event) : (s.record b e).pins = s.pins := rfl
@[simp] theorem State.record_env (b : Levels) (e : Event) : (s.record b e).env = s.env := rfl
@[simp] theorem State.record_commands (b : Levels) (e : Event) : (s.record b e).commands = s.commands := rfl
@[simp] theorem State.record_responses (b : Levels) (e : Event) : (s.record b e).responses = s.responses := rfl
@[simp] theorem State.record_trace (b : Levels) (e : Event) :
    (s.record b e).trace = s.trace ++ [⟨e, b, s.levels⟩] := rfl

@[simp] theorem State.drv_cfg (l : Line) (v : Bool) : (s.drv l v).cfg = s.cfg := rfl
@[simp] theorem State.drv_pend (l : Line) (v : Bool) : (s.drv l v).pend = s.pend := rfl
@[simp] theorem State.drv_inTxn (l : Line) (v : Bool) : (s.drv l v).inTxn = s.inTxn := rfl
@[simp] theorem State.drv_shift (l : Line) (v : Bool) : (s.drv l v).shift = s.shift := rfl
@[simp] theorem State.drv_bitcnt (l : Line) (v : Bool) : (s.drv l v).bitcnt = s.bitcnt := rfl
@[simp] theorem State.drv_rxhi (l : Line) (v : Bool) : (s.drv l v).rxhi = s.rxhi := rfl
@[simp] theorem State.drv_seq (l : Line) (v : Bool) : (s.drv l v).seq = s.seq.tick := rfl
@[simp] theorem State.drv_pins (l : Line) (v : Bool) :
    (s.drv l v).pins = s.pins.set (s.lineId l).toNat ⟨.output, v⟩ (s.lineId l).isLt := rfl
@[simp] theorem State.drv_env (l : Line) (v : Bool) : (s.drv l v).env = s.env.observe ⟨l, .driven v⟩ := rfl
@[simp] theorem State.drv_commands (l : Line) (v : Bool) : (s.drv l v).commands = s.commands := rfl
@[simp] theorem State.drv_responses (l : Line) (v : Bool) : (s.drv l v).responses = s.responses := rfl
@[simp] theorem State.drv_trace (l : Line) (v : Bool) :
    (s.drv l v).trace = s.trace ++ [⟨.drv l v, s.levels, (s.drv l v).levels⟩] := rfl

@[simp] theorem State.rel_cfg (l : Line) : (s.rel l).cfg = s.cfg := rfl
@[simp] theorem State.rel_pend (l : Line) : (s.rel l).pend = s.pend := rfl
@[simp] theorem State.rel_inTxn (l : Line) : (s.rel l).inTxn = s.inTxn := rfl
@[simp] theorem State.rel_shift (l : Line) : (s.rel l).shift = s.shift := rfl
@[simp] theorem State.rel_bitcnt (l : Line) : (s.rel l).bitcnt = s.bitcnt := rfl
@[simp] theorem State.rel_rxhi (l : Line) : (s.rel l).rxhi = s.rxhi := rfl
@[simp] theorem State.rel_seq (l : Line) : (s.rel l).seq = s.seq.tick := rfl
@[simp] theorem State.rel_pins (l : Line) :
    (s.rel l).pins = s.pins.set (s.lineId l).toNat ⟨.input, (s.pin (s.lineId l)).out⟩ (s.lineId l).isLt := rfl
@[simp] theorem State.rel_env (l : Line) : (s.rel l).env = s.env.observe ⟨l, .released⟩ := rfl
@[simp] theorem State.rel_commands (l : Line) : (s.rel l).commands = s.commands := rfl
@[simp] theorem State.rel_responses (l : Line) : (s.rel l).responses = s.responses := rfl
@[simp] theorem State.rel_trace (l : Line) :
    (s.rel l).trace = s.trace ++ [⟨.rel l, s.levels, (s.rel l).levels⟩] := rfl

@[simp] theorem State.smp_cfg (l : Line) : (s.smp l).cfg = s.cfg := rfl
@[simp] theorem State.smp_pend (l : Line) : (s.smp l).pend = s.pend := rfl
@[simp] theorem State.smp_inTxn (l : Line) : (s.smp l).inTxn = s.inTxn := rfl
@[simp] theorem State.smp_shift (l : Line) : (s.smp l).shift = s.shift := rfl
@[simp] theorem State.smp_bitcnt (l : Line) : (s.smp l).bitcnt = s.bitcnt := rfl
@[simp] theorem State.smp_rxhi (l : Line) : (s.smp l).rxhi = s.rxhi := rfl
@[simp] theorem State.smp_seq (l : Line) : (s.smp l).seq = (s.seq.deliver (s.wire l)).tick := rfl
@[simp] theorem State.smp_pins (l : Line) : (s.smp l).pins = s.pins := rfl
@[simp] theorem State.smp_env (l : Line) : (s.smp l).env = s.env := rfl
@[simp] theorem State.smp_commands (l : Line) : (s.smp l).commands = s.commands := rfl
@[simp] theorem State.smp_responses (l : Line) : (s.smp l).responses = s.responses := rfl
@[simp] theorem State.smp_trace (l : Line) :
    (s.smp l).trace = s.trace ++ [⟨.smp l (s.wire l), s.levels, s.levels⟩] := rfl

@[simp] theorem State.dly_cfg : (s.dly).cfg = s.cfg := rfl
@[simp] theorem State.dly_pend : (s.dly).pend = s.pend := rfl
@[simp] theorem State.dly_inTxn : (s.dly).inTxn = s.inTxn := rfl
@[simp] theorem State.dly_shift : (s.dly).shift = s.shift := rfl
@[simp] theorem State.dly_bitcnt : (s.dly).bitcnt = s.bitcnt := rfl
@[simp] theorem State.dly_rxhi : (s.dly).rxhi = s.rxhi := rfl
@[simp] theorem State.dly_seq : (s.dly).seq = s.seq.tick := rfl
@[simp] theorem State.dly_pins : (s.dly).pins = s.pins := rfl
@[simp] theorem State.dly_env : (s.dly).env = s.env := rfl
@[simp] theorem State.dly_commands : (s.dly).commands = s.commands := rfl
@[simp] theorem State.dly_responses : (s.dly).responses = s.responses := rfl
@[simp] theorem State.dly_trace : (s.dly).trace = s.trace ++ [⟨.dly, s.levels, s.levels⟩] := rfl

@[simp] theorem State.loadShift_cfg (v : Byte) : (s.loadShift v).cfg = s.cfg := rfl
@[simp] theorem State.loadShift_pend (v : Byte) : (s.loadShift v).pend = s.pend := rfl
@[simp] theorem State.loadShift_inTxn (v : Byte) : (s.loadShift v).inTxn = s.inTxn := rfl
@[simp] theorem State.loadShift_shift (v : Byte) : (s.loadShift v).shift = v := rfl
@[simp] theorem State.loadShift_bitcnt (v : Byte) : (s.loadShift v).bitcnt = 0#4 := rfl
@[simp] theorem State.loadShift_rxhi (v : Byte) : (s.loadShift v).rxhi = s.rxhi := rfl
@[simp] theorem State.loadShift_seq (v : Byte) : (s.loadShift v).seq = s.seq := rfl
@[simp] theorem State.loadShift_pins (v : Byte) : (s.loadShift v).pins = s.pins := rfl
@[simp] theorem State.loadShift_env (v : Byte) : (s.loadShift v).env = s.env := rfl
@[simp] theorem State.loadShift_commands (v : Byte) : (s.loadShift v).commands = s.commands := rfl
@[simp] theorem State.loadShift_responses (v : Byte) : (s.loadShift v).responses = s.responses := rfl
@[simp] theorem State.loadShift_trace (v : Byte) : (s.loadShift v).trace = s.trace := rfl

@[simp] theorem State.shiftOut_cfg : (s.shiftOut).cfg = s.cfg := rfl
@[simp] theorem State.shiftOut_pend : (s.shiftOut).pend = s.pend := rfl
@[simp] theorem State.shiftOut_inTxn : (s.shiftOut).inTxn = s.inTxn := rfl
@[simp] theorem State.shiftOut_shift : (s.shiftOut).shift = shiftOutByte s.shift := rfl
@[simp] theorem State.shiftOut_bitcnt : (s.shiftOut).bitcnt = s.bitcnt + 1#4 := rfl
@[simp] theorem State.shiftOut_rxhi : (s.shiftOut).rxhi = s.rxhi := rfl
@[simp] theorem State.shiftOut_seq : (s.shiftOut).seq = s.seq := rfl
@[simp] theorem State.shiftOut_pins : (s.shiftOut).pins = s.pins := rfl
@[simp] theorem State.shiftOut_env : (s.shiftOut).env = s.env := rfl
@[simp] theorem State.shiftOut_commands : (s.shiftOut).commands = s.commands := rfl
@[simp] theorem State.shiftOut_responses : (s.shiftOut).responses = s.responses := rfl
@[simp] theorem State.shiftOut_trace : (s.shiftOut).trace = s.trace := rfl

@[simp] theorem State.shiftIn_cfg : (s.shiftIn).cfg = s.cfg := rfl
@[simp] theorem State.shiftIn_pend : (s.shiftIn).pend = s.pend := rfl
@[simp] theorem State.shiftIn_inTxn : (s.shiftIn).inTxn = s.inTxn := rfl
@[simp] theorem State.shiftIn_shift : (s.shiftIn).shift = shiftInByte s.shift s.seq.bit := rfl
@[simp] theorem State.shiftIn_bitcnt : (s.shiftIn).bitcnt = s.bitcnt + 1#4 := rfl
@[simp] theorem State.shiftIn_rxhi : (s.shiftIn).rxhi = s.rxhi := rfl
@[simp] theorem State.shiftIn_seq : (s.shiftIn).seq = s.seq := rfl
@[simp] theorem State.shiftIn_pins : (s.shiftIn).pins = s.pins := rfl
@[simp] theorem State.shiftIn_env : (s.shiftIn).env = s.env := rfl
@[simp] theorem State.shiftIn_commands : (s.shiftIn).commands = s.commands := rfl
@[simp] theorem State.shiftIn_responses : (s.shiftIn).responses = s.responses := rfl
@[simp] theorem State.shiftIn_trace : (s.shiftIn).trace = s.trace := rfl

@[simp] theorem State.latchHi_cfg : (s.latchHi).cfg = s.cfg := rfl
@[simp] theorem State.latchHi_pend : (s.latchHi).pend = s.pend := rfl
@[simp] theorem State.latchHi_inTxn : (s.latchHi).inTxn = s.inTxn := rfl
@[simp] theorem State.latchHi_shift : (s.latchHi).shift = s.shift := rfl
@[simp] theorem State.latchHi_bitcnt : (s.latchHi).bitcnt = s.bitcnt := rfl
@[simp] theorem State.latchHi_rxhi : (s.latchHi).rxhi = s.shift := rfl
@[simp] theorem State.latchHi_seq : (s.latchHi).seq = s.seq := rfl
@[simp] theorem State.latchHi_pins : (s.latchHi).pins = s.pins := rfl
@[simp] theorem State.latchHi_env : (s.latchHi).env = s.env := rfl
@[simp] theorem State.latchHi_commands : (s.latchHi).commands = s.commands := rfl
@[simp] theorem State.latchHi_responses : (s.latchHi).responses = s.responses := rfl
@[simp] theorem State.latchHi_trace : (s.latchHi).trace = s.trace := rfl

@[simp] theorem State.respond_cfg (st : Status) (v : Value) : (s.respond st v).cfg = s.cfg := rfl
@[simp] theorem State.respond_pend (st : Status) (v : Value) : (s.respond st v).pend = s.pend := rfl
@[simp] theorem State.respond_inTxn (st : Status) (v : Value) : (s.respond st v).inTxn = s.inTxn := rfl
@[simp] theorem State.respond_shift (st : Status) (v : Value) : (s.respond st v).shift = s.shift := rfl
@[simp] theorem State.respond_bitcnt (st : Status) (v : Value) : (s.respond st v).bitcnt = s.bitcnt := rfl
@[simp] theorem State.respond_rxhi (st : Status) (v : Value) : (s.respond st v).rxhi = s.rxhi := rfl
@[simp] theorem State.respond_seq (st : Status) (v : Value) : (s.respond st v).seq = .idle := rfl
@[simp] theorem State.respond_pins (st : Status) (v : Value) : (s.respond st v).pins = s.pins := rfl
@[simp] theorem State.respond_env (st : Status) (v : Value) : (s.respond st v).env = s.env := rfl
@[simp] theorem State.respond_commands (st : Status) (v : Value) : (s.respond st v).commands = s.commands := rfl
@[simp] theorem State.respond_responses (st : Status) (v : Value) :
    (s.respond st v).responses = s.responses ++ [responseWord st v] := rfl
@[simp] theorem State.respond_trace (st : Status) (v : Value) : (s.respond st v).trace = s.trace := rfl

@[simp] theorem State.raise_cfg (st : Status) : (s.raise st).cfg = s.cfg := rfl
@[simp] theorem State.raise_pend (st : Status) : (s.raise st).pend = s.pend := rfl
@[simp] theorem State.raise_inTxn (st : Status) : (s.raise st).inTxn = s.inTxn := rfl
@[simp] theorem State.raise_shift (st : Status) : (s.raise st).shift = s.shift := rfl
@[simp] theorem State.raise_bitcnt (st : Status) : (s.raise st).bitcnt = s.bitcnt := rfl
@[simp] theorem State.raise_rxhi (st : Status) : (s.raise st).rxhi = s.rxhi := rfl
@[simp] theorem State.raise_seq (st : Status) : (s.raise st).seq = s.seq := rfl
@[simp] theorem State.raise_pins (st : Status) : (s.raise st).pins = s.pins := rfl
@[simp] theorem State.raise_env (st : Status) : (s.raise st).env = s.env := rfl
@[simp] theorem State.raise_commands (st : Status) : (s.raise st).commands = s.commands := rfl
@[simp] theorem State.raise_responses (st : Status) :
    (s.raise st).responses = s.responses ++ [responseWord st 0#16] := rfl
@[simp] theorem State.raise_trace (st : Status) : (s.raise st).trace = s.trace := rfl

@[simp] theorem State.accept_cfg (i : Instr) : (s.accept i).cfg = s.cfg := rfl
@[simp] theorem State.accept_pend (i : Instr) : (s.accept i).pend = s.pend := rfl
@[simp] theorem State.accept_inTxn (i : Instr) : (s.accept i).inTxn = s.inTxn := rfl
@[simp] theorem State.accept_shift (i : Instr) : (s.accept i).shift = s.shift := rfl
@[simp] theorem State.accept_bitcnt (i : Instr) : (s.accept i).bitcnt = s.bitcnt := rfl
@[simp] theorem State.accept_rxhi (i : Instr) : (s.accept i).rxhi = s.rxhi := rfl
@[simp] theorem State.accept_seq (i : Instr) : (s.accept i).seq = .run i 0 false := rfl
@[simp] theorem State.accept_pins (i : Instr) : (s.accept i).pins = s.pins := rfl
@[simp] theorem State.accept_env (i : Instr) : (s.accept i).env = s.env := rfl
@[simp] theorem State.accept_commands (i : Instr) : (s.accept i).commands = s.commands := rfl
@[simp] theorem State.accept_responses (i : Instr) : (s.accept i).responses = s.responses := rfl
@[simp] theorem State.accept_trace (i : Instr) : (s.accept i).trace = s.trace := rfl

@[simp] theorem State.presentNext_cfg (w : Word) : (s.presentNext w).cfg = s.cfg := rfl
@[simp] theorem State.presentNext_pend (w : Word) : (s.presentNext w).pend = s.pend := rfl
@[simp] theorem State.presentNext_inTxn (w : Word) : (s.presentNext w).inTxn = s.inTxn := rfl
@[simp] theorem State.presentNext_shift (w : Word) : (s.presentNext w).shift = s.shift := rfl
@[simp] theorem State.presentNext_bitcnt (w : Word) : (s.presentNext w).bitcnt = s.bitcnt := rfl
@[simp] theorem State.presentNext_rxhi (w : Word) : (s.presentNext w).rxhi = s.rxhi := rfl
@[simp] theorem State.presentNext_seq (w : Word) : (s.presentNext w).seq = .idle := rfl
@[simp] theorem State.presentNext_pins (w : Word) : (s.presentNext w).pins = s.pins := rfl
@[simp] theorem State.presentNext_env (w : Word) : (s.presentNext w).env = s.env := rfl
@[simp] theorem State.presentNext_commands (w : Word) : (s.presentNext w).commands = w :: s.commands := rfl
@[simp] theorem State.presentNext_responses (w : Word) : (s.presentNext w).responses = s.responses := rfl
@[simp] theorem State.presentNext_trace (w : Word) : (s.presentNext w).trace = s.trace := rfl

end Sys2Proof.Machine
end

