-- ==== Sys2Proof/Laws/Ops.lean ====
section
/-! SUPPORT. What the shared operations do, said once: the pin port, the wire, the running of a program, and the
frame of a command. Later proofs cite these and do not unfold the operations. -/

namespace Sys2Proof.Machine

open Sys2Proof

section Pins

variable (s : State)

@[simp] theorem State.lineId_sda : s.lineId .sda = s.cfg.sdaLine := rfl
@[simp] theorem State.lineId_scl : s.lineId .scl = s.cfg.sclLine := rfl

theorem State.lineId_of_cfg {s t : State} (h : t.cfg = s.cfg) (l : Line) : t.lineId l = s.lineId l := by
  cases l <;> simp [h]

theorem State.pin_of_pins {s t : State} (h : t.pins = s.pins) (l : LineId) : t.pin l = s.pin l := by
  simp [State.pin, h]

/-- The wire level depends on the lines, the pin state and the environment only (R57). -/
theorem State.wire_congr {s t : State} (hc : t.cfg = s.cfg) (hp : t.pins = s.pins) (he : t.env = s.env) (l : Line) :
    t.wire l = s.wire l := by
  simp [State.wire, State.lineId_of_cfg hc, State.pin_of_pins hp, he]

@[simp] theorem State.pin_setPin_same (l : LineId) (p : Pin) : (s.setPin l p).pin l = p := by
  simp [State.pin]

theorem State.pin_setPin_ne {l m : LineId} (h : m ≠ l) (p : Pin) : (s.setPin l p).pin m = s.pin m := by
  have : l.toNat ≠ m.toNat := fun e => h (BitVec.eq_of_toNat_eq e.symm)
  simp [State.pin, Vector.getElem_set_ne _ _ this]

@[simp] theorem State.pin_drv_same (l : Line) (v : Bool) : (s.drv l v).pin (s.lineId l) = ⟨.output, v⟩ :=
  State.pin_setPin_same s (s.lineId l) ⟨.output, v⟩

theorem State.pin_drv_ne {l : Line} {m : LineId} (h : m ≠ s.lineId l) (v : Bool) : (s.drv l v).pin m = s.pin m :=
  State.pin_setPin_ne s h ⟨.output, v⟩

@[simp] theorem State.pin_rel_same (l : Line) :
    (s.rel l).pin (s.lineId l) = ⟨.input, (s.pin (s.lineId l)).out⟩ :=
  State.pin_setPin_same s (s.lineId l) _

theorem State.pin_rel_ne {l : Line} {m : LineId} (h : m ≠ s.lineId l) : (s.rel l).pin m = s.pin m :=
  State.pin_setPin_ne s h _

/-- Every pin after `DRV(L, v)` (R52). -/
theorem State.pin_drv (l : Line) (v : Bool) (m : LineId) :
    (s.drv l v).pin m = if m = s.lineId l then ⟨.output, v⟩ else s.pin m := by
  split
  · next h => rw [h, State.pin_drv_same]
  · next h => exact s.pin_drv_ne h v

theorem State.pin_dly (m : LineId) : s.dly.pin m = s.pin m := rfl

theorem State.wire_of_output {s : State} {l : Line} {v : Bool} (h : s.pin (s.lineId l) = ⟨.output, v⟩) :
    s.wire l = v := by
  simp [State.wire, h]

theorem State.wire_of_input {s : State} {l : Line} (h : (s.pin (s.lineId l)).dir = .input) :
    s.wire l = s.env.level l := by
  simp [State.wire, h]

/-- From the end of `DRV(L, v)` the wire level of `L` is `v` (R52). -/
@[simp] theorem State.wire_drv_same (l : Line) (v : Bool) : (s.drv l v).wire l = v :=
  State.wire_of_output (s.pin_drv_same l v)

/-- From the end of `REL(L)` the wire level of `L` is the environment's (R53). -/
@[simp] theorem State.wire_rel_same (l : Line) : (s.rel l).wire l = (s.env.observe ⟨l, .released⟩).level l :=
  State.wire_of_input (by simp [State.lineId_of_cfg (s.rel_cfg l)])

@[simp] theorem State.wire_smp (l m : Line) : (s.smp l).wire m = s.wire m := State.wire_congr rfl rfl rfl m
@[simp] theorem State.wire_dly (m : Line) : s.dly.wire m = s.wire m := State.wire_congr rfl rfl rfl m

@[simp] theorem State.levels_sda : s.levels.sda = s.wire .sda := rfl
@[simp] theorem State.levels_scl : s.levels.scl = s.wire .scl := rfl

end Pins

section Programs

@[simp] theorem runProgram_nil (s : State) : runProgram [] s = s := rfl

@[simp] theorem runProgram_cons (op : MicroOp) (p : Program) (s : State) :
    runProgram (op :: p) s = runProgram p (op.apply s) := rfl

theorem runProgram_append (p q : Program) (s : State) :
    runProgram (p ++ q) s = runProgram q (runProgram p s) := by
  simp [runProgram]

/-- A program given line by line runs line by line. -/
theorem runProgram_flatten (ps : List Program) (s : State) :
    runProgram ps.flatten s = ps.foldl (fun s p => runProgram p s) s := by
  induction ps generalizing s with
  | nil => rfl
  | cons p ps ih => rw [List.flatten_cons, runProgram_append, ih, List.foldl_cons]

@[simp] theorem eventCount_append (p q : Program) : eventCount (p ++ q) = eventCount p + eventCount q := by
  simp [eventCount]

/-- No micro-operation touches the ports, and only CONFIGURE's writes the line numbers and `CONFIGURED`. -/
theorem MicroOp.apply_ports (op : MicroOp) (s : State) :
    (op.apply s).commands = s.commands ∧ (op.apply s).responses = s.responses := by
  cases op <;> exact ⟨rfl, rfl⟩

theorem runProgram_ports (p : Program) (s : State) :
    (runProgram p s).commands = s.commands ∧ (runProgram p s).responses = s.responses := by
  induction p generalizing s with
  | nil => exact ⟨rfl, rfl⟩
  | cons op p ih =>
    obtain ⟨h1, h2⟩ := ih (op.apply s)
    obtain ⟨g1, g2⟩ := op.apply_ports s
    exact ⟨h1.trans g1, h2.trans g2⟩

/-- What a micro-operation adds to the trace, to the environment and to the sequencer: an event operation one event,
every other one nothing (R31, R50). -/
theorem MicroOp.apply_trace (op : MicroOp) (s : State) :
    ∃ ps, (op.apply s).trace = s.trace ++ ps
      ∧ (op.apply s).env = s.env.after (ps.map TracePoint.event)
      ∧ ps.length = (if op.isEvent then 1 else 0) := by
  cases op <;> first
    | exact ⟨[], by simp [MicroOp.apply], by simp [MicroOp.apply, Env.after, observed], rfl⟩
    | exact ⟨[_], rfl, by simp [MicroOp.apply, Env.after, observed], rfl⟩

theorem observed_append (es fs : List Event) : observed (es ++ fs) = observed es ++ observed fs := by
  induction es with
  | nil => rfl
  | cons e es ih => cases e <;> simp [observed, ih]

theorem Env.after_append (e : Env) (es fs : List Event) : e.after (es ++ fs) = (e.after es).after fs := by
  simp [Env.after, observed_append]

/-- A program appends its events to the trace, as many as its event list is long, and the environment observes them
in that order (R50). -/
theorem runProgram_trace (p : Program) (s : State) :
    ∃ ps, (runProgram p s).trace = s.trace ++ ps
      ∧ (runProgram p s).env = s.env.after (ps.map TracePoint.event)
      ∧ ps.length = eventCount p := by
  induction p generalizing s with
  | nil => exact ⟨[], by simp, rfl, rfl⟩
  | cons op p ih =>
    obtain ⟨ps, h1, h2, h3⟩ := op.apply_trace s
    obtain ⟨qs, g1, g2, g3⟩ := ih (op.apply s)
    refine ⟨ps ++ qs, ?_, ?_, ?_⟩
    · simp [g1, h1]
    · simp [g2, h2, Env.after_append]
    · simp only [List.length_append, h3, g3, eventCount, List.countP_cons]
      split <;> omega

/-- A micro-operation other than CONFIGURE's leaves the lines and `CONFIGURED` alone, and every pin but those of the
two lines (R29). -/
theorem MicroOp.apply_lines {op : MicroOp} (h : ∀ a d c, op ≠ .setCfg a d c) (s : State) :
    (op.apply s).cfg.sdaLine = s.cfg.sdaLine ∧ (op.apply s).cfg.sclLine = s.cfg.sclLine
      ∧ (op.apply s).cfg.configured = s.cfg.configured
      ∧ ∀ m, m ≠ s.cfg.sdaLine → m ≠ s.cfg.sclLine → (op.apply s).pin m = s.pin m := by
  cases op with
  | setCfg a d c => exact absurd rfl (h a d c)
  | drv l v =>
    refine ⟨rfl, rfl, rfl, fun m h1 h2 => s.pin_drv_ne ?_ v⟩
    cases l <;> assumption
  | drvShift => exact ⟨rfl, rfl, rfl, fun m h1 _ => s.pin_drv_ne h1 _⟩
  | rel l =>
    refine ⟨rfl, rfl, rfl, fun m h1 h2 => s.pin_rel_ne ?_⟩
    cases l <;> assumption
  | smp l => exact ⟨rfl, rfl, rfl, fun _ _ _ => rfl⟩
  | dly => exact ⟨rfl, rfl, rfl, fun _ _ _ => rfl⟩
  | setPend a n => exact ⟨rfl, rfl, rfl, fun _ _ _ => rfl⟩
  | setSlaveAddr a => exact ⟨rfl, rfl, rfl, fun _ _ _ => rfl⟩
  | keepSlaveAddr => exact ⟨rfl, rfl, rfl, fun _ _ _ => rfl⟩
  | setInTxn b => exact ⟨rfl, rfl, rfl, fun _ _ _ => rfl⟩
  | loadShift v => exact ⟨rfl, rfl, rfl, fun _ _ _ => rfl⟩
  | loadDevByte => exact ⟨rfl, rfl, rfl, fun _ _ _ => rfl⟩
  | shiftOut => exact ⟨rfl, rfl, rfl, fun _ _ _ => rfl⟩
  | shiftIn => exact ⟨rfl, rfl, rfl, fun _ _ _ => rfl⟩
  | latchHi => exact ⟨rfl, rfl, rfl, fun _ _ _ => rfl⟩

theorem runProgram_lines {p : Program} (h : ∀ op ∈ p, ∀ a d c, op ≠ .setCfg a d c) (s : State) :
    (runProgram p s).cfg.sdaLine = s.cfg.sdaLine ∧ (runProgram p s).cfg.sclLine = s.cfg.sclLine
      ∧ (runProgram p s).cfg.configured = s.cfg.configured
      ∧ ∀ m, m ≠ s.cfg.sdaLine → m ≠ s.cfg.sclLine → (runProgram p s).pin m = s.pin m := by
  induction p generalizing s with
  | nil => exact ⟨rfl, rfl, rfl, fun _ _ _ => rfl⟩
  | cons op p ih =>
    obtain ⟨h1, h2, h3, h4⟩ := MicroOp.apply_lines (h op (by simp)) s
    obtain ⟨g1, g2, g3, g4⟩ := ih (fun o ho => h o (by simp [ho])) (op.apply s)
    refine ⟨g1.trans h1, g2.trans h2, g3.trans h3, fun m hs hc => ?_⟩
    exact (g4 m (by rwa [h1]) (by rwa [h2])).trans (h4 m hs hc)

end Programs

section Traces

/-- What a longer trace adds is its tail. -/
theorem traceSince_of_append {s t : State} {ps : List TracePoint} (h : t.trace = s.trace ++ ps) :
    traceSince s t = ps := by
  simp [traceSince, h]

theorem eventsSince_of_append {s t : State} {ps : List TracePoint} (h : t.trace = s.trace ++ ps) :
    eventsSince s t = ps.map TracePoint.event := by
  rw [eventsSince, traceSince_of_append h]

/-- The symbols of a trace in two parts: the second begins with the slot the first leaves under way. -/
theorem symbolsFrom_append (m : Option Bool) (ps qs : List TracePoint) :
    symbolsFrom m (ps ++ qs) = symbolsFrom m ps ++ symbolsFrom (ps.foldl TracePoint.nextSlot m) qs := by
  induction ps generalizing m with
  | nil => rfl
  | cons p ps ih => simp [symbolsFrom, ih]

end Traces

end Sys2Proof.Machine
end

