-- ==== Sys2Proof/Laws/Exec.lean ====
section
/-! SUPPORT. What a command can do, said once: the conditions of R210 inverted, the equation of each meaning in
terms of its program, and the three ways a step can go. -/

namespace Sys2Proof.Machine

open Sys2Proof

/-- `opening` answers next in two cases: ConfigurationError, or the command goes (R173, R210). -/
theorem opening_next {s t : State} {go : State → Result} (h : opening s go = .next t) :
    (s.cfg.configured = false ∧ t = s.raise .configurationError) ∨ (s.canOpen ∧ go s = .next t) := by
  unfold opening at h
  split at h
  · next hc => exact .inl ⟨hc, by simpa using h.symm⟩
  · next hc =>
    split at h
    · cases h
    · next ht =>
      split at h
      · cases h
      · next hl => exact .inr ⟨⟨by simpa using hc, by simpa using ht, by simpa [State.sameLines] using hl⟩, h⟩

/-- `within` answers next when the command goes (R210). -/
theorem within_next {s t : State} {go : State → Result} (h : within s go = .next t) :
    s.canTransfer ∧ go s = .next t := by
  unfold within at h
  split at h
  · cases h
  · next ht =>
    split at h
    · cases h
    · next hl =>
      have ht' : s.cfg.configured = true ∧ s.inTxn = true := by simpa [State.transactionOpen] using ht
      exact ⟨⟨ht'.1, ht'.2, by simpa [State.sameLines] using hl⟩, h⟩

/-- `between` answers next when the command goes (R210). -/
theorem between_next {s t : State} {go : State → Result} (h : between s go = .next t) :
    s.inTxn = false ∧ go s = .next t := by
  unfold between at h
  split at h
  · cases h
  · next ht => exact ⟨by simpa using ht, h⟩

theorem opening_of_canOpen {s : State} (h : s.canOpen) (go : State → Result) : opening s go = go s := by
  obtain ⟨h1, h2, h3⟩ := h
  simp [opening, h1, h2, State.sameLines, h3]

theorem within_of_canTransfer {s : State} (h : s.canTransfer) (go : State → Result) : within s go = go s := by
  obtain ⟨h1, h2, h3⟩ := h
  simp [within, State.transactionOpen, h1, h2, State.sameLines, h3]

theorem between_of_closed {s : State} (h : s.inTxn = false) (go : State → Result) : between s go = go s := by
  simp [between, h]

/-- The state a command that runs leaves (R31). -/
def State.completed (s : State) (i : Instr) : State :=
  (runProgram (programOf i) (s.accept i)).respond .ok (valueOf i (runProgram (programOf i) (s.accept i)))

/-- A command that may run completes, with its program performed and its response given (R31, R210). -/
theorem exec_of_mayRun {i : Instr} {s : State} (h : s.mayRun i) : exec i s = .next (s.completed i) := by
  cases i <;> first
    | exact (opening_of_canOpen h _).trans rfl
    | exact (within_of_canTransfer h _).trans rfl
    | exact (between_of_closed h _).trans rfl
    | rfl

/-- An unconfigured block answers a command that begins a transaction with ConfigurationError (R173). -/
theorem exec_of_unconfigured {i : Instr} {s : State} (hi : i.opens = true) (h : s.cfg.configured = false) :
    exec i s = .next (s.raise .configurationError) := by
  cases i with
  | start a => exact if_pos h
  | writeReg r v => exact if_pos h
  | readReg r => exact if_pos h
  | _ => simp [Instr.opens] at hi

/-- All a command can do when it answers next (R31, R172, R210). -/
theorem exec_next {i : Instr} {s t : State} (h : exec i s = .next t) :
    (i.opens = true ∧ s.cfg.configured = false ∧ t = s.raise .configurationError)
      ∨ (s.mayRun i ∧ t = s.completed i) := by
  have hm : (i.opens = true ∧ s.cfg.configured = false ∧ t = s.raise .configurationError) ∨ s.mayRun i := by
    cases i with
    | configure a d c => exact .inr (between_next h).1
    | requestRead a n => exact .inr trivial
    | start a => exact (opening_next h).imp (fun g => ⟨rfl, g⟩) (fun g => g.1)
    | writeReg r v => exact (opening_next h).imp (fun g => ⟨rfl, g⟩) (fun g => g.1)
    | readReg r => exact (opening_next h).imp (fun g => ⟨rfl, g⟩) (fun g => g.1)
    | endTxn => exact .inr (within_next h).1
    | sendAck => exact .inr (within_next h).1
    | sendNack => exact .inr (within_next h).1
    | recvAck => exact .inr (within_next h).1
    | writeByte v => exact .inr (within_next h).1
    | readByte => exact .inr (within_next h).1
  exact hm.imp id fun hr => ⟨hr, Host.Outcome.next.inj (h.symm.trans (exec_of_mayRun hr))⟩

/-- No command ends in a fault of the model. -/
theorem exec_ne_fault (i : Instr) (s : State) (f : Fault) : exec i s ≠ .fault f := by
  cases i <;>
    simp only [exec, execConfigure, execStart, execEndTxn, execSendAck, execSendNack, execRecvAck, execWriteByte,
      execReadByte, execWriteReg, execReadReg, execRequestRead, between, opening, within, carryOut] <;>
    (repeat' split) <;> simp

/-- A command leaves the command port's input alone, appends to the trace, and ends with an idle sequencer when it
began with one. -/
theorem exec_next_ports {i : Instr} {s t : State} (hs : s.seq = .idle) (h : exec i s = .next t) :
    t.commands = s.commands ∧ t.seq = .idle ∧ ∃ ps, t.trace = s.trace ++ ps := by
  obtain ⟨-, -, rfl⟩ | ⟨-, rfl⟩ := exec_next h
  · exact ⟨rfl, hs, [], by simp⟩
  · obtain ⟨ps, h1, -, -⟩ := runProgram_trace (programOf i) (s.accept i)
    exact ⟨(runProgram_ports (programOf i) (s.accept i)).1, rfl, ps, h1⟩

/-- A step at `Idle` is what the command port gives (R31). -/
theorem step_idle {s : State} (h : s.seq = .idle) : step s = takeCommand s := by
  simp [step, h]

/-- A step at `Run(cmd, k)` is the sequencer's (R31). -/
theorem step_run {s : State} {i : Instr} {k : Nat} {b : Bool} (h : s.seq = .run i k b) :
    step s = sequencerStep i k s := by
  simp [step, h]

/-- All a step can do when it answers next: nothing to take, an illegal word, a command, one event of the command in
flight, or its end (R31, R174). -/
theorem step_next {s t : State} (h : step s = .next t) :
    (s.seq = .idle ∧ s.commands = [] ∧ t = s)
      ∨ (∃ w ws why, s.seq = .idle ∧ s.commands = w :: ws ∧ decode w = .illegal why
          ∧ t = ({ s with commands := ws } : State).raise .illegalCommand)
      ∨ (∃ w ws i, s.seq = .idle ∧ s.commands = w :: ws ∧ decode w = .command i
          ∧ exec i { s with commands := ws } = .next t)
      ∨ (∃ i k b, s.seq = .run i k b ∧ k < eventCount (programOf i)
          ∧ t = runProgram (throughEvent (afterEvents k (programOf i))) s)
      ∨ (∃ i b, s.seq = .run i (eventCount (programOf i)) b
          ∧ t = (runProgram (afterEvents (eventCount (programOf i)) (programOf i)) s).respond .ok
              (valueOf i (runProgram (afterEvents (eventCount (programOf i)) (programOf i)) s))) := by
  obtain hq | ⟨i, k, b, hq⟩ : s.seq = .idle ∨ ∃ i k b, s.seq = .run i k b := by cases s.seq <;> simp
  · rw [step_idle hq, takeCommand] at h
    split at h
    · next hc => cases h; exact .inl ⟨hq, hc, rfl⟩
    · next w ws hc =>
      rw [takeWord] at h
      split at h
      · next i hd => exact .inr (.inr (.inl ⟨w, ws, i, hq, hc, hd, h⟩))
      · next why hd => cases h; exact .inr (.inl ⟨w, ws, why, hq, hc, hd, rfl⟩)
  · rw [step_run hq, sequencerStep] at h
    dsimp only at h
    split at h
    · next hk => cases h; exact .inr (.inr (.inr (.inl ⟨i, k, b, hq, hk, rfl⟩)))
    · split at h
      · next hk => subst hk; cases h; exact .inr (.inr (.inr (.inr ⟨i, b, hq, rfl⟩)))
      · cases h

end Sys2Proof.Machine
end

