-- ==== Sys2Proof/Laws/Programs.lean ====
section
/-! SUPPORT. What each program does, said once: the events it emits, the symbols they are on a bus whose clock line
is driven low, and the state it leaves, sequencer position, environment and trace aside. Programs are put together by
`Ran.trans`; nothing here unfolds more than one slot. -/

namespace Sys2Proof.Machine

open Sys2Proof

section PinsWith

variable (s : State)

theorem lineId_toNat_ne {l m : LineId} (h : l ≠ m) : l.toNat ≠ m.toNat :=
  fun e => h (BitVec.eq_of_toNat_eq e)

/-- Writing both configured pins again forgets what was written before. -/
theorem State.pinsWith_again {s t : State} (hc : t.cfg.sdaLine = s.cfg.sdaLine) (hl : t.cfg.sclLine = s.cfg.sclLine)
    (hne : s.cfg.sdaLine ≠ s.cfg.sclLine) {p q : Pin} (hp : t.pins = s.pinsWith p q) (p' q' : Pin) :
    t.pinsWith p' q' = s.pinsWith p' q' := by
  have hn := lineId_toNat_ne hne
  simp only [State.pinsWith, hc, hl, hp]
  ext i hi
  all_goals
    simp only [Vector.getElem_set]
    (repeat' split) <;> simp_all

theorem State.pin_sda_of_pinsWith {s t : State} (hc : t.cfg.sdaLine = s.cfg.sdaLine)
    (hne : s.cfg.sdaLine ≠ s.cfg.sclLine) {p q : Pin} (hp : t.pins = s.pinsWith p q) :
    t.pin t.cfg.sdaLine = p := by
  have hn := lineId_toNat_ne hne
  simp only [State.pin, hc, hp, State.pinsWith]
  rw [Vector.getElem_set_ne _ _ hn.symm, Vector.getElem_set_self]

theorem State.pin_scl_of_pinsWith {s t : State} (hl : t.cfg.sclLine = s.cfg.sclLine)
    {p q : Pin} (hp : t.pins = s.pinsWith p q) : t.pin t.cfg.sclLine = q := by
  simp only [State.pin, hl, hp, State.pinsWith]
  rw [Vector.getElem_set_self]

/-- Both configured pins written with what they hold: nothing changes. -/
theorem State.pinsWith_self (hne : s.cfg.sdaLine ≠ s.cfg.sclLine) :
    s.pinsWith (s.pin s.cfg.sdaLine) (s.pin s.cfg.sclLine) = s.pins := by
  have hn := lineId_toNat_ne hne
  ext i hi
  all_goals
    simp only [State.pinsWith, State.pin, Vector.getElem_set]
    split
    · next h => subst h; rfl
    · split
      · next h => subst h; rfl
      · rfl

end PinsWith

/-- The clock line is driven low, as every command inside a transaction finds it and leaves it (R123). -/
abbrev State.clockLow (s : State) : Prop := s.pin s.cfg.sclLine = ⟨.output, false⟩

theorem State.wire_scl_of_clockLow {s : State} (h : s.clockLow) : s.wire .scl = false := State.wire_of_output h

/-- What a stretch of events is to a harness: begun with no slot under way it is these symbols, and none is under way
at its end. -/
structure Slots (ps : List TracePoint) (syms : List Symbol) : Prop where
  symbols : symbolsFrom none ps = syms
  ends : ps.foldl TracePoint.nextSlot none = none

theorem Slots.nil : Slots [] [] := ⟨rfl, rfl⟩

theorem Slots.append {ps qs : List TracePoint} {ss zs : List Symbol} (h : Slots ps ss) (g : Slots qs zs) :
    Slots (ps ++ qs) (ss ++ zs) where
  symbols := by rw [symbolsFrom_append, h.symbols, h.ends, g.symbols]
  ends := by rw [List.foldl_append, h.ends, g.ends]

/-- The state without sequencer position, environment and trace. -/
@[ext]
structure Registers where
  cfg : Cfg
  pend : Pend
  inTxn : Bool
  shift : Byte
  bitcnt : BitVec 4
  rxhi : Byte
  pins : Vector Pin 256
  commands : List Word
  responses : List Word

def State.registers (s : State) : Registers :=
  ⟨s.cfg, s.pend, s.inTxn, s.shift, s.bitcnt, s.rxhi, s.pins, s.commands, s.responses⟩

/-- From `s` to `t` the events `es` were emitted, which from a low clock line are the symbols `syms` and end with a
low clock line; the environment observed the events, and `g` is what became of the registers. -/
structure Ran (s : State) (es : List Event) (syms : List Symbol) (g : Registers) (t : State) : Prop where
  registers : t.registers = g
  env : t.env = s.env.after es
  trace : ∃ ps : List TracePoint, t.trace = s.trace ++ ps ∧ ps.map TracePoint.event = es
    ∧ (s.clockLow → Slots ps syms)
  clock : s.clockLow → t.clockLow

/-- Runs put together. -/
theorem Ran.trans {s t r : State} {es fs : List Event} {ss zs : List Symbol} {g g' : Registers}
    (h : Ran s es ss g t) (k : Ran t fs zs g' r) : Ran s (es ++ fs) (ss ++ zs) g' r where
  registers := k.registers
  env := by rw [k.env, h.env, Env.after_append]
  trace := by
    obtain ⟨ps, h1, h2, h3⟩ := h.trace
    obtain ⟨qs, g1, g2, g3⟩ := k.trace
    exact ⟨ps ++ qs, by rw [g1, h1, List.append_assoc], by rw [List.map_append, h2, g2],
      fun hl => (h3 hl).append (g3 (h.clock hl))⟩
  clock hl := k.clock (h.clock hl)

theorem Ran.cfg {s t : State} {es ss g} (h : Ran s es ss g t) : t.cfg = g.cfg := congrArg Registers.cfg h.registers
theorem Ran.pins {s t : State} {es ss g} (h : Ran s es ss g t) : t.pins = g.pins :=
  congrArg Registers.pins h.registers
theorem Ran.shift {s t : State} {es ss g} (h : Ran s es ss g t) : t.shift = g.shift :=
  congrArg Registers.shift h.registers
theorem Ran.bitcnt {s t : State} {es ss g} (h : Ran s es ss g t) : t.bitcnt = g.bitcnt :=
  congrArg Registers.bitcnt h.registers
theorem Ran.rxhi {s t : State} {es ss g} (h : Ran s es ss g t) : t.rxhi = g.rxhi :=
  congrArg Registers.rxhi h.registers

theorem State.wire_scl_drv_sda {s : State} (hne : s.cfg.sdaLine ≠ s.cfg.sclLine) (hl : s.clockLow) (v : Bool) :
    (s.drv .sda v).wire .scl = false :=
  State.wire_of_output ((s.pin_drv_ne hne.symm v).trans hl)

theorem State.wire_scl_rel_sda {s : State} (hne : s.cfg.sdaLine ≠ s.cfg.sclLine) (hl : s.clockLow) :
    (s.rel .sda).wire .scl = false :=
  State.wire_of_output ((s.pin_rel_ne hne.symm).trans hl)

theorem State.wire_sda_drv_scl {s : State} (hne : s.cfg.sdaLine ≠ s.cfg.sclLine) {b : Bool}
    (hd : s.pin s.cfg.sdaLine = ⟨.output, b⟩) (v : Bool) : (s.drv .scl v).wire .sda = b :=
  State.wire_of_output ((s.pin_drv_ne hne v).trans hd)

/-- A slot in which SI2CM drives SDA at `b` (R130, R140, R141). -/
theorem driveSlot_ran {s : State} (hne : s.cfg.sdaLine ≠ s.cfg.sclLine) (b : Bool) :
    Ran s (bitEvents b) [.bit b] { s.registers with pins := s.pinsWith ⟨.output, b⟩ ⟨.output, false⟩ }
      (runProgram [.drv .sda b, .dly, .drv .scl true, .dly, .drv .scl false, .dly] s) where
  registers := by
    ext1 <;> simp [State.registers, MicroOp.apply, State.pinsWith]
  env := by simp [MicroOp.apply, Env.after, observed, bitEvents, pulseEvents]
  trace := by
    refine ⟨_, by simp only [runProgram_cons, runProgram_nil, MicroOp.apply, State.dly_trace, State.drv_trace, List.append_assoc]; rfl, rfl, fun hl => ?_⟩
    have h1 := State.wire_scl_drv_sda hne hl b
    have h2 : ((s.drv .sda b).dly.drv .scl true).wire .sda = b :=
      State.wire_sda_drv_scl (s := (s.drv .sda b).dly) hne (s.pin_drv_same .sda b) true
    have h3 : (((s.drv .sda b).dly.drv .scl true).dly.drv .scl false).wire .sda = b :=
      State.wire_sda_drv_scl (s := ((s.drv .sda b).dly.drv .scl true).dly) hne
        ((State.pin_drv_ne (s.drv .sda b).dly (l := .scl) hne true).trans (s.pin_drv_same .sda b)) false
    have h0 := State.wire_scl_of_clockLow hl
    constructor <;> cases b <;>
      simp [symbolsFrom, TracePoint.symbol, TracePoint.nextSlot, TracePoint.condition, TracePoint.rises, TracePoint.falls,
        h0, h1, h2, h3]
  clock _ := State.pin_drv_same _ .scl false


/-! ### The sequencer in flight -/

@[simp] theorem Seq.bit_tick (q : Seq) : q.tick.bit = q.bit := by cases q <;> rfl
@[simp] theorem Seq.tick_ne_idle (q : Seq) : q.tick ≠ .idle ↔ q ≠ .idle := by cases q <;> simp [Seq.tick]
@[simp] theorem Seq.deliver_ne_idle (b : Bool) (q : Seq) : q.deliver b ≠ .idle ↔ q ≠ .idle := by
  cases q <;> simp [Seq.deliver]

theorem Seq.bit_deliver {q : Seq} (h : q ≠ .idle) (b : Bool) : (q.deliver b).bit = b := by
  cases q with
  | idle => exact absurd rfl h
  | run i k c => rfl

/-- A program that runs to its end has moved the sequencer by the length of its event list (R31). -/
theorem MicroOp.apply_seq {s : State} {i : Instr} {k : Nat} {b : Bool} (h : s.seq = .run i k b) (op : MicroOp) :
    ∃ c, (op.apply s).seq = .run i (if op.isEvent then k + 1 else k) c := by
  cases op <;> exact ⟨_, by simp [MicroOp.apply, MicroOp.isEvent, h, Seq.tick]; rfl⟩

theorem runProgram_seq {s : State} {i : Instr} {k : Nat} {b : Bool} (h : s.seq = .run i k b) (p : Program) :
    ∃ c, (runProgram p s).seq = .run i (k + eventCount p) c := by
  induction p generalizing s k b with
  | nil => exact ⟨b, h⟩
  | cons op p ih =>
    obtain ⟨c, hc⟩ := op.apply_seq h
    obtain ⟨d, hd⟩ := ih hc
    refine ⟨d, hd.trans ?_⟩
    simp only [eventCount, List.countP_cons]
    cases op.isEvent
    · simp
    · simp; omega

theorem runProgram_ne_idle {s : State} (h : s.seq ≠ .idle) (p : Program) : (runProgram p s).seq ≠ .idle := by
  obtain ⟨i, k, b, hq⟩ : ∃ i k b, s.seq = .run i k b := by
    cases hq : s.seq with
    | idle => exact absurd hq h
    | run i k b => exact ⟨i, k, b, rfl⟩
  obtain ⟨c, hc⟩ := runProgram_seq hq p
  simp [hc]

/-! ### Slots in which SI2CM samples -/

/-- The level SDA will have at the next rising edge, when SI2CM has released it (R56). -/
def Env.nextBit (e : Env) : Bool := (e.observe ⟨.scl, .driven true⟩).level .sda

/-- The environment after one clock pulse. -/
def Env.afterPulse (e : Env) : Env := (e.observe ⟨.scl, .driven true⟩).observe ⟨.scl, .driven false⟩

/-- SDA is released. -/
abbrev State.sdaReleased (s : State) : Prop := (s.pin s.cfg.sdaLine).dir = .input

/-- A slot in which SI2CM samples SDA, released: the bit is the environment's level after the rising edge, in the
slot, in the sample and in the command in flight (R54, R132, R142). -/
theorem sampleSlot_ran {s : State} (hne : s.cfg.sdaLine ≠ s.cfg.sclLine) (hin : s.sdaReleased)
    (hq : s.seq ≠ .idle) :
    Ran s (sampleEvents s.env.nextBit) [.bit s.env.nextBit]
        { s.registers with pins := s.pins.set s.cfg.sclLine.toNat ⟨.output, false⟩ s.cfg.sclLine.isLt }
        (runProgram [.drv .scl true, .dly, .smp .sda, .drv .scl false, .dly] s)
      ∧ (runProgram [.drv .scl true, .dly, .smp .sda, .drv .scl false, .dly] s).seq.bit = s.env.nextBit
      ∧ (runProgram [.drv .scl true, .dly, .smp .sda, .drv .scl false, .dly] s).env = s.env.afterPulse := by
  have hb : (s.drv .scl true).dly.wire .sda = s.env.nextBit :=
    State.wire_of_input (s := (s.drv .scl true).dly)
      ((congrArg Pin.dir (s.pin_drv_ne (l := .scl) hne true)).trans hin)
  have hb' : (s.drv .scl true).wire .sda = s.env.nextBit := hb
  refine ⟨⟨?_, ?_, ?_, ?_⟩, ?_, rfl⟩
  · ext1 <;> simp [State.registers, MicroOp.apply]
  · simp [MicroOp.apply, Env.after, observed, sampleEvents]
  · refine ⟨_, by simp only [runProgram_cons, runProgram_nil, MicroOp.apply, State.dly_trace, State.drv_trace,
      State.smp_trace, List.append_assoc]; rfl, ?_, fun hl => ?_⟩
    · simp only [List.map, List.cons_append, List.nil_append, hb, sampleEvents]
    · have h0 := State.wire_scl_of_clockLow hl
      constructor <;> cases hn : s.env.nextBit <;>
        simp [symbolsFrom, TracePoint.symbol, TracePoint.nextSlot, TracePoint.condition, TracePoint.rises, TracePoint.falls,
          h0, hb', hn]
  · exact fun _ => State.pin_drv_same _ .scl false
  · simp only [runProgram_cons, runProgram_nil, MicroOp.apply, State.dly_seq, State.drv_seq, State.smp_seq,
      Seq.bit_tick, hb]
    exact Seq.bit_deliver (by simpa using hq) _


/-! ### Bytes -/

/-- The next `n` bits of the byte shifter, and the one at SDA after `n + 1` of them (R130). -/
def outBits : Nat → Byte → List Bool
  | 0, _ => []
  | n + 1, x => shiftTop x :: outBits n (shiftOutByte x)

def lastOut : Nat → Byte → Bool
  | 0, x => shiftTop x
  | n + 1, x => lastOut n (shiftOutByte x)

/-- The next `n` bits the environment will put on a released SDA (R56). -/
def Env.bits : Nat → Env → List Bool
  | 0, _ => []
  | n + 1, e => e.nextBit :: e.afterPulse.bits n

def Env.afterPulses : Nat → Env → Env
  | 0, e => e
  | n + 1, e => e.afterPulse.afterPulses n

@[simp] theorem Env.length_bits (n : Nat) (e : Env) : (e.bits n).length = n := by
  induction n generalizing e with
  | zero => rfl
  | succ n ih => simp [Env.bits, ih]

theorem outBits_eight : ∀ v : Byte, outBits 8 v = bitsMsbFirst v := by decide +kernel
theorem lastOut_seven : ∀ v : Byte, lastOut 7 v = v.getLsbD 0 := by decide +kernel
theorem shiftOut_eight : ∀ v : Byte, (shiftOutByte^[8]) v = 0#8 := by decide +kernel

theorem writeBit_ran {s : State} (hne : s.cfg.sdaLine ≠ s.cfg.sclLine) :
    Ran s (bitEvents (shiftTop s.shift)) [.bit (shiftTop s.shift)]
      { s.registers with
        pins := s.pinsWith ⟨.output, shiftTop s.shift⟩ ⟨.output, false⟩
        shift := shiftOutByte s.shift
        bitcnt := s.bitcnt + 1#4 }
      (runProgram writeBit s) := by
  have h := driveSlot_ran hne (shiftTop s.shift)
  have e : runProgram writeBit s
      = (runProgram [.drv .sda (shiftTop s.shift), .dly, .drv .scl true, .dly, .drv .scl false, .dly] s).shiftOut :=
    rfl
  rw [e]
  exact ⟨congrArg (fun g : Registers => { g with shift := shiftOutByte g.shift, bitcnt := g.bitcnt + 1#4 })
    h.registers, h.env, h.trace, h.clock⟩

/-- `n + 1` slots of the byte shifter (R130). -/
theorem writeBits_ran (n : Nat) {s : State} (hne : s.cfg.sdaLine ≠ s.cfg.sclLine) :
    Ran s ((outBits (n + 1) s.shift).flatMap bitEvents) ((outBits (n + 1) s.shift).map .bit)
      { s.registers with
        pins := s.pinsWith ⟨.output, lastOut n s.shift⟩ ⟨.output, false⟩
        shift := (shiftOutByte^[n + 1]) s.shift
        bitcnt := s.bitcnt + BitVec.ofNat 4 (n + 1) }
      (runProgram (List.replicate (n + 1) writeBit).flatten s) := by
  induction n generalizing s with
  | zero =>
    simpa [outBits, lastOut] using writeBit_ran hne
  | succ n ih =>
    have h1 := writeBit_ran hne
    rw [List.replicate_succ, List.flatten_cons, runProgram_append]
    generalize ht : runProgram writeBit s = t at h1
    have hc : t.cfg = s.cfg := h1.cfg
    have h2 := ih (s := t) (by rwa [hc])
    rw [h1.registers, h1.shift, h1.bitcnt, State.pinsWith_again (t := t) (s := s) (by rw [hc]) (by rw [hc]) hne h1.pins]
      at h2
    have h3 := h1.trans h2
    have e : s.bitcnt + 1#4 + BitVec.ofNat 4 (n + 1) = s.bitcnt + BitVec.ofNat 4 (n + 1 + 1) := by
      rw [BitVec.add_assoc]
      congr 1
      exact BitVec.eq_of_toNat_eq (by simp; omega)
    rw [← e]
    exact h3

/-- A byte from the shifter: what WRITE_BYTE does once `SHIFT` holds it (R130). -/
theorem eightWrites_ran {s : State} (hne : s.cfg.sdaLine ≠ s.cfg.sclLine) (hz : s.bitcnt = 0#4) :
    Ran s (byteEvents s.shift) (byteSymbols s.shift)
      { s.registers with
        pins := s.pinsWith ⟨.output, s.shift.getLsbD 0⟩ ⟨.output, false⟩
        shift := 0#8
        bitcnt := 8#4 }
      (runProgram (eightTimes writeBit) s) := by
  have h := writeBits_ran 7 hne
  rw [outBits_eight, lastOut_seven, shiftOut_eight, hz] at h
  exact h

/-- WRITE_BYTE's program (R130). -/
theorem writeByte_ran {s : State} (hne : s.cfg.sdaLine ≠ s.cfg.sclLine) (v : Byte) :
    Ran s (byteEvents v) (byteSymbols v)
      { s.registers with
        pins := s.pinsWith ⟨.output, v.getLsbD 0⟩ ⟨.output, false⟩
        shift := 0#8
        bitcnt := 8#4 }
      (runProgram (writeByteProgram v) s) := by
  have h := eightWrites_ran (s := s.loadShift v) hne rfl
  rw [writeByteProgram, runProgram_cons]
  change Ran s _ _ _ (runProgram (eightTimes writeBit) (s.loadShift v))
  generalize runProgram (eightTimes writeBit) (s.loadShift v) = t at h ⊢
  exact ⟨h.registers, h.env, h.trace, h.clock⟩

/-- The device-address byte's program (R90, R151, R153). -/
theorem writeDevByte_ran {s : State} (hne : s.cfg.sdaLine ≠ s.cfg.sclLine) :
    Ran s (byteEvents (devByte s.cfg.slaveAddr)) (byteSymbols (devByte s.cfg.slaveAddr))
      { s.registers with
        pins := s.pinsWith ⟨.output, (devByte s.cfg.slaveAddr).getLsbD 0⟩ ⟨.output, false⟩
        shift := 0#8
        bitcnt := 8#4 }
      (runProgram writeDevByteProgram s) := by
  have h := writeByte_ran hne (devByte s.cfg.slaveAddr)
  rw [writeByteProgram, runProgram_cons] at h
  rw [writeDevByteProgram, runProgram_cons]
  exact h

theorem readBit_ran {s : State} (hne : s.cfg.sdaLine ≠ s.cfg.sclLine) (hin : s.sdaReleased) (hq : s.seq ≠ .idle) :
    Ran s (sampleEvents s.env.nextBit) [.bit s.env.nextBit]
        { s.registers with
          pins := s.pins.set s.cfg.sclLine.toNat ⟨.output, false⟩ s.cfg.sclLine.isLt
          shift := shiftInByte s.shift s.env.nextBit
          bitcnt := s.bitcnt + 1#4 }
        (runProgram readBit s)
      ∧ (runProgram readBit s).env = s.env.afterPulse := by
  obtain ⟨h, hbit, he⟩ := sampleSlot_ran hne hin hq
  have e : runProgram readBit s
      = (runProgram [.drv .scl true, .dly, .smp .sda, .drv .scl false, .dly] s).shiftIn := rfl
  rw [e]
  refine ⟨⟨?_, h.env, h.trace, h.clock⟩, he⟩
  rw [← hbit]
  exact congrArg (fun g : Registers => { g with
    shift := shiftInByte g.shift (runProgram [.drv .scl true, .dly, .smp .sda, .drv .scl false, .dly] s).seq.bit
    bitcnt := g.bitcnt + 1#4 }) h.registers

theorem set_scl_idem {s : State} (q : Pin) :
    (s.pins.set s.cfg.sclLine.toNat q s.cfg.sclLine.isLt).set s.cfg.sclLine.toNat q s.cfg.sclLine.isLt
      = s.pins.set s.cfg.sclLine.toNat q s.cfg.sclLine.isLt := by
  ext i hi
  all_goals
    simp only [Vector.getElem_set]
    split <;> rfl

/-- `n + 1` slots of READ_BYTE: the bits are the environment's next (R132). -/
theorem readBits_ran (n : Nat) {s : State} (hne : s.cfg.sdaLine ≠ s.cfg.sclLine) (hin : s.sdaReleased)
    (hq : s.seq ≠ .idle) :
    Ran s ((s.env.bits (n + 1)).flatMap sampleEvents) ((s.env.bits (n + 1)).map .bit)
        { s.registers with
          pins := s.pins.set s.cfg.sclLine.toNat ⟨.output, false⟩ s.cfg.sclLine.isLt
          shift := (s.env.bits (n + 1)).foldl shiftInByte s.shift
          bitcnt := s.bitcnt + BitVec.ofNat 4 (n + 1) }
        (runProgram (List.replicate (n + 1) readBit).flatten s)
      ∧ (runProgram (List.replicate (n + 1) readBit).flatten s).env = s.env.afterPulses (n + 1) := by
  induction n generalizing s with
  | zero => simpa [Env.bits, Env.afterPulses] using readBit_ran hne hin hq
  | succ n ih =>
    obtain ⟨h1, he1⟩ := readBit_ran hne hin hq
    have hq1 := runProgram_ne_idle hq readBit
    rw [List.replicate_succ, List.flatten_cons, runProgram_append]
    generalize ht : runProgram readBit s = t at h1 he1 hq1
    have hc : t.cfg = s.cfg := h1.cfg
    have hp : t.pin t.cfg.sdaLine = s.pin s.cfg.sdaLine := by
      rw [hc]
      simp only [State.pin, h1.pins]
      exact Vector.getElem_set_ne _ _ (lineId_toNat_ne hne.symm)
    obtain ⟨h2, he2⟩ := ih (s := t) (by rwa [hc]) (by rw [State.sdaReleased, hp]; exact hin) hq1
    have hpp : t.pins.set t.cfg.sclLine.toNat ⟨.output, false⟩ t.cfg.sclLine.isLt
        = s.pins.set s.cfg.sclLine.toNat ⟨.output, false⟩ s.cfg.sclLine.isLt := by
      simp only [h1.pins, hc]
      exact set_scl_idem _
    rw [h1.registers, h1.shift, h1.bitcnt, hpp, he1] at h2
    have h3 := h1.trans h2
    have e : s.bitcnt + 1#4 + BitVec.ofNat 4 (n + 1) = s.bitcnt + BitVec.ofNat 4 (n + 1 + 1) := by
      rw [BitVec.add_assoc]
      congr 1
      exact BitVec.eq_of_toNat_eq (by simp; omega)
    rw [← e]
    exact ⟨h3, by rw [he2, he1]; rfl⟩

/-- The line is released: one event and its delay, and from a low clock line no symbol (R132, R142). -/
theorem release_ran {s : State} (hne : s.cfg.sdaLine ≠ s.cfg.sclLine) :
    Ran s [.rel .sda, .dly] []
        { s.registers with
          pins := s.pins.set s.cfg.sdaLine.toNat ⟨.input, (s.pin s.cfg.sdaLine).out⟩ s.cfg.sdaLine.isLt }
        (runProgram [.rel .sda, .dly] s)
      ∧ (runProgram [.rel .sda, .dly] s).sdaReleased := by
  refine ⟨⟨rfl, rfl, ⟨_, by simp only [runProgram_cons, runProgram_nil, MicroOp.apply, State.dly_trace,
    State.rel_trace, List.append_assoc]; rfl, rfl, fun hl => ?_⟩, fun hl => ?_⟩, ?_⟩
  · have h1 := State.wire_scl_rel_sda hne hl
    have h0 := State.wire_scl_of_clockLow hl
    constructor <;>
      simp [symbolsFrom, TracePoint.symbol, TracePoint.nextSlot, TracePoint.condition, TracePoint.rises, TracePoint.falls, h0, h1]
  · exact (s.pin_rel_ne (l := .sda) hne.symm).trans hl
  · exact congrArg Pin.dir (s.pin_rel_same .sda)

/-- The bits of READ_BYTE or RECV_ACK begun in environment `e` (R132, R142). -/
def Env.readBits (n : Nat) (e : Env) : List Bool := (e.observe ⟨.sda, .released⟩).bits n

/-- READ_BYTE's program: its byte is assembled from the environment's next eight bits (R132). -/
theorem readByte_ran {s : State} (hne : s.cfg.sdaLine ≠ s.cfg.sclLine) (hq : s.seq ≠ .idle) :
    Ran s (readByteEvents (s.env.readBits 8)) ((s.env.readBits 8).map .bit)
        { s.registers with
          pins := s.pinsWith ⟨.input, (s.pin s.cfg.sdaLine).out⟩ ⟨.output, false⟩
          shift := assembleBits (s.env.readBits 8)
          bitcnt := 8#4 }
        (runProgram readByteProgram s)
      ∧ (runProgram readByteProgram s).env = (s.env.observe ⟨.sda, .released⟩).afterPulses 8 := by
  obtain ⟨h1, hin⟩ := release_ran hne
  have hq1 := runProgram_ne_idle hq [.rel .sda, .dly]
  have e : runProgram readByteProgram s
      = runProgram (eightTimes readBit) ((runProgram [.rel .sda, .dly] s).loadShift 0#8) := by
    rw [readByteProgram, runProgram_append]
    rfl
  rw [e]
  generalize hr : runProgram [.rel .sda, .dly] s = r at h1 hin hq1
  have hc : r.cfg = s.cfg := h1.cfg
  have he0 : r.env = s.env.observe ⟨.sda, .released⟩ := h1.env
  obtain ⟨h2, he⟩ := readBits_ran 7 (s := r.loadShift 0#8) (by rwa [State.loadShift_cfg, hc]) hin hq1
  rw [eightTimes]
  generalize runProgram (List.replicate 8 readBit).flatten (r.loadShift 0#8) = t at h2 he ⊢
  have h2' : Ran r (((r.env.bits 8)).flatMap sampleEvents) ((r.env.bits 8).map .bit)
      { r.registers with
        pins := r.pins.set r.cfg.sclLine.toNat ⟨.output, false⟩ r.cfg.sclLine.isLt
        shift := (r.env.bits 8).foldl shiftInByte 0#8
        bitcnt := 8#4 } t := ⟨h2.registers, h2.env, h2.trace, h2.clock⟩
  have he' : t.env = r.env.afterPulses 8 := he
  rw [h1.registers, he0] at h2'
  have h3 := h1.trans h2'
  refine ⟨⟨?_, h3.env, h3.trace, h3.clock⟩, by rw [he', he0]⟩
  rw [h3.registers]
  simp only [h1.pins, hc]
  rfl

/-- RECV_ACK's program: the sampled bit is the environment's next, and is with the command in flight (R142). -/
theorem recvAck_ran {s : State} (hne : s.cfg.sdaLine ≠ s.cfg.sclLine) (hq : s.seq ≠ .idle) :
    Ran s (recvAckEvents (s.env.observe ⟨.sda, .released⟩).nextBit)
        [.bit (s.env.observe ⟨.sda, .released⟩).nextBit]
        { s.registers with pins := s.pinsWith ⟨.input, (s.pin s.cfg.sdaLine).out⟩ ⟨.output, false⟩ }
        (runProgram recvAckProgram s)
      ∧ (runProgram recvAckProgram s).seq.bit = (s.env.observe ⟨.sda, .released⟩).nextBit
      ∧ (runProgram recvAckProgram s).env = (s.env.observe ⟨.sda, .released⟩).afterPulse := by
  obtain ⟨h1, hin⟩ := release_ran hne
  have hq1 := runProgram_ne_idle hq [.rel .sda, .dly]
  rw [show recvAckProgram = [.rel .sda, .dly] ++ [.drv .scl true, .dly, .smp .sda, .drv .scl false, .dly] from rfl,
    runProgram_append]
  generalize hr : runProgram [.rel .sda, .dly] s = r at h1 hin hq1
  have hc : r.cfg = s.cfg := h1.cfg
  have he0 : r.env = s.env.observe ⟨.sda, .released⟩ := h1.env
  obtain ⟨h2, hb, he⟩ := sampleSlot_ran (s := r) (by rwa [hc]) hin hq1
  rw [h1.registers, he0] at h2
  have h3 := h1.trans h2
  refine ⟨⟨?_, h3.env, h3.trace, h3.clock⟩, by rw [hb, he0], by rw [he, he0]⟩
  rw [h3.registers]
  simp only [h1.pins, hc]
  rfl

/-- SEND_ACK's and SEND_NACK's programs (R140, R141). -/
theorem sendAck_ran {s : State} (hne : s.cfg.sdaLine ≠ s.cfg.sclLine) :
    Ran s (bitEvents false) [.bit false] { s.registers with pins := s.pinsWith ⟨.output, false⟩ ⟨.output, false⟩ }
      (runProgram sendAckProgram s) :=
  driveSlot_ran hne false

theorem sendNack_ran {s : State} (hne : s.cfg.sdaLine ≠ s.cfg.sclLine) :
    Ran s (bitEvents true) [.bit true] { s.registers with pins := s.pinsWith ⟨.output, true⟩ ⟨.output, false⟩ }
      (runProgram sendNackProgram s) :=
  driveSlot_ran hne true

/-! ### START and END -/

/-- The pin events of START (R120): the clock line ends driven low, and a harness sees one START condition, after a
STOP condition only where SDA was low with SCL high and staying high (R58, R121). -/
theorem startEvents_run {s : State} (hne : s.cfg.sdaLine ≠ s.cfg.sclLine) :
    (runProgram startEvents s).registers
        = { s.registers with inTxn := true, pins := s.pinsWith ⟨.output, false⟩ ⟨.output, false⟩ }
      ∧ (runProgram startEvents s).env = s.env.after startEventList
      ∧ (runProgram startEvents s).clockLow
      ∧ ∃ ps, (runProgram startEvents s).trace = s.trace ++ ps ∧ ps.map TracePoint.event = startEventList
        ∧ Slots ps
            ((if (!s.wire .sda && s.wire .scl && (s.drv .sda true).wire .scl) = true then [Symbol.P] else []) ++ [.S]) := by
  refine ⟨?_, ?_, ?_, _, by simp only [startEvents, runProgram_cons, runProgram_nil,
    MicroOp.apply, State.setInTxn_trace, State.dly_trace, State.drv_trace, List.append_assoc]; rfl, rfl, ?_⟩
  · have hn := lineId_toNat_ne hne
    apply Registers.ext
    case pins =>
      simp only [State.registers, startEvents, runProgram_cons, runProgram_nil, MicroOp.apply, State.pinsWith,
        State.setInTxn_pins, State.dly_pins, State.drv_pins, State.lineId_sda, State.lineId_scl, State.dly_cfg,
        State.drv_cfg]
      ext i hi
      all_goals
        simp only [Vector.getElem_set]
        (repeat' split) <;> simp_all
    all_goals simp [State.registers, startEvents, MicroOp.apply]
  · simp [startEvents, MicroOp.apply, Env.after, observed, startEventList]
  · have e : (runProgram startEvents s).pin (runProgram startEvents s).cfg.sclLine
        = ((((((((s.drv .sda true).dly).drv .scl true).dly).drv .sda false).dly).drv .scl false).dly).pin
            s.cfg.sclLine := by
      simp [startEvents, MicroOp.apply, State.pin]
    rw [State.clockLow, e, State.pin_dly, State.pin_drv]
    simp
  · have h2 : ((s.drv .sda true).dly.drv .scl true).wire .sda = true := by
      simp [State.wire, State.pin_drv, State.pin_dly, hne]
    have h4 : ((((s.drv .sda true).dly.drv .scl true).dly).drv .sda false).wire .scl = true := by
      simp [State.wire, State.pin_drv, State.pin_dly, hne.symm]
    have h6 : (((((s.drv .sda true).dly.drv .scl true).dly).drv .sda false).dly.drv .scl false).wire .sda = false := by
      simp [State.wire, State.pin_drv, State.pin_dly, hne]
    constructor <;> cases ha : s.wire .sda <;> cases hc : s.wire .scl <;>
      cases hx : (s.drv .sda true).wire .scl <;>
      simp [symbolsFrom, TracePoint.symbol, TracePoint.nextSlot, TracePoint.condition, TracePoint.rises, TracePoint.falls,
        h2, h4, h6, ha, hc, hx]

/-- The pin events of END (R122): both lines end driven high, and from a low clock line a harness sees one STOP
condition (R123). -/
theorem endProgram_run {s : State} (hne : s.cfg.sdaLine ≠ s.cfg.sclLine) :
    (runProgram endProgram s).registers
        = { s.registers with inTxn := false, pins := s.pinsWith ⟨.output, true⟩ ⟨.output, true⟩ }
      ∧ (runProgram endProgram s).env = s.env.after endEventList
      ∧ ∃ ps, (runProgram endProgram s).trace = s.trace ++ ps ∧ ps.map TracePoint.event = endEventList
        ∧ (s.clockLow → Slots ps [.P]) := by
  refine ⟨?_, ?_, _, by simp only [endProgram, runProgram_cons, runProgram_nil,
    MicroOp.apply, State.setInTxn_trace, State.dly_trace, State.drv_trace, List.append_assoc]; rfl, rfl, ?_⟩
  · have hn := lineId_toNat_ne hne
    apply Registers.ext
    case pins =>
      simp only [State.registers, endProgram, runProgram_cons, runProgram_nil, MicroOp.apply, State.pinsWith,
        State.setInTxn_pins, State.dly_pins, State.drv_pins, State.lineId_sda, State.lineId_scl, State.dly_cfg,
        State.drv_cfg]
      ext i hi
      all_goals
        simp only [Vector.getElem_set]
        (repeat' split) <;> simp_all
    all_goals simp [State.registers, endProgram, MicroOp.apply]
  · simp [endProgram, MicroOp.apply, Env.after, observed, endEventList]
  · intro hl
    have hs := State.wire_scl_of_clockLow hl
    have h0 := State.wire_scl_drv_sda hne hl false
    have h2 : ((s.drv .sda false).dly.drv .scl true).wire .sda = false := by
      simp [State.wire, State.pin_drv, State.pin_dly, hne]
    have h4 : ((((s.drv .sda false).dly.drv .scl true).dly).drv .sda true).wire .scl = true := by
      simp [State.wire, State.pin_drv, State.pin_dly, hne.symm]
    constructor <;>
      simp [symbolsFrom, TracePoint.symbol, TracePoint.nextSlot, TracePoint.condition, TracePoint.rises, TracePoint.falls,
        hs, h0, h2, h4]

/-! ### The steps of the register commands -/

theorem State.pinsWith_sda_out {s : State} (hne : s.cfg.sdaLine ≠ s.cfg.sclLine) {p q : Pin} {t : State}
    (hc : t.cfg = s.cfg) (hp : t.pins = s.pinsWith p q) : t.pin t.cfg.sdaLine = p :=
  State.pin_sda_of_pinsWith (by rw [hc]) hne hp

/-- A run on top of a run that wrote both pins, when the second writes both again. -/
theorem State.pinsWith_over {s t : State} (hne : s.cfg.sdaLine ≠ s.cfg.sclLine) (hc : t.cfg = s.cfg) {p q : Pin}
    (hp : t.pins = s.pinsWith p q) (p' q' : Pin) : t.pinsWith p' q' = s.pinsWith p' q' :=
  State.pinsWith_again (by rw [hc]) (by rw [hc]) hne hp p' q'

/-- A byte sent and its acknowledgment slot: the step of both register commands (R151, R153). -/
theorem sentByte_ran {s : State} (hne : s.cfg.sdaLine ≠ s.cfg.sclLine) (hq : s.seq ≠ .idle) {p : Program} {v : Byte}
    (hp : Ran s (byteEvents v) (byteSymbols v)
      { s.registers with
        pins := s.pinsWith ⟨.output, v.getLsbD 0⟩ ⟨.output, false⟩
        shift := 0#8
        bitcnt := 8#4 } (runProgram p s)) :
    ∃ a, Ran s (byteEvents v ++ recvAckEvents a) (byteSymbols v ++ [.bit a])
      { s.registers with
        pins := s.pinsWith ⟨.input, v.getLsbD 0⟩ ⟨.output, false⟩
        shift := 0#8
        bitcnt := 8#4 } (runProgram recvAckProgram (runProgram p s)) := by
  have hq1 := runProgram_ne_idle hq p
  generalize runProgram p s = r at hp hq1
  have hc : r.cfg = s.cfg := hp.cfg
  obtain ⟨h2, -, -⟩ := recvAck_ran (s := r) (by rwa [hc]) hq1
  have h3 := hp.trans h2
  refine ⟨_, h3.registers.trans ?_, h3.env, h3.trace, h3.clock⟩
  rw [hp.registers, State.pinsWith_over hne hc hp.pins, State.pinsWith_sda_out hne hc hp.pins]

/-- A byte received and SI2CM's own acknowledgment slot (R153). -/
theorem receivedByte_ran {s : State} (hne : s.cfg.sdaLine ≠ s.cfg.sclLine) (hq : s.seq ≠ .idle) (b : Bool) :
    Ran s (readByteEvents (s.env.readBits 8) ++ bitEvents b) ((s.env.readBits 8).map .bit ++ [.bit b])
      { s.registers with
        pins := s.pinsWith ⟨.output, b⟩ ⟨.output, false⟩
        shift := assembleBits (s.env.readBits 8)
        bitcnt := 8#4 }
      (runProgram [.drv .sda b, .dly, .drv .scl true, .dly, .drv .scl false, .dly] (runProgram readByteProgram s)) := by
  obtain ⟨h1, -⟩ := readByte_ran hne hq
  generalize runProgram readByteProgram s = r at h1
  have hc : r.cfg = s.cfg := h1.cfg
  have h2 := driveSlot_ran (s := r) (by rwa [hc]) b
  have h3 := h1.trans h2
  refine ⟨h3.registers.trans ?_, h3.env, h3.trace, h3.clock⟩
  rw [h1.registers, State.pinsWith_over hne hc h1.pins]

theorem runProgram_startConfigured (s : State) :
    runProgram startConfiguredProgram s = runProgram startEvents s := by
  rw [startConfiguredProgram, runProgram_cons]
  exact congrArg (runProgram startEvents) (rfl : MicroOp.apply s .keepSlaveAddr = s)

/-- WRITE_REG's program between its START and its END (R151). -/
theorem writeRegBody_ran {s : State} (hne : s.cfg.sdaLine ≠ s.cfg.sclLine) (hq : s.seq ≠ .idle) (r : RegIndex)
    (v : Value) :
    ∃ a0 a1 a2 a3,
      Ran s
        ((byteEvents (devByte s.cfg.slaveAddr) ++ recvAckEvents a0) ++ (byteEvents (regByteW r) ++ recvAckEvents a1)
          ++ (byteEvents (hiByte v) ++ recvAckEvents a2) ++ (byteEvents (loByte v) ++ recvAckEvents a3))
        ((byteSymbols (devByte s.cfg.slaveAddr) ++ [.bit a0]) ++ (byteSymbols (regByteW r) ++ [.bit a1])
          ++ (byteSymbols (hiByte v) ++ [.bit a2]) ++ (byteSymbols (loByte v) ++ [.bit a3]))
        { s.registers with
          pins := s.pinsWith ⟨.input, (loByte v).getLsbD 0⟩ ⟨.output, false⟩
          shift := 0#8
          bitcnt := 8#4 }
        (runProgram
          [ writeDevByteProgram, recvAckProgram, writeByteProgram (regByteW r), recvAckProgram,
            writeByteProgram (hiByte v), recvAckProgram, writeByteProgram (loByte v), recvAckProgram ].flatten s) := by
  simp only [runProgram_flatten, List.foldl_cons, List.foldl_nil]
  obtain ⟨a0, h0⟩ := sentByte_ran hne hq (writeDevByte_ran hne)
  have q0 := runProgram_ne_idle (runProgram_ne_idle hq writeDevByteProgram) recvAckProgram
  generalize runProgram recvAckProgram (runProgram writeDevByteProgram s) = s0 at h0 q0 ⊢
  have c0 : s0.cfg = s.cfg := h0.cfg
  have n0 : s0.cfg.sdaLine ≠ s0.cfg.sclLine := by rwa [c0]
  obtain ⟨a1, h1⟩ := sentByte_ran n0 q0 (writeByte_ran n0 (regByteW r))
  have q1 := runProgram_ne_idle (runProgram_ne_idle q0 (writeByteProgram (regByteW r))) recvAckProgram
  generalize runProgram recvAckProgram (runProgram (writeByteProgram (regByteW r)) s0) = s1 at h1 q1 ⊢
  rw [h0.registers, State.pinsWith_over hne c0 h0.pins] at h1
  have c1 : s1.cfg = s.cfg := h1.cfg
  have n1 : s1.cfg.sdaLine ≠ s1.cfg.sclLine := by rwa [c1]
  obtain ⟨a2, h2⟩ := sentByte_ran n1 q1 (writeByte_ran n1 (hiByte v))
  have q2 := runProgram_ne_idle (runProgram_ne_idle q1 (writeByteProgram (hiByte v))) recvAckProgram
  generalize runProgram recvAckProgram (runProgram (writeByteProgram (hiByte v)) s1) = s2 at h2 q2 ⊢
  rw [h1.registers, State.pinsWith_over hne c1 h1.pins] at h2
  have c2 : s2.cfg = s.cfg := h2.cfg
  have n2 : s2.cfg.sdaLine ≠ s2.cfg.sclLine := by rwa [c2]
  obtain ⟨a3, h3⟩ := sentByte_ran n2 q2 (writeByte_ran n2 (loByte v))
  generalize runProgram recvAckProgram (runProgram (writeByteProgram (loByte v)) s2) = s3 at h3 ⊢
  rw [h2.registers, State.pinsWith_over hne c2 h2.pins] at h3
  exact ⟨a0, a1, a2, a3, ((h0.trans h1).trans h2).trans h3⟩

/-- READ_REG's program between its START and its END (R153): its bytes are the environment's. -/
theorem readRegBody_ran {s : State} (hne : s.cfg.sdaLine ≠ s.cfg.sclLine) (hq : s.seq ≠ .idle) (r : RegIndex) :
    ∃ a0 a1 hi lo, hi.length = 8 ∧ lo.length = 8
      ∧ hi = (s.env.after ((byteEvents (devByte s.cfg.slaveAddr) ++ recvAckEvents a0)
          ++ (byteEvents (regByteR r) ++ recvAckEvents a1))).readBits 8
      ∧ lo = (s.env.after ((byteEvents (devByte s.cfg.slaveAddr) ++ recvAckEvents a0)
          ++ (byteEvents (regByteR r) ++ recvAckEvents a1) ++ (readByteEvents hi ++ bitEvents false))).readBits 8
      ∧ Ran s
        ((byteEvents (devByte s.cfg.slaveAddr) ++ recvAckEvents a0) ++ (byteEvents (regByteR r) ++ recvAckEvents a1)
          ++ (readByteEvents hi ++ bitEvents false) ++ (readByteEvents lo ++ bitEvents true))
        ((byteSymbols (devByte s.cfg.slaveAddr) ++ [.bit a0]) ++ (byteSymbols (regByteR r) ++ [.bit a1])
          ++ (hi.map .bit ++ [.bit false]) ++ (lo.map .bit ++ [.bit true]))
        { s.registers with
          pins := s.pinsWith ⟨.output, true⟩ ⟨.output, false⟩
          shift := assembleBits lo
          rxhi := assembleBits hi
          bitcnt := 8#4 }
        (runProgram
          [ writeDevByteProgram, recvAckProgram, writeByteProgram (regByteR r), recvAckProgram,
            readByteProgram, [.latchHi], sendAckProgram, readByteProgram, sendNackProgram ].flatten s) := by
  simp only [runProgram_flatten, List.foldl_cons, List.foldl_nil]
  obtain ⟨a0, h0⟩ := sentByte_ran hne hq (writeDevByte_ran hne)
  have q0 := runProgram_ne_idle (runProgram_ne_idle hq writeDevByteProgram) recvAckProgram
  generalize runProgram recvAckProgram (runProgram writeDevByteProgram s) = s0 at h0 q0 ⊢
  have c0 : s0.cfg = s.cfg := h0.cfg
  have n0 : s0.cfg.sdaLine ≠ s0.cfg.sclLine := by rwa [c0]
  obtain ⟨a1, h1⟩ := sentByte_ran n0 q0 (writeByte_ran n0 (regByteR r))
  have q1 := runProgram_ne_idle (runProgram_ne_idle q0 (writeByteProgram (regByteR r))) recvAckProgram
  generalize runProgram recvAckProgram (runProgram (writeByteProgram (regByteR r)) s0) = s1 at h1 q1 ⊢
  rw [h0.registers, State.pinsWith_over hne c0 h0.pins] at h1
  have c1 : s1.cfg = s.cfg := h1.cfg
  have n1 : s1.cfg.sdaLine ≠ s1.cfg.sclLine := by rwa [c1]
  obtain ⟨h2, -⟩ := readByte_ran n1 q1
  have q2 := runProgram_ne_idle q1 readByteProgram
  generalize runProgram readByteProgram s1 = s2 at h2 q2 ⊢
  rw [h1.registers, State.pinsWith_over hne c1 h1.pins] at h2
  have e3 : runProgram [.latchHi] s2 = s2.latchHi := rfl
  rw [e3]
  have h3 : Ran s1 _ _ { s2.registers with rxhi := s2.shift } s2.latchHi := ⟨rfl, h2.env, h2.trace, h2.clock⟩
  rw [h2.registers, h2.shift] at h3
  have q3 : s2.latchHi.seq ≠ .idle := q2
  generalize s2.latchHi = s3 at h3 q3 ⊢
  have c3 : s3.cfg = s.cfg := h3.cfg
  have n3 : s3.cfg.sdaLine ≠ s3.cfg.sclLine := by rwa [c3]
  have h4 := sendAck_ran n3
  have q4 := runProgram_ne_idle q3 sendAckProgram
  generalize runProgram sendAckProgram s3 = s4 at h4 q4 ⊢
  rw [h3.registers, State.pinsWith_over hne c3 h3.pins] at h4
  have c4 : s4.cfg = s.cfg := h4.cfg
  have n4 : s4.cfg.sdaLine ≠ s4.cfg.sclLine := by rwa [c4]
  have h5 := receivedByte_ran n4 q4 true
  rw [h4.registers, State.pinsWith_over hne c4 h4.pins] at h5
  have h6 := ((h0.trans h1).trans (h3.trans h4)).trans h5
  exact ⟨a0, a1, s1.env.readBits 8, s4.env.readBits 8, by simp [Env.readBits], by simp [Env.readBits],
    by rw [(h0.trans h1).env], by rw [((h0.trans h1).trans (h3.trans h4)).env],
    h6.registers, h6.env, h6.trace, h6.clock⟩

end Sys2Proof.Machine
end

