-- ==== Sys2Proof/Laws/Commands.lean ====
section
/-! SUPPORT. From a program to a command: the state a completed command leaves, given what became of the registers,
and the run of a register command around its body. -/

namespace Sys2Proof.Machine

open Sys2Proof

/-! ### Responses -/

/-- The response word of an OK command is its value (R96). -/
theorem responseWord_ok (v : Value) : responseWord .ok v = v.zeroExtend 32 := by
  simp [responseWord, statusCode]

theorem responseWord_ok_byte (b : Byte) : responseWord .ok (valueOfByte b) = b.zeroExtend 32 := by
  rw [responseWord_ok, valueOfByte]
  simp [BitVec.setWidth_setWidth]

theorem responseWord_ok_bit (b : Bool) :
    responseWord .ok (valueOfBit b) = if b then 0x00000001#32 else 0x00000000#32 := by
  cases b <;> rfl

/-! ### The state a command leaves -/

/-- A completed command's state, from its registers and its response value; environment and trace are its own. -/
theorem completed_of_registers {s : State} {i : Instr} {g : Registers} {x : Value}
    (h : (runProgram (programOf i) (s.accept i)).registers = g)
    (hv : valueOf i (runProgram (programOf i) (s.accept i)) = x) :
    s.completed i
      = ⟨g.cfg, g.pend, g.inTxn, g.shift, g.bitcnt, g.rxhi, .idle, g.pins, (s.completed i).env, g.commands,
          g.responses ++ [responseWord .ok x], (s.completed i).trace⟩ := by
  subst h hv
  rfl

/-- READ_REG's response value is in the registers its program leaves (R153). -/
theorem valueOf_readReg {t : State} {g : Registers} (r : RegIndex) (h : t.registers = g) :
    valueOf (.readReg r) t = assembleValue g.rxhi g.shift := by
  subst h
  rfl

/-- READ_BYTE's response value is the `SHIFT` its program leaves (R132). -/
theorem valueOf_readByte {t : State} {b : Byte} (h : t.shift = b) : valueOf .readByte t = valueOfByte b := by
  subst h
  rfl

/-- RECV_ACK's response value is the bit sampled last (R142). -/
theorem valueOf_recvAck {t : State} {b : Bool} (h : t.seq.bit = b) : valueOf .recvAck t = valueOfBit b := by
  subst h
  rfl

/-- What a command adds to the trace is what its program adds. -/
theorem completed_trace {s : State} {i : Instr} {ps : List TracePoint}
    (h : (runProgram (programOf i) (s.accept i)).trace = s.trace ++ ps) :
    (s.completed i).trace = s.trace ++ ps := h

/-- The pin events of a command are those of its program. -/
theorem eventsSince_completed {s : State} {i : Instr} {es : List Event} {ps : List TracePoint}
    (h : (runProgram (programOf i) (s.accept i)).trace = s.trace ++ ps) (he : ps.map TracePoint.event = es) :
    eventsSince s (s.completed i) = es :=
  (eventsSince_of_append (completed_trace h)).trans he

/-! ### What no program but CONFIGURE's does -/

/-- The program does not hold CONFIGURE's register writes. -/
def NoSetCfg (p : Program) : Prop := ∀ op ∈ p, ∀ a d c, op ≠ .setCfg a d c

theorem NoSetCfg.flatten {ps : List Program} (h : ∀ p ∈ ps, NoSetCfg p) : NoSetCfg ps.flatten := by
  intro op ho
  obtain ⟨p, hp, ho⟩ := List.mem_flatten.mp ho
  exact h p hp op ho

theorem noSetCfg_startEvents : NoSetCfg startEvents := by simp [NoSetCfg, startEvents]
theorem noSetCfg_end : NoSetCfg endProgram := by simp [NoSetCfg, endProgram]
theorem noSetCfg_sendAck : NoSetCfg sendAckProgram := by simp [NoSetCfg, sendAckProgram]
theorem noSetCfg_sendNack : NoSetCfg sendNackProgram := by simp [NoSetCfg, sendNackProgram]
theorem noSetCfg_recvAck : NoSetCfg recvAckProgram := by simp [NoSetCfg, recvAckProgram]
theorem noSetCfg_writeByte (v : Byte) : NoSetCfg (writeByteProgram v) := by
  simp [NoSetCfg, writeByteProgram, eightTimes, writeBit]
theorem noSetCfg_writeDevByte : NoSetCfg writeDevByteProgram := by
  simp [NoSetCfg, writeDevByteProgram, eightTimes, writeBit]
theorem noSetCfg_readByte : NoSetCfg readByteProgram := by
  simp [NoSetCfg, readByteProgram, eightTimes, readBit]
theorem noSetCfg_startConfigured : NoSetCfg startConfiguredProgram := by
  simp [NoSetCfg, startConfiguredProgram, startEvents]

/-- Only CONFIGURE's program writes the line numbers and `CONFIGURED` (R163). -/
theorem noSetCfg_programOf {i : Instr} (h : i.op ≠ .configure) : NoSetCfg (programOf i) := by
  cases i with
  | configure a d c => exact absurd rfl h
  | requestRead a n => simp [NoSetCfg, programOf, requestReadProgram]
  | start a => simp [NoSetCfg, programOf, startProgram, startEvents]
  | endTxn => exact noSetCfg_end
  | sendAck => exact noSetCfg_sendAck
  | sendNack => exact noSetCfg_sendNack
  | recvAck => exact noSetCfg_recvAck
  | writeByte v => exact noSetCfg_writeByte v
  | readByte => exact noSetCfg_readByte
  | writeReg r v =>
    refine NoSetCfg.flatten fun p hp => ?_
    simp only [List.mem_cons, List.not_mem_nil, or_false] at hp
    obtain rfl | rfl | rfl | rfl | rfl | rfl | rfl | rfl | rfl | rfl := hp <;> first
      | exact noSetCfg_startConfigured
      | exact noSetCfg_writeDevByte
      | exact noSetCfg_recvAck
      | exact noSetCfg_writeByte _
      | exact noSetCfg_end
  | readReg r =>
    refine NoSetCfg.flatten fun p hp => ?_
    simp only [List.mem_cons, List.not_mem_nil, or_false] at hp
    obtain rfl | rfl | rfl | rfl | rfl | rfl | rfl | rfl | rfl | rfl | rfl := hp <;> first
      | exact noSetCfg_startConfigured
      | exact noSetCfg_writeDevByte
      | exact noSetCfg_recvAck
      | exact noSetCfg_writeByte _
      | exact noSetCfg_readByte
      | exact noSetCfg_sendAck
      | exact noSetCfg_sendNack
      | exact noSetCfg_end
      | simp [NoSetCfg]

/-! ### The register commands around their body -/

/-- A transaction: START's events, a body that leaves both pins written, END's events (R151, R153). The registers are
the body's but for the flag and the pins, and from SDA at 1 a harness sees one START condition, the body's symbols,
one STOP condition. -/
theorem transaction_run {s s1 : State} (hne : s.cfg.sdaLine ≠ s.cfg.sclLine) (hs1 : runProgram startEvents s = s1)
    {body : List Program} {es : List Event} {sy : List Symbol} {g : Registers}
    (hb : Ran s1 es sy g (runProgram body.flatten s1))
    (hc : g.cfg = s1.cfg) {p : Pin} (hp : g.pins = s1.pinsWith p ⟨.output, false⟩) :
    (runProgram ([startConfiguredProgram] ++ body ++ [endProgram]).flatten s).registers
        = { g with inTxn := false, pins := s.pinsWith ⟨.output, true⟩ ⟨.output, true⟩ }
      ∧ ∃ ps, (runProgram ([startConfiguredProgram] ++ body ++ [endProgram]).flatten s).trace = s.trace ++ ps
        ∧ ps.map TracePoint.event = startEventList ++ es ++ endEventList
        ∧ (s.wire .sda = true → symbolsFrom none ps = [.S] ++ sy ++ [.P]) := by
  have e : runProgram ([startConfiguredProgram] ++ body ++ [endProgram]).flatten s
      = runProgram endProgram (runProgram body.flatten s1) := by
    rw [List.flatten_append, List.flatten_append, runProgram_append, runProgram_append, ← hs1,
      ← runProgram_startConfigured]
    simp only [List.flatten_cons, List.flatten_nil, List.append_nil]
  rw [e]
  clear e
  obtain ⟨k1, -, k3, ps, k4, k5, k6⟩ := startEvents_run hne
  rw [hs1] at k1 k3 k4
  have c1 : s1.cfg = s.cfg := congrArg Registers.cfg k1
  obtain ⟨rs, h4, h5, h6⟩ := hb.trace
  have hr := hb.registers
  have hlow := hb.clock k3
  generalize runProgram body.flatten s1 = s2 at *
  have c2 : s2.cfg = s1.cfg := by rw [hb.cfg, hc]
  obtain ⟨j1, -, qs, j4, j5, j6⟩ := endProgram_run (s := s2) (by rwa [c2, c1])
  generalize runProgram endProgram s2 = s3 at *
  constructor
  · rw [j1, hr, State.pinsWith_over (s := s1) (t := s2) (by rwa [c1]) c2 (hb.pins.trans hp),
      State.pinsWith_over hne c1 (congrArg Registers.pins k1)]
  · refine ⟨ps ++ rs ++ qs, by simp [j4, h4, k4],
      by rw [List.map_append, List.map_append, k5, h5, j5], fun hw => ?_⟩
    rw [((k6.append (h6 k3)).append (j6 hlow)).symbols]
    simp [hw]

/-- WRITE_REG's program: the registers it leaves, its events and, from SDA at 1, its symbols (R151). -/
theorem writeReg_run {s : State} (hne : s.cfg.sdaLine ≠ s.cfg.sclLine) (hq : s.seq ≠ .idle) (r : RegIndex)
    (v : Value) :
    ∃ a0 a1 a2 a3,
      (runProgram (writeRegProgram r v) s).registers
          = { s.registers with
              inTxn := false, pins := s.pinsWith ⟨.output, true⟩ ⟨.output, true⟩, shift := 0#8, bitcnt := 8#4 }
        ∧ ∃ ps, (runProgram (writeRegProgram r v) s).trace = s.trace ++ ps
          ∧ ps.map TracePoint.event
            = startEventList
              ++ ((byteEvents (devByte s.cfg.slaveAddr) ++ recvAckEvents a0)
                ++ (byteEvents (regByteW r) ++ recvAckEvents a1)
                ++ (byteEvents (hiByte v) ++ recvAckEvents a2) ++ (byteEvents (loByte v) ++ recvAckEvents a3))
              ++ endEventList
          ∧ (s.wire .sda = true → symbolsFrom none ps
            = [.S]
              ++ ((byteSymbols (devByte s.cfg.slaveAddr) ++ [.bit a0]) ++ (byteSymbols (regByteW r) ++ [.bit a1])
                ++ (byteSymbols (hiByte v) ++ [.bit a2]) ++ (byteSymbols (loByte v) ++ [.bit a3]))
              ++ [.P]) := by
  obtain ⟨k1, -⟩ := startEvents_run hne
  have q1 := runProgram_ne_idle hq startEvents
  generalize h1 : runProgram startEvents s = s1 at k1 q1
  have c1 : s1.cfg = s.cfg := congrArg Registers.cfg k1
  obtain ⟨a0, a1, a2, a3, hb⟩ := writeRegBody_ran (s := s1) (by rwa [c1]) q1 r v
  obtain ⟨w1, ps, w2, w3, w4⟩ := transaction_run hne h1 hb rfl rfl
  rw [k1] at w1
  rw [c1] at w3 w4
  exact ⟨a0, a1, a2, a3, w1, ps, w2, w3, w4⟩

/-- READ_REG's program: the registers it leaves, its events and, from SDA at 1, its symbols (R153). -/
theorem readReg_run {s : State} (hne : s.cfg.sdaLine ≠ s.cfg.sclLine) (hq : s.seq ≠ .idle) (r : RegIndex) :
    ∃ a0 a1 hi lo, hi.length = 8 ∧ lo.length = 8
      ∧ hi = (s.env.after (startEventList ++ ((byteEvents (devByte s.cfg.slaveAddr) ++ recvAckEvents a0)
          ++ (byteEvents (regByteR r) ++ recvAckEvents a1)))).readBits 8
      ∧ lo = (s.env.after (startEventList ++ ((byteEvents (devByte s.cfg.slaveAddr) ++ recvAckEvents a0)
          ++ (byteEvents (regByteR r) ++ recvAckEvents a1) ++ (readByteEvents hi ++ bitEvents false)))).readBits 8
      ∧ (runProgram (readRegProgram r) s).registers
          = { s.registers with
              inTxn := false, pins := s.pinsWith ⟨.output, true⟩ ⟨.output, true⟩, shift := assembleBits lo,
              bitcnt := 8#4, rxhi := assembleBits hi }
        ∧ ∃ ps, (runProgram (readRegProgram r) s).trace = s.trace ++ ps
          ∧ ps.map TracePoint.event
            = startEventList
              ++ ((byteEvents (devByte s.cfg.slaveAddr) ++ recvAckEvents a0)
                ++ (byteEvents (regByteR r) ++ recvAckEvents a1)
                ++ (readByteEvents hi ++ bitEvents false) ++ (readByteEvents lo ++ bitEvents true))
              ++ endEventList
          ∧ (s.wire .sda = true → symbolsFrom none ps
            = [.S]
              ++ ((byteSymbols (devByte s.cfg.slaveAddr) ++ [.bit a0]) ++ (byteSymbols (regByteR r) ++ [.bit a1])
                ++ (hi.map .bit ++ [.bit false]) ++ (lo.map .bit ++ [.bit true]))
              ++ [.P]) := by
  obtain ⟨k1, ke, -⟩ := startEvents_run hne
  have q1 := runProgram_ne_idle hq startEvents
  generalize h1 : runProgram startEvents s = s1 at k1 ke q1
  have c1 : s1.cfg = s.cfg := congrArg Registers.cfg k1
  obtain ⟨a0, a1, hi, lo, hhi, hlo, ehi, elo, hb⟩ := readRegBody_ran (s := s1) (by rwa [c1]) q1 r
  obtain ⟨w1, ps, w2, w3, w4⟩ := transaction_run hne h1 hb rfl rfl
  rw [k1] at w1
  rw [c1] at w3 w4
  rw [c1, ke, ← Env.after_append] at ehi elo
  exact ⟨a0, a1, hi, lo, hhi, hlo, ehi, elo, w1, ps, w2, w3, w4⟩

end Sys2Proof.Machine
end

