-- ==== Sys2Proof/Laws/Env.lean ====
section
/-! SUPPORT. The reference slave, slot by slot: what one slot, one byte and one transaction's bytes do to it (60_exceptions.md
rules R185 to R188), in terms of the slot transition only. -/

namespace Sys2Proof.Machine

open Sys2Proof

/-- The slave between two slots of a transaction: SCL is driven low, no clock-high period is under way. -/
structure RSlave.BetweenSlots (e : RSlave) : Prop where
  mscl : e.mscl = .driven false
  cond : e.cond = false
  lb : e.lb = none

/-- The slave with its view of SDA set. -/
def RSlave.seen (e : RSlave) (d : Drive) : RSlave := { e with msda := d }

@[simp] theorem RSlave.seen_seen (e : RSlave) (d d' : Drive) : (e.seen d).seen d' = e.seen d' := rfl
@[simp] theorem RSlave.seen_ph (e : RSlave) (d : Drive) : (e.seen d).ph = e.ph := rfl
@[simp] theorem RSlave.seen_n (e : RSlave) (d : Drive) : (e.seen d).n = e.n := rfl
@[simp] theorem RSlave.seen_out (e : RSlave) (d : Drive) : (e.seen d).out = e.out := rfl
@[simp] theorem RSlave.seen_msda (e : RSlave) (d : Drive) : (e.seen d).msda = d := rfl

theorem RSlave.seen_self {e : RSlave} {d : Drive} (h : e.msda = d) : e.seen d = e := by
  subst h
  rfl

/-- The slot transition moves only the slave's protocol state. -/
theorem RSlave.slot_frame (e : RSlave) (b : Bool) (d m : Drive) (lb : Option Bool) (c : Bool) :
    ({ e with msda := d, mscl := m, lb := lb, cond := c } : RSlave).slot b
      = { e.slot b with msda := d, mscl := m, lb := lb, cond := c } := by
  obtain ⟨sa, reg, ph, n, sh, idx, rw, hi, msda, mscl, lb', cond⟩ := e
  cases ph <;>
    simp only [RSlave.slot, RSlave.slotReceive, RSlave.slotSend, RSlave.byteDone, RSlave.setReg, RSlave.afterAck] <;>
    (repeat' split) <;> rfl

/-- A slot leaves the slave's view of the pins and its harness alone. -/
theorem RSlave.slot_view (e : RSlave) (b : Bool) :
    (e.slot b).msda = e.msda ∧ (e.slot b).mscl = e.mscl ∧ (e.slot b).lb = e.lb ∧ (e.slot b).cond = e.cond := by
  rw [(e.slot_frame b e.msda e.mscl e.lb e.cond : e.slot b = _)]
  exact ⟨rfl, rfl, rfl, rfl⟩

theorem RSlave.slot_seen (e : RSlave) (b : Bool) (d : Drive) : (e.seen d).slot b = (e.slot b).seen d := by
  obtain ⟨-, h1, h2, h3⟩ := e.slot_view b
  refine (e.slot_frame b d e.mscl e.lb e.cond).trans ?_
  rw [RSlave.seen, ← h1, ← h2, ← h3]

theorem RSlave.BetweenSlots.slot {e : RSlave} (h : e.BetweenSlots) (b : Bool) : (e.slot b).BetweenSlots := by
  obtain ⟨-, h1, h2, h3⟩ := e.slot_view b
  exact ⟨h1.trans h.mscl, h3.trans h.cond, h2.trans h.lb⟩

theorem RSlave.BetweenSlots.seen {e : RSlave} (h : e.BetweenSlots) (d : Drive) : (e.seen d).BetweenSlots :=
  ⟨h.mscl, h.cond, h.lb⟩

/-- While SCL is low the slave only watches SDA (R187). -/
theorem RSlave.observe_sda {e : RSlave} (h : e.BetweenSlots) (d : Drive) : e.observe ⟨.sda, d⟩ = e.seen d := by
  simp [RSlave.observe, RSlave.view, RSlave.scl, h.mscl, RSlave.seen]

/-- One clock pulse is the slot transition with the level SDA has (R187, R188). -/
theorem RSlave.observe_pulse {e : RSlave} (h : e.BetweenSlots) :
    (e.observe ⟨.scl, .driven true⟩).observe ⟨.scl, .driven false⟩ = e.slot e.sda := by
  obtain ⟨sa, reg, ph, n, sh, idx, rw, hi, msda, mscl, lb, cond⟩ := e
  obtain ⟨h1, h2, h3⟩ := h
  dsimp only at h1 h2 h3
  subst h1 h2 h3
  have e1 : (⟨sa, reg, ph, n, sh, idx, rw, hi, msda, .driven false, none, false⟩ : RSlave).observe ⟨.scl, .driven true⟩
      = ⟨sa, reg, ph, n, sh, idx, rw, hi, msda, .driven true,
          some (⟨sa, reg, ph, n, sh, idx, rw, hi, msda, .driven true, none, false⟩ : RSlave).sda, false⟩ := rfl
  have e2 : ∀ b, (⟨sa, reg, ph, n, sh, idx, rw, hi, msda, .driven true, some b, false⟩ : RSlave).observe
        ⟨.scl, .driven false⟩
      = { (⟨sa, reg, ph, n, sh, idx, rw, hi, msda, .driven false, some b, false⟩ : RSlave).slot b with
          cond := false, lb := none } := fun _ => rfl
  rw [e1, e2]
  have e3 := (⟨sa, reg, ph, n, sh, idx, rw, hi, msda, .driven false, none, false⟩ : RSlave).slot_frame
  have e4 := e3 (⟨sa, reg, ph, n, sh, idx, rw, hi, msda, .driven false, none, false⟩ : RSlave).sda msda (.driven false)
    none false
  have e5 := fun b => e3 b msda (.driven false) (some b) false
  dsimp only at e4 e5
  rw [e5]
  exact e4.symm

/-! ### What SI2CM's events are to the slave -/

theorem Env.after_nil (e : Env) : e.after [] = e := rfl

/-- Samples are not observed: of READ_BYTE the environment sees the release and the clock pulses only (R54, R132). -/
theorem Env.after_sampleEvents (e : Env) (bits : List Bool) :
    e.after (bits.flatMap sampleEvents) = e.afterPulses bits.length := by
  induction bits generalizing e with
  | nil => rfl
  | cons b bits ih => rw [List.flatMap_cons, Env.after_append, ih]; rfl

theorem Env.after_readByteEvents (e : Env) {bits : List Bool} (h : bits.length = 8) :
    e.after (readByteEvents bits) = (e.observe ⟨.sda, .released⟩).afterPulses 8 := by
  rw [readByteEvents, Env.after_append, Env.after_sampleEvents, h]
  rfl

/-- A slot SI2CM drives (R130, R140, R141). -/
theorem RSlave.after_bitEvents {e : RSlave} (h : e.BetweenSlots) (b : Bool) :
    (Env.rslave e).after (bitEvents b) = .rslave ((e.slot b).seen (.driven b)) := by
  have h1 : (Env.rslave e).after (bitEvents b)
      = .rslave (((e.observe ⟨.sda, .driven b⟩).observe ⟨.scl, .driven true⟩).observe ⟨.scl, .driven false⟩) := rfl
  rw [h1, RSlave.observe_sda h, RSlave.observe_pulse (h.seen _), RSlave.slot_seen]
  rfl

/-- Bits SI2CM drives, slot by slot. -/
theorem RSlave.after_bits {e : RSlave} (h : e.BetweenSlots) (bits : List Bool) (b : Bool) :
    (Env.rslave e).after ((bits ++ [b]).flatMap bitEvents)
      = .rslave (((bits ++ [b]).foldl RSlave.slot e).seen (.driven b)) := by
  induction bits generalizing e with
  | nil => simpa [Env.after_append, Env.after_nil] using RSlave.after_bitEvents h b
  | cons c bits ih =>
    rw [List.cons_append, List.flatMap_cons, Env.after_append, RSlave.after_bitEvents h, ih ((h.slot c).seen _),
      List.foldl_cons]
    have g : ∀ (l : List Bool) (x : RSlave) (d : Drive), l.foldl RSlave.slot (x.seen d) = (l.foldl RSlave.slot x).seen d
      := by
      intro l
      induction l with
      | nil => intro x d; rfl
      | cons y l ihl => intro x d; rw [List.foldl_cons, RSlave.slot_seen, ihl, List.foldl_cons]
    rw [g, RSlave.seen_seen]

theorem bitsMsbFirst_split : ∀ v : Byte, bitsMsbFirst v = (bitsMsbFirst v).take 7 ++ [v.getLsbD 0] := by
  decide +kernel

/-- A byte SI2CM sends (R130). -/
theorem RSlave.after_byteEvents {e : RSlave} (h : e.BetweenSlots) (v : Byte) :
    (Env.rslave e).after (byteEvents v)
      = .rslave (((bitsMsbFirst v).foldl RSlave.slot e).seen (.driven (v.getLsbD 0))) := by
  rw [byteEvents, bitsMsbFirst_split v, RSlave.after_bits h]

/-- The slot of RECV_ACK: the slave's own output (R142, R186). -/
theorem RSlave.after_recvAckEvents {e : RSlave} (h : e.BetweenSlots) (a : Bool) :
    (Env.rslave e).after (recvAckEvents a) = .rslave ((e.slot e.out).seen .released) := by
  have h1 : (Env.rslave e).after (recvAckEvents a)
      = .rslave (((e.observe ⟨.sda, .released⟩).observe ⟨.scl, .driven true⟩).observe ⟨.scl, .driven false⟩) := rfl
  rw [h1, RSlave.observe_sda h, RSlave.observe_pulse (h.seen _), RSlave.slot_seen]
  rfl

/-- A released slot (R132): SI2CM samples the slave's output, and the slave sees its own output in the slot. -/
theorem RSlave.nextBit_released {e : RSlave} (h : e.BetweenSlots) (hr : e.msda = .released) :
    (Env.rslave e).nextBit = e.out := by
  obtain ⟨h1, -, -⟩ := h
  simp only [Env.nextBit, Env.observe, Env.level, RSlave.observe, RSlave.view, RSlave.scl, RSlave.sda, h1, hr]
  rfl

theorem RSlave.afterPulse_released {e : RSlave} (h : e.BetweenSlots) (hr : e.msda = .released) :
    (Env.rslave e).afterPulse = .rslave (e.slot e.out) := by
  have h1 : (Env.rslave e).afterPulse
      = .rslave ((e.observe ⟨.scl, .driven true⟩).observe ⟨.scl, .driven false⟩) := rfl
  rw [h1, RSlave.observe_pulse h, RSlave.sda, hr]

/-! ### The slave's bytes -/

theorem RSlave.slot_receiving {e : RSlave} (h : e.ph.receiving = true) (b : Bool) : e.slot b = e.slotReceive b := by
  obtain ⟨sa, reg, ph, n, sh, idx, rw, hi, msda, mscl, lb, cond⟩ := e
  cases ph <;> first | rfl | cases h

/-- Fewer than eight bits received: counted and shifted in, nothing else (R188). -/
theorem RSlave.receive_some {e : RSlave} (h : e.ph.receiving = true) (bits : List Bool)
    (hn : e.n + bits.length < 8) :
    bits.foldl RSlave.slot e = { e with n := e.n + bits.length, sh := bits.foldl shiftInByte e.sh } := by
  induction bits generalizing e with
  | nil => rfl
  | cons b bits ih =>
    simp only [List.length_cons] at hn
    have h1 : e.slot b = { e with sh := shiftInByte e.sh b, n := e.n + 1 } := by
      rw [RSlave.slot_receiving h, RSlave.slotReceive, if_pos (by omega)]
      exact if_neg (by show ¬ e.n + 1 = 8; omega)
    rw [List.foldl_cons, h1, ih (by exact h) (by show e.n + 1 + bits.length < 8; omega)]
    simp only [List.length_cons, List.foldl_cons, Nat.add_assoc, Nat.add_comm 1]

theorem assembleBits_split : ∀ v : Byte,
    shiftInByte (((bitsMsbFirst v).take 7).foldl shiftInByte 0#8) (v.getLsbD 0) = v := by decide +kernel

/-- A byte received (R188). -/
theorem RSlave.receive_byte {e : RSlave} (h : e.ph.receiving = true) (hn : e.n = 0) (hs : e.sh = 0#8) (v : Byte) :
    (bitsMsbFirst v).foldl RSlave.slot e = ({ e with n := 8, sh := v } : RSlave).byteDone := by
  have hlen : ((bitsMsbFirst v).take 7).length = 7 := by simp [bitsMsbFirst]
  rw [bitsMsbFirst_split v, List.foldl_append, RSlave.receive_some h _ (by rw [hn, hlen]; omega), hn, hlen, hs,
    List.foldl_cons, List.foldl_nil, RSlave.slot_receiving (by exact h), RSlave.slotReceive, if_pos (by show 7 < 8; omega)]
  refine (if_pos rfl).trans ?_
  rw [assembleBits_split]

/-- The acknowledgment slot of a received byte (R188). -/
theorem RSlave.slot_ack {e : RSlave} (h : e.ph.receiving = true) (hn : e.n = 8) (b : Bool) :
    e.slot b = { e with n := 0, sh := 0#8, ph := e.afterAck } := by
  rw [RSlave.slot_receiving h, RSlave.slotReceive, if_neg (by omega)]

/-- The slave answers a received byte with 0 (R186). -/
theorem RSlave.out_ack {e : RSlave} (h : e.ph.receiving = true) (hn : e.n = 8) : e.out = false := by
  obtain ⟨sa, reg, ph, n, sh, idx, rw, hi, msda, mscl, lb, cond⟩ := e
  dsimp only at hn
  subst hn
  cases ph <;> first | rfl | cases h

/-- A bit sent: only counted (R188). -/
theorem RSlave.slot_sending {e : RSlave} (h : e.ph = .rhi ∨ e.ph = .rlo) (hn : e.n < 8) (b : Bool) :
    e.slot b = { e with n := e.n + 1 } := by
  obtain h | h := h <;> simp [RSlave.slot, RSlave.slotSend, h, hn]

/-- Bits sent to a master that has released SDA: the slave's outputs in order (R186, R188). -/
theorem RSlave.send_some (k : Nat) {e : RSlave} (h : e.ph = .rhi ∨ e.ph = .rlo) (hb : e.BetweenSlots)
    (hr : e.msda = .released) (hn : e.n + k ≤ 8) :
    (Env.rslave e).bits k = (List.range k).map (fun j => ({ e with n := e.n + j } : RSlave).out)
      ∧ (Env.rslave e).afterPulses k = .rslave { e with n := e.n + k } := by
  induction k generalizing e with
  | zero => exact ⟨rfl, rfl⟩
  | succ k ih =>
    have h1 := RSlave.slot_sending h (by omega : e.n < 8) e.out
    have h2 := RSlave.afterPulse_released hb hr
    rw [h1] at h2
    obtain ⟨i1, i2⟩ := ih (e := { e with n := e.n + 1 }) h ⟨hb.mscl, hb.cond, hb.lb⟩ hr
      (by show e.n + 1 + k ≤ 8; omega)
    constructor
    · rw [Env.bits, h2, i1, RSlave.nextBit_released hb hr, List.range_succ_eq_map, List.map_cons, List.map_map]
      refine congrArg₂ List.cons rfl (List.map_congr_left fun j _ => ?_)
      show _ = ({ e with n := e.n + (j + 1) } : RSlave).out
      rw [Nat.add_comm j 1, ← Nat.add_assoc]
    · rw [Env.afterPulses, h2, i2]
      simp only [Nat.add_assoc, Nat.add_comm 1]

/-- The outputs of a slave that sends the high byte of its register, and of one that sends the low byte (R186). -/
theorem RSlave.outputs_rhi {e : RSlave} (h : e.ph = .rhi) :
    (List.range 8).map (fun j => ({ e with n := 0 + j } : RSlave).out) = bitsMsbFirst (hiByte (e.regAt e.idx)) := by
  obtain ⟨sa, reg, ph, n, sh, idx, rw, hi, msda, mscl, lb, cond⟩ := e
  dsimp only at h
  subst h
  have g : ∀ j, (⟨sa, reg, .rhi, j, sh, idx, rw, hi, msda, mscl, lb, cond⟩ : RSlave).out
      = if j < 8 then (RSlave.regAt ⟨sa, reg, .rhi, n, sh, idx, rw, hi, msda, mscl, lb, cond⟩ idx).getLsbD (15 - j)
        else true := fun _ => rfl
  simp only [Nat.zero_add, g, bitsMsbFirst, hiByte, List.range, List.range.loop, List.map]
  simp

theorem RSlave.outputs_rlo {e : RSlave} (h : e.ph = .rlo) :
    (List.range 8).map (fun j => ({ e with n := 0 + j } : RSlave).out) = bitsMsbFirst (loByte (e.regAt e.idx)) := by
  obtain ⟨sa, reg, ph, n, sh, idx, rw, hi, msda, mscl, lb, cond⟩ := e
  dsimp only at h
  subst h
  have g : ∀ j, (⟨sa, reg, .rlo, j, sh, idx, rw, hi, msda, mscl, lb, cond⟩ : RSlave).out
      = if j < 8 then (RSlave.regAt ⟨sa, reg, .rlo, n, sh, idx, rw, hi, msda, mscl, lb, cond⟩ idx).getLsbD (7 - j)
        else true := fun _ => rfl
  simp only [Nat.zero_add, g, bitsMsbFirst, loByte, List.range, List.range.loop, List.map]
  simp

/-! ### Bytes with their acknowledgment, phase by phase -/

/-- A byte received and acknowledged (R188). -/
theorem RSlave.after_acknowledged {e e2 : RSlave} (h : e.ph.receiving = true) (hn : e.n = 0) (hs : e.sh = 0#8)
    (hb : e.BetweenSlots) (v : Byte) (a : Bool) (he : ({ e with n := 8, sh := v } : RSlave).byteDone = e2)
    (h2 : e2.ph.receiving = true) (hn2 : e2.n = 8) (hb2 : e2.BetweenSlots) :
    (Env.rslave e).after (byteEvents v ++ recvAckEvents a)
      = .rslave { e2 with n := 0, sh := 0#8, ph := e2.afterAck, msda := .released } := by
  rw [Env.after_append, RSlave.after_byteEvents hb, RSlave.receive_byte h hn hs, he,
    RSlave.after_recvAckEvents (hb2.seen _), RSlave.slot_seen, RSlave.seen_seen, RSlave.slot_ack h2 hn2]
  rfl

theorem devByte_select : ∀ a : Addr, (devByte a).extractLsb' 1 7 = a := by decide +kernel

section Phases

variable {e : RSlave} (hn : e.n = 0) (hs : e.sh = 0#8) (hb : e.BetweenSlots)
include hn hs hb

/-- The slave's own address: it is selected (R188). -/
theorem RSlave.after_devByte (h : e.ph = .dev) (a : Bool) :
    (Env.rslave e).after (byteEvents (devByte e.sa) ++ recvAckEvents a)
      = .rslave { e with ph := .rega, msda := .released } := by
  have hd : ({ e with n := 8, sh := devByte e.sa } : RSlave).byteDone = { e with n := 8, sh := devByte e.sa } := by
    simp only [RSlave.byteDone, h, devByte_select, if_true]
  rw [RSlave.after_acknowledged (by rw [h]; rfl) hn hs hb _ a hd (by simp [h, Phase.receiving]) rfl
    ⟨hb.mscl, hb.cond, hb.lb⟩]
  simp only [RSlave.afterAck, h, hn, hs]

/-- The register-address byte: the register is selected, and its bit 0 chooses the direction (R188). -/
theorem RSlave.after_regByte (h : e.ph = .rega) (v : Byte) (a : Bool) :
    (Env.rslave e).after (byteEvents v ++ recvAckEvents a)
      = .rslave { e with
          ph := if v.getLsbD 0 then .rhi else .whi, idx := v.extractLsb' 1 7, rw := v.getLsbD 0
          msda := .released } := by
  have hd : ({ e with n := 8, sh := v } : RSlave).byteDone
      = { e with n := 8, sh := v, idx := v.extractLsb' 1 7, rw := v.getLsbD 0 } := by
    simp only [RSlave.byteDone, h]
  rw [RSlave.after_acknowledged (by rw [h]; rfl) hn hs hb _ a hd (by simp [h, Phase.receiving]) rfl
    ⟨hb.mscl, hb.cond, hb.lb⟩]
  simp only [RSlave.afterAck, h, hn, hs]

/-- The first data byte: kept (R188). -/
theorem RSlave.after_hiByte (h : e.ph = .whi) (v : Byte) (a : Bool) :
    (Env.rslave e).after (byteEvents v ++ recvAckEvents a)
      = .rslave { e with ph := .wlo, hi := v, msda := .released } := by
  have hd : ({ e with n := 8, sh := v } : RSlave).byteDone = { e with n := 8, sh := v, hi := v } := by
    simp only [RSlave.byteDone, h]
  rw [RSlave.after_acknowledged (by rw [h]; rfl) hn hs hb _ a hd (by simp [h, Phase.receiving]) rfl
    ⟨hb.mscl, hb.cond, hb.lb⟩]
  simp only [RSlave.afterAck, h, hn, hs]

/-- The second data byte: the register is written (R188). -/
theorem RSlave.after_loByte (h : e.ph = .wlo) (v : Byte) (a : Bool) :
    (Env.rslave e).after (byteEvents v ++ recvAckEvents a)
      = .rslave { e with
          ph := .ign, reg := e.reg.set e.idx.toNat (assembleValue e.hi v) e.idx.isLt, msda := .released } := by
  have hd : ({ e with n := 8, sh := v } : RSlave).byteDone
      = { e with n := 8, sh := v, reg := e.reg.set e.idx.toNat (assembleValue e.hi v) e.idx.isLt } := by
    simp only [RSlave.byteDone, h, RSlave.setReg]
  rw [RSlave.after_acknowledged (by rw [h]; rfl) hn hs hb _ a hd (by simp [h, Phase.receiving]) rfl
    ⟨hb.mscl, hb.cond, hb.lb⟩]
  simp only [RSlave.afterAck, h, hn, hs]

end Phases

/-- A byte sent and SI2CM's acknowledgment of it (R153, R188): the slave sends on after an ACK, and is done after a
NACK. -/
theorem RSlave.after_sentByte {e : RSlave} {again : Phase} (h : e.ph = .rhi ∧ again = .rlo ∨ e.ph = .rlo ∧ again = .ign)
    (hn : e.n = 0) (hb : e.BetweenSlots) {bits : List Bool} (hbits : bits.length = 8) (b : Bool) :
    (Env.rslave e).readBits 8 = bitsMsbFirst
        (if e.ph = .rhi then hiByte (e.regAt e.idx) else loByte (e.regAt e.idx))
      ∧ (Env.rslave e).after (readByteEvents bits ++ bitEvents b)
        = .rslave { e with ph := if b then .ign else again, msda := .driven b } := by
  have hph : e.ph = .rhi ∨ e.ph = .rlo := h.imp And.left And.left
  have o : (Env.rslave e).observe ⟨.sda, .released⟩ = .rslave (e.seen .released) :=
    congrArg Env.rslave (RSlave.observe_sda hb _)
  obtain ⟨g1, g2⟩ := RSlave.send_some 8 (e := e.seen .released) hph (hb.seen _) rfl
    (by rw [RSlave.seen_n, hn])
  constructor
  · rw [Env.readBits, o, g1, RSlave.seen_n, hn]
    obtain ⟨h, -⟩ | ⟨h, -⟩ := h
    · rw [if_pos h]
      exact RSlave.outputs_rhi (e := e.seen .released) h
    · rw [if_neg (by simp [h])]
      exact RSlave.outputs_rlo (e := e.seen .released) h
  · rw [Env.after_append, Env.after_readByteEvents _ hbits, o, g2]
    refine (RSlave.after_bitEvents (e := { e.seen .released with n := e.n + 8 }) ⟨hb.mscl, hb.cond, hb.lb⟩ b).trans ?_
    obtain ⟨h, rfl⟩ | ⟨h, rfl⟩ := h <;>
      simp [RSlave.slot, RSlave.slotSend, RSlave.seen, h, hn]

/-! ### START and END -/

/-- START's events on a bus the slave sees at rest: a START condition, and the slave awaits its address (R187). -/
theorem RSlave.after_startEvents {e : RSlave} (hd : e.sda = true) (hc : e.scl = true) :
    (Env.rslave e).after startEventList
      = .rslave { e with
          ph := .dev, n := 0, sh := 0#8, msda := .driven false, mscl := .driven false, lb := none, cond := false } := by
  have h : (Env.rslave e).after startEventList
      = .rslave ((((e.observe ⟨.sda, .driven true⟩).observe ⟨.scl, .driven true⟩).observe ⟨.sda, .driven false⟩).observe
          ⟨.scl, .driven false⟩) := rfl
  have h1 : e.observe ⟨.sda, .driven true⟩ = e.seen (.driven true) := by
    have hv : (e.view ⟨.sda, .driven true⟩).scl = true := hc
    simp only [RSlave.observe, hc, hd, hv]
    rfl
  have h2 : (e.seen (.driven true)).observe ⟨.scl, .driven true⟩
      = { e with msda := .driven true, mscl := .driven true } := by
    have hv : (e.seen (.driven true)).scl = true := hc
    simp only [RSlave.observe, hv]
    rfl
  rw [h, h1, h2]
  obtain ⟨sa, reg, ph, n, sh, idx, rw, hi, msda, mscl, lb, cond⟩ := e
  cases lb <;> rfl

/-- END's events: a STOP condition, and the slave is idle (R187). -/
theorem RSlave.after_endEvents {e : RSlave} (h : e.BetweenSlots) :
    ∃ e', (Env.rslave e).after endEventList = .rslave e' ∧ e'.ph = .idle ∧ e'.reg = e.reg ∧ e'.sa = e.sa
      ∧ e'.sda = true ∧ e'.scl = true := by
  obtain ⟨sa, reg, ph, n, sh, idx, rw, hi, msda, mscl, lb, cond⟩ := e
  obtain ⟨h1, h2, h3⟩ := h
  dsimp only at h1 h2 h3
  subst h1 h2 h3
  exact ⟨_, rfl, rfl, rfl, rfl, rfl, rfl⟩

end Sys2Proof.Machine
end

