-- ==== Sys2Proof/Laws/PerInstr.lean ====
section
/-! SUPPORT. Per command: the word the encoder writes by the command's format (30_encoding.md rule R81) is covered by
the command's own row of the opcode table (R83). -/

namespace Sys2Proof.Laws.EncodingRow

open Sys2Proof

/-- The row of the opcode table with the command's opcode covers the command's word. -/
def Statement (i : Instr) : Prop := ∃ row ∈ opcodeTable, row.op = i.op ∧ row.covers (encode i) = true

theorem configure (a : Addr) (d c : LineId) : Statement (.configure a d c) := by
  refine ⟨⟨.configure, 0x10000000#32, 0xFF000080#32⟩, by simp [opcodeTable], rfl, ?_⟩
  simp only [OpcodeRow.covers, encode, formatC, place, Op.code, beq_iff_eq]
  refine BitVec.eq_of_getLsbD_eq fun i hi => ?_
  interval_cases i <;> simp

theorem start (a : Addr) : Statement (.start a) := by
  refine ⟨⟨.start, 0x20000000#32, 0xFFFFFF80#32⟩, by simp [opcodeTable], rfl, ?_⟩
  simp only [OpcodeRow.covers, encode, formatA, place, Op.code, beq_iff_eq]
  refine BitVec.eq_of_getLsbD_eq fun i hi => ?_
  interval_cases i <;> simp

theorem endTxn : Statement .endTxn := ⟨⟨.endTxn, 0x30000000#32, 0xFFFFFFFF#32⟩, by simp [opcodeTable], rfl, rfl⟩

theorem sendAck : Statement .sendAck := ⟨⟨.sendAck, 0x40000000#32, 0xFFFFFFFF#32⟩, by simp [opcodeTable], rfl, rfl⟩

theorem sendNack : Statement .sendNack := ⟨⟨.sendNack, 0x50000000#32, 0xFFFFFFFF#32⟩, by simp [opcodeTable], rfl, rfl⟩

theorem recvAck : Statement .recvAck := ⟨⟨.recvAck, 0x60000000#32, 0xFFFFFFFF#32⟩, by simp [opcodeTable], rfl, rfl⟩

theorem writeByte (v : Byte) : Statement (.writeByte v) := by
  refine ⟨⟨.writeByte, 0x70000000#32, 0xFFFFFF00#32⟩, by simp [opcodeTable], rfl, ?_⟩
  simp only [OpcodeRow.covers, encode, formatB, place, Op.code, beq_iff_eq]
  refine BitVec.eq_of_getLsbD_eq fun i hi => ?_
  interval_cases i <;> simp

theorem readByte : Statement .readByte := ⟨⟨.readByte, 0x80000000#32, 0xFFFFFFFF#32⟩, by simp [opcodeTable], rfl, rfl⟩

theorem writeReg (r : RegIndex) (v : Value) : Statement (.writeReg r v) := by
  refine ⟨⟨.writeReg, 0x90000000#32, 0xFF800000#32⟩, by simp [opcodeTable], rfl, ?_⟩
  simp only [OpcodeRow.covers, encode, formatW, place, Op.code, beq_iff_eq]
  refine BitVec.eq_of_getLsbD_eq fun i hi => ?_
  interval_cases i <;> simp

theorem readReg (r : RegIndex) : Statement (.readReg r) := by
  refine ⟨⟨.readReg, 0xA0000000#32, 0xFF80FFFF#32⟩, by simp [opcodeTable], rfl, ?_⟩
  simp only [OpcodeRow.covers, encode, formatR, place, Op.code, beq_iff_eq]
  refine BitVec.eq_of_getLsbD_eq fun i hi => ?_
  interval_cases i <;> simp

theorem requestRead (a : Addr) (n : Count) : Statement (.requestRead a n) := by
  refine ⟨⟨.requestRead, 0xB0000000#32, 0xFFFF0080#32⟩, by simp [opcodeTable], rfl, ?_⟩
  simp only [OpcodeRow.covers, encode, formatQ, place, Op.code, beq_iff_eq]
  refine BitVec.eq_of_getLsbD_eq fun i hi => ?_
  interval_cases i <;> simp

end Sys2Proof.Laws.EncodingRow
end

