-- ==== Sys2Proof/Laws/Sequencer.lean ====
section
/-! SUPPORT. A program cut at its pin events: the pieces the sequencer performs one step at a time put the program
together again (10_state.md rules R30, R31). -/

namespace Sys2Proof.Machine

open Sys2Proof

theorem eventCount_cons (op : MicroOp) (p : Program) :
    eventCount (op :: p) = (if op.isEvent then 1 else 0) + eventCount p := by
  simp only [eventCount, List.countP_cons]
  omega

@[simp] theorem afterEvents_zero (p : Program) : afterEvents 0 p = p := by cases p <;> rfl

/-- The piece with the next event, then the rest: the program. -/
theorem throughEvent_append_afterEvents (p : Program) : throughEvent p ++ afterEvents 1 p = p := by
  induction p with
  | nil => rfl
  | cons op p ih =>
    rw [throughEvent, afterEvents]
    split
    · rw [afterEvents_zero]
      rfl
    · rw [List.cons_append, ih]

theorem afterEvents_succ (k : Nat) (p : Program) : afterEvents (k + 1) p = afterEvents 1 (afterEvents k p) := by
  induction p generalizing k with
  | nil => cases k <;> rfl
  | cons op p ih =>
    cases k with
    | zero => rw [afterEvents_zero]
    | succ k =>
      by_cases h : op.isEvent = true
      · simp only [afterEvents, if_pos h]
        exact ih k
      · simp only [afterEvents, if_neg h]
        exact ih (k + 1)

/-- What is left at position `k` is the piece of one event and what is left at `k + 1` (R31). -/
theorem afterEvents_split (k : Nat) (p : Program) :
    afterEvents k p = throughEvent (afterEvents k p) ++ afterEvents (k + 1) p := by
  rw [afterEvents_succ, throughEvent_append_afterEvents]

theorem eventCount_afterEvents (k : Nat) (p : Program) : eventCount (afterEvents k p) = eventCount p - k := by
  induction p generalizing k with
  | nil => cases k <;> simp [afterEvents, eventCount]
  | cons op p ih =>
    cases k with
    | zero => rw [afterEvents_zero, Nat.sub_zero]
    | succ k =>
      rw [afterEvents, eventCount_cons]
      split
      · rw [ih]; omega
      · rw [ih]; omega

/-- A sequencer step's piece emits exactly one event while one is left (R31). -/
theorem eventCount_throughEvent {p : Program} (h : 0 < eventCount p) : eventCount (throughEvent p) = 1 := by
  induction p with
  | nil => cases h
  | cons op p ih =>
    rw [throughEvent]
    split
    · next he => simp [eventCount, he]
    · next he =>
      rw [eventCount_cons, if_neg he, Nat.zero_add] at h ⊢
      exact ih h

/-- What is done before position `k`: it holds `k` events and is empty or ends in one (R30). -/
theorem exists_append_afterEvents {k : Nat} {p : Program} (h : k ≤ eventCount p) :
    ∃ pre, p = pre ++ afterEvents k p ∧ eventCount pre = k ∧ ∀ o ∈ pre.getLast?, o.isEvent = true := by
  induction p generalizing k with
  | nil =>
    obtain rfl : k = 0 := Nat.le_zero.mp h
    exact ⟨[], rfl, rfl, by simp⟩
  | cons op p ih =>
    cases k with
    | zero => exact ⟨[], by simp, rfl, by simp⟩
    | succ k =>
      rw [eventCount_cons] at h
      by_cases he : op.isEvent = true
      · obtain ⟨pre, h1, h2, h3⟩ := ih (k := k) (by simp only [he, if_true] at h; omega)
        refine ⟨op :: pre, by simp [afterEvents, he, ← h1], by simp [eventCount_cons, he, h2, Nat.add_comm], ?_⟩
        cases pre with
        | nil => simpa using he
        | cons q pre => simpa [List.getLast?_cons_cons] using h3
      · obtain ⟨pre, h1, h2, h3⟩ := ih (k := k + 1) (by simpa [he] using h)
        refine ⟨op :: pre, by simp [afterEvents, he, ← h1], by simp [eventCount_cons, he, h2], ?_⟩
        cases pre with
        | nil => cases h2
        | cons q pre => simpa [List.getLast?_cons_cons] using h3

/-- A sequencer step's piece: register writes, then the line of its event (R31). -/
theorem throughEvent_eq {p : Program} (h : 0 < eventCount p) :
    ∃ writes op, throughEvent p = writes ++ [op] ∧ op.isEvent = true ∧ ∀ w ∈ writes, w.isEvent = false := by
  induction p with
  | nil => cases h
  | cons op p ih =>
    by_cases he : op.isEvent = true
    · exact ⟨[], op, by simp [throughEvent, he], he, nofun⟩
    · obtain ⟨writes, q, h1, h2, h3⟩ := ih (by simpa [eventCount_cons, he] using h)
      exact ⟨op :: writes, q, by simp [throughEvent, he, h1], h2, by simpa [he] using h3⟩

/-- A line emits an event in a state exactly when it is an event's line (R30). -/
theorem MicroOp.isSome_eventIn (op : MicroOp) (s : State) : (op.eventIn s).isSome = op.isEvent := by cases op <;> rfl

/-- An event's line appends its event, with the wire levels it finds and leaves, to the trace (R50). -/
theorem MicroOp.apply_trace_of_eventIn {op : MicroOp} {s : State} {e : Event} (h : op.eventIn s = some e) :
    (op.apply s).trace = s.trace ++ [⟨e, s.levels, (op.apply s).levels⟩] := by
  cases op <;> cases h <;> rfl

/-- Register writes leave the trace as it is (R50). -/
theorem runProgram_trace_of_writes {p : Program} (h : ∀ w ∈ p, w.isEvent = false) (s : State) :
    (runProgram p s).trace = s.trace := by
  induction p generalizing s with
  | nil => rfl
  | cons w p ih =>
    rw [runProgram_cons, ih fun x hx => h x (List.mem_cons_of_mem w hx)]
    have hw := h w List.mem_cons_self
    cases w <;> first | rfl | cases hw

end Sys2Proof.Machine
end

