-- ==== Sys2Proof/Tests/Slice0.lean ====
section
/-! SUPPORT. Tests: expected values are the spec's own (30_encoding.md R84, 95_test_vectors.md V10 to V52), and a
witness for the hypotheses of every statement that has some. -/

namespace Sys2Proof.Tests

open Sys2Proof Sys2Proof.Machine

/-! ### Small states -/

/-- A block nothing has been done to, with every unspecified register 0, in environment `e`. -/
def blank (e : Env) : State :=
  ⟨⟨0#7, 0#8, 0#8, false⟩, ⟨0#7, 0#8, false⟩, false, 0#8, 0#4, 0#8, .idle, Vector.replicate 256 ⟨.input, false⟩, e, [],
    [], []⟩

/-- After `CONFIGURE 0x21, 4, 5` (V16). -/
def ready (e : Env) : State := { blank e with cfg := ⟨0x21#7, 4#8, 5#8, true⟩ }

/-- Inside a transaction: both lines driven low, as START leaves them (V20). -/
def opened (e : Env) : State :=
  { ready e with inTxn := true, pins := (ready e).pinsWith ⟨.output, false⟩ ⟨.output, false⟩ }

/-- The reference slave at address 0x21 with `REG[8] = v`, from its initial state (R185). -/
def slave (v : Value) : RSlave := RSlave.init 0x21#7 ((Vector.replicate 128 0#16).set 8 v) 0#7 false 0#8

/-- What `f` says of the state a command leaves, none where it leaves none. -/
def after {α : Type} (r : Result) (f : State → α) : Option α :=
  match r with
  | .next t => some (f t)
  | .fault _ => none
  | .refused _ => none

/-- The refusal a command ends in, if it does. -/
def refusal (r : Result) : Option Refusal :=
  match r with
  | .refused q => some q
  | .next _ => none
  | .fault _ => none

/-- The bits of a number, most significant of `n` first, as slot symbols: how the vectors write them. -/
def slots (n v : Nat) : List Symbol := (List.range n).map fun k => .bit (v.testBit (n - 1 - k))

/-- `REG[8]` of the reference slave. -/
def reg8 (s : State) : Option Value :=
  match s.env with
  | .rslave e => some (e.regAt 8#7)
  | .any _ _ => none
  | .noSlave => none

/-! ### Assembly lines that are refused (R97), one for each check -/

theorem test_asm_configure_addr : (AsmLine.configure 128 4 5).assemble = none := by decide
theorem test_asm_configure_sda : (AsmLine.configure 0x21 256 5).assemble = none := by decide
theorem test_asm_configure_scl : (AsmLine.configure 0x21 4 256).assemble = none := by decide
theorem test_asm_start_addr : (AsmLine.start 0x80).assemble = none := by decide
theorem test_asm_writeByte_value : (AsmLine.writeByte 256).assemble = none := by decide
theorem test_asm_writeReg_reg : (AsmLine.writeReg 128 0).assemble = none := by decide
theorem test_asm_writeReg_value : (AsmLine.writeReg 8 0x10000).assemble = none := by decide
theorem test_asm_readReg_reg : (AsmLine.readReg 128).assemble = none := by decide
theorem test_asm_requestRead_addr : (AsmLine.requestRead 128 2).assemble = none := by decide
theorem test_asm_requestRead_count : (AsmLine.requestRead 0x21 256).assemble = none := by decide
theorem test_asm_fits : (AsmLine.configure 127 0 255).assemble = some (.configure 0x7F#7 0#8 255#8) := by decide

/-! ### Command words (R84, V10, V11) -/

theorem test_word_configure : decode 0x10050421#32 = .command (.configure 0x21#7 4#8 5#8) := by decide
theorem test_word_configure_edges : decode 0x10FF007F#32 = .command (.configure 0x7F#7 0#8 255#8) := by decide
theorem test_word_start : decode 0x2000007F#32 = .command (.start 0x7F#7) := by decide
theorem test_word_end : decode 0x30000000#32 = .command .endTxn := by decide
theorem test_word_sendAck : decode 0x40000000#32 = .command .sendAck := by decide
theorem test_word_sendNack : decode 0x50000000#32 = .command .sendNack := by decide
theorem test_word_recvAck : decode 0x60000000#32 = .command .recvAck := by decide
theorem test_word_writeByte : decode 0x700000B0#32 = .command (.writeByte 0xB0#8) := by decide
theorem test_word_readByte : decode 0x80000000#32 = .command .readByte := by decide
theorem test_word_writeReg : decode 0x9055A55A#32 = .command (.writeReg 0x55#7 0xA55A#16) := by decide
theorem test_word_readReg : decode 0xA07F0000#32 = .command (.readReg 0x7F#7) := by decide
theorem test_word_requestRead : decode 0xB0000733#32 = .command (.requestRead 0x33#7 7#8) := by decide

/-- The illegal words of V11 whose opcode is reserved. -/
theorem test_illegal_opcodes :
    [0x00000000#32, 0xFFFFFFFF#32, 0xC0000000#32, 0xD0000000#32, 0xE0000000#32, 0xF0000000#32, 0x00000021#32].map decode
      = [0x0#4, 0xF#4, 0xC#4, 0xD#4, 0xE#4, 0xF#4, 0x0#4].map fun op => .illegal (.reservedOpcode op) := by decide

/-- The illegal words of V11 with a reserved bit. -/
theorem test_illegal_bits :
    [0x20000080#32, 0x20000100#32, 0x21000021#32, 0x30000001#32, 0x60000001#32, 0x70000100#32, 0x80000001#32,
        0x10050481#32, 0x11050421#32, 0x90881234#32, 0xA0080001#32, 0xA0800000#32, 0xB0010221#32, 0xB00002A1#32].map decode
      = [0x2#4, 0x2#4, 0x2#4, 0x3#4, 0x6#4, 0x7#4, 0x8#4, 0x1#4, 0x1#4, 0x9#4, 0xA#4, 0xA#4, 0xB#4, 0xB#4].map
          fun op => .illegal (.reservedBitSet op) := by decide

theorem test_table_word : decodeTableWord 32 0x90081234 = some (.writeReg 0x08#7 0x1234#16) := by decide
theorem test_encode_requestRead : encode (.requestRead 0x7F#7 255#8) = 0xB000FF7F#32 := by decide

/-! ### Bytes on the wire (V12, V13, V14) -/

theorem test_regByte : (regByteW 0x55#7, regByteR 0x55#7) = (0xAA#8, 0xAB#8) := by decide
theorem test_devByte : (devByte 0x21#7, devByte 0x7F#7) = (0x42#8, 0xFE#8) := by decide
theorem test_value_split : (hiByte 0x8001#16, loByte 0x8001#16) = (0x80#8, 0x01#8) := by decide

/-! ### The commands -/

/-- V16. -/
theorem test_configure :
    after (exec (.configure 0x21#7 4#8 5#8) (blank .noSlave))
        (fun t => ((t.cfg, t.inTxn, t.pend.valid), ((t.pin 4#8).dir, (t.pin 5#8).dir), t.responses, t.trace))
      = some ((⟨0x21#7, 4#8, 5#8, true⟩, false, false), (.input, .input), [0x00000000#32], []) := by decide

/-- V18, second half. -/
theorem test_requestRead :
    after (exec (.requestRead 0x33#7 0#8) (blank .noSlave)) (fun t => (t.pend, t.cfg.configured, t.responses, t.trace))
      = some (⟨0x33#7, 0#8, true⟩, false, [0x00000000#32], []) := by decide

/-- V20. -/
theorem test_start :
    after (exec (.start 0x21#7) (ready .noSlave))
        (fun t => ((eventsSince (ready .noSlave) t, symbolsSince (ready .noSlave) t), (t.inTxn, t.responses),
          t.pin 4#8, t.pin 5#8))
      = some (([.drv .sda true, .dly, .drv .scl true, .dly, .drv .sda false, .dly, .drv .scl false, .dly], [.S]),
          (true, [0x00000000#32]), ⟨.output, false⟩, ⟨.output, false⟩) := by decide

/-- V40 (R173): nothing but the response, and the operand is not recorded. -/
theorem test_start_unconfigured :
    after (exec (.start 0x21#7) (blank .noSlave)) (fun t => (t.cfg.slaveAddr, t.inTxn, t.responses, t.trace))
      = some (0#7, false, [0x10000000#32], []) := by decide

/-- V21. -/
theorem test_end :
    after (exec .endTxn (opened .noSlave))
        (fun t => (eventsSince (opened .noSlave) t, symbolsSince (opened .noSlave) t, t.inTxn, t.pin 4#8, t.pin 5#8))
      = some ([.drv .sda false, .dly, .drv .scl true, .dly, .drv .sda true, .dly], [.P], false, ⟨.output, true⟩,
          ⟨.output, true⟩) := by decide

/-- V22. -/
theorem test_writeByte :
    after (exec (.writeByte 0xB0#8) (opened .noSlave))
        (fun t => ((eventsSince (opened .noSlave) t).length, symbolsSince (opened .noSlave) t, t.pin 4#8, t.pin 5#8,
          t.shift, t.bitcnt))
      = some (48, slots 8 0xB0, ⟨.output, false⟩, ⟨.output, false⟩, 0#8, 8#4) := by decide +kernel

/-- V24, last part: SDA is left at bit 0. -/
theorem test_writeByte_last_bit :
    after (exec (.writeByte 0x01#8) (opened .noSlave)) (fun t => (symbolsSince (opened .noSlave) t, t.pin 4#8))
      = some (slots 8 0x01, ⟨.output, true⟩) := by decide +kernel

/-- V26: the empty bus. -/
theorem test_readByte :
    after (exec .readByte (opened .noSlave))
        (fun t => ((eventsSince (opened .noSlave) t).length, (t.pin 4#8).dir, t.pin 5#8, t.responses))
      = some (42, .input, ⟨.output, false⟩, [0x000000FF#32]) := by decide +kernel

/-- T4, V25: a slave that drives 1,0,0,0,0,0,0,1, as in P2. -/
theorem test_readByte_order :
    after (exec .readByte (opened (.rslave { slave 0x81A5#16 with
        ph := .rhi, idx := 8#7, msda := .driven false, mscl := .driven false }))) (fun t => (t.shift, t.responses))
      = some (0x81#8, [0x00000081#32]) := by decide +kernel

/-- V27. -/
theorem test_sendAck :
    after (exec .sendAck (opened .noSlave))
        (fun t => (eventsSince (opened .noSlave) t, symbolsSince (opened .noSlave) t, t.pin 4#8, t.responses))
      = some ([.drv .sda false, .dly, .drv .scl true, .dly, .drv .scl false, .dly], [.bit false], ⟨.output, false⟩,
          [0x00000000#32]) := by decide

/-- V28. -/
theorem test_sendNack :
    after (exec .sendNack (opened .noSlave))
        (fun t => (eventsSince (opened .noSlave) t, symbolsSince (opened .noSlave) t, t.pin 4#8, t.responses))
      = some ([.drv .sda true, .dly, .drv .scl true, .dly, .drv .scl false, .dly], [.bit true], ⟨.output, true⟩,
          [0x00000000#32]) := by decide

/-- V29: no slave, the sample is 1. -/
theorem test_recvAck_nobody :
    after (exec .recvAck (opened .noSlave))
        (fun t => (eventsSince (opened .noSlave) t, symbolsSince (opened .noSlave) t, t.pin 4#8, t.responses))
      = some ([.rel .sda, .dly, .drv .scl true, .dly, .smp .sda true, .drv .scl false, .dly], [.bit true],
          ⟨.input, false⟩, [0x00000001#32]) := by decide

/-- V29: a slave that has received its address, the sample is 0. -/
theorem test_recvAck_slave :
    after (exec .recvAck (opened (.rslave { slave 0#16 with
        ph := .dev, n := 8, sh := 0x42#8, msda := .driven false, mscl := .driven false }))) (fun t => t.responses)
      = some [0x00000000#32] := by decide

/-- V30: the source's scenario, write half. -/
theorem test_writeReg :
    after (exec (.writeReg 0x08#7 0x1234#16) (ready (.rslave (slave 0#16))))
        (fun t => ((eventsSince (ready (.rslave (slave 0#16))) t).length,
          symbolsSince (ready (.rslave (slave 0#16))) t, reg8 t, t.inTxn, t.responses))
      = some (234, [.S] ++ slots 9 0x84 ++ slots 9 0x20 ++ slots 9 0x24 ++ slots 9 0x68 ++ [.P], some 0x1234#16, false,
          [0x00000000#32]) := by decide +kernel

/-- V31: the source's scenario, read half. -/
theorem test_readReg :
    after (exec (.readReg 0x08#7) (ready (.rslave (slave 0x1234#16))))
        (fun t => ((eventsSince (ready (.rslave (slave 0x1234#16))) t).length,
          symbolsSince (ready (.rslave (slave 0x1234#16))) t, reg8 t, t.responses))
      = some (220, [.S] ++ slots 9 0x84 ++ slots 9 0x22 ++ slots 9 0x24 ++ slots 9 0x69 ++ [.P], some 0x1234#16,
          [0x00001234#32]) := by decide +kernel

/-- V35: on the empty bus the read answers 0xFFFF. -/
theorem test_readReg_nobody :
    after (exec (.readReg 0x08#7) (ready .noSlave)) (fun t => t.responses) = some [0x0000FFFF#32] := by decide +kernel

/-- V42: an illegal word before any other check. -/
theorem test_illegal_first :
    after (step { blank .noSlave with commands := [0x20000080#32] }) (fun t => (t.responses, t.commands))
      = some ([0x20000000#32], []) := by decide

/-- V43: an illegal word does not disturb an open transaction. -/
theorem test_illegal_in_transaction :
    after (step { opened .noSlave with commands := [0x00000000#32] }) (fun t => (t.responses, t.inTxn, t.pin 4#8, t.trace))
      = some ([0x20000000#32], true, ⟨.output, false⟩, []) := by decide

/-! ### Commands with no meaning (V44, R210) -/

theorem test_refused_end : refusal (exec .endTxn (blank .noSlave)) = some .noTransaction := by decide
theorem test_refused_writeByte : refusal (exec (.writeByte 0x42#8) (blank .noSlave)) = some .noTransaction := by decide
theorem test_refused_recvAck : refusal (exec .recvAck (ready .noSlave)) = some .noTransaction := by decide
theorem test_refused_start : refusal (exec (.start 0x21#7) (opened .noSlave)) = some .transactionOpen := by decide
theorem test_refused_writeReg :
    refusal (exec (.writeReg 8#7 0x1234#16) (opened .noSlave)) = some .transactionOpen := by decide
theorem test_refused_readReg : refusal (exec (.readReg 8#7) (opened .noSlave)) = some .transactionOpen := by decide
theorem test_refused_configure :
    refusal (exec (.configure 0x21#7 4#8 5#8) (opened .noSlave)) = some .configureInTransaction := by decide
theorem test_refused_same_line :
    refusal (exec (.start 0x21#7) { ready .noSlave with cfg := ⟨0x21#7, 4#8, 4#8, true⟩ }) = some .sameLine := by decide

/-! ### The step -/

theorem test_withFetchWord :
    after (step (State.reset.withFetchWord 32 0xB0000221)) (fun t => (t.pend, t.responses, t.commands))
      = some (⟨0x21#7, 2#8, true⟩, [0x00000000#32], []) := by decide

/-- R31: event number 2 of START is `DRV(SCL, 1)`. -/
theorem test_sequencer_event :
    after (step { ready .noSlave with seq := .run (.start 0x21#7) 2 false })
        (fun t => (t.seq, eventsSince (ready .noSlave) t, t.responses))
      = some (.run (.start 0x21#7) 3 false, [.drv .scl true], []) := by decide

/-- R31: after its last event START sets `IN_TXN` and gives its response. -/
theorem test_sequencer_end :
    after (step { ready .noSlave with seq := .run (.start 0x21#7) 8 false })
        (fun t => (t.seq, t.inTxn, t.trace, t.responses))
      = some (.idle, true, [], [0x00000000#32]) := by decide

/-! ### Witnesses: concrete states and operands that meet the hypotheses of each statement -/

theorem witness_EncodeOfDecode : decode 0x90081234#32 = .command (.writeReg 0x08#7 0x1234#16) := by decide

theorem witness_OpcodeRowsDisjoint :
    (⟨.start, 0x20000000#32, 0xFFFFFF80#32⟩ : OpcodeRow) ∈ opcodeTable
      ∧ 0x20000021#32 &&& 0xFFFFFF80#32 = 0x20000000#32 := by decide

theorem witness_IllegalIffReserved :
    (∀ r ∈ opcodeTable, 0x20000080#32 &&& r.mask ≠ r.pattern) ∧ opField 0x20000080#32 = Op.start.code
      ∧ opField 0xC0000000#32 = 0xC#4 := by decide

theorem witness_AssemblyIsFaithful : (AsmLine.requestRead 127 255).assemble = some (.requestRead 0x7F#7 255#8) := by
  decide

theorem witness_ShifterLaws : [true, false, false, false, false, false, false, true].length = 8 := by decide

theorem witness_DriveEstablishesLevel : (5#8 : LineId) ≠ (ready .noSlave).lineId .sda := by decide
theorem witness_ReleaseGivesTheLineAway : (5#8 : LineId) ≠ (ready .noSlave).lineId .sda := by decide

theorem witness_SampleYieldsTheWire :
    ((ready .noSlave).pin ((ready .noSlave).lineId .sda)).dir = .input
      ∧ ({ opened .noSlave with seq := .run .recvAck 4 false } : State).seq = .run .recvAck 4 false := by decide

theorem witness_ConfigureRecords :
    0x10FF007F#32 &&& 0xFF000080#32 = 0x10000000#32 ∧ (blank .noSlave).inTxn = false := by decide
theorem witness_RequestReadRecords : 0xB000FF7F#32 &&& 0xFFFF0080#32 = 0xB0000000#32 := by decide
theorem witness_StartSequence :
    0x2000007F#32 &&& 0xFFFFFF80#32 = 0x20000000#32 ∧ (blank .noSlave).cfg.configured = false
      ∧ (ready .noSlave).canOpen := by decide
theorem witness_EndSequence :
    0x30000000#32 &&& 0xFFFFFFFF#32 = 0x30000000#32 ∧ (opened .noSlave).canTransfer := by decide
theorem witness_WriteByteSequence :
    0x700000FF#32 &&& 0xFFFFFF00#32 = 0x70000000#32 ∧ (opened .noSlave).canTransfer := by decide
theorem witness_ReadByteSequence :
    0x80000000#32 &&& 0xFFFFFFFF#32 = 0x80000000#32 ∧ (opened .noSlave).canTransfer := by decide
theorem witness_SendAckSequence :
    0x40000000#32 &&& 0xFFFFFFFF#32 = 0x40000000#32 ∧ (opened .noSlave).canTransfer := by decide
theorem witness_SendNackSequence :
    0x50000000#32 &&& 0xFFFFFFFF#32 = 0x50000000#32 ∧ (opened .noSlave).canTransfer := by decide
theorem witness_RecvAckSequence :
    0x60000000#32 &&& 0xFFFFFFFF#32 = 0x60000000#32 ∧ (opened .noSlave).canTransfer := by decide
theorem witness_WriteRegSequence :
    0x907FFFFF#32 &&& 0xFF800000#32 = 0x90000000#32 ∧ (blank .noSlave).cfg.configured = false
      ∧ (ready .noSlave).canOpen := by decide
theorem witness_ReadRegSequence :
    0xA07F0000#32 &&& 0xFF80FFFF#32 = 0xA0000000#32 ∧ (blank .noSlave).cfg.configured = false
      ∧ (ready .noSlave).canOpen := by decide
theorem witness_WriteRegIsTenPrimitives : (ready (.any 0 [])).canOpen ∧ (ready (.any 0 [])).seq = .idle := by decide
theorem witness_ReadRegIsTenPrimitives : (ready (.any 0 [])).canOpen ∧ (ready (.any 0 [])).seq = .idle := by decide
theorem witness_WriteRegIgnoresAcknowledgments : (ready (.any 0 [])).canOpen := by decide
theorem witness_RecvAckBitIsResponseOnly : (opened (.any 0 [])).canTransfer := by decide

theorem witness_MeaningIffLegalOrder :
    (ready .noSlave).mayRun (.start 0#7) ∧ (opened .noSlave).mayRun .endTxn
      ∧ ((Instr.readReg 0#7).opens = true ∧ (blank .noSlave).cfg.configured = false) := by
  simp [State.mayRun]
  decide

/-- The two states of the last two clauses: the same line twice, outside and inside a transaction. -/
def oneLine (txn : Bool) : State := { ready .noSlave with cfg := ⟨0x21#7, 4#8, 4#8, true⟩, inTxn := txn }

theorem witness_NoMeaningIsRefused :
    ((Instr.start 0#7).opens = true ∧ (opened .noSlave).cfg.configured = true ∧ (opened .noSlave).inTxn = true)
      ∧ (Instr.endTxn.emits = true ∧ Instr.endTxn.opens = false ∧ (blank .noSlave).cfg.configured = false)
      ∧ (ready .noSlave).inTxn = false
      ∧ ((oneLine false).cfg.configured = true ∧ (oneLine false).inTxn = false
          ∧ (oneLine false).cfg.sdaLine = (oneLine false).cfg.sclLine)
      ∧ ((oneLine true).cfg.configured = true ∧ (oneLine true).inTxn = true
          ∧ (oneLine true).cfg.sdaLine = (oneLine true).cfg.sclLine) := by decide

theorem witness_IllegalWordRaises :
    ({ blank .noSlave with commands := [0xFFFFFFFF#32] } : State).seq = .idle
      ∧ ∀ r ∈ opcodeTable, 0xFFFFFFFF#32 &&& r.mask ≠ r.pattern := by decide

/-- Every command answers next somewhere: where the statements about `exec i s = next t` start from. -/
theorem witness_every_command_answers :
    (∃ t, exec (.configure 0x7F#7 0#8 255#8) (blank .noSlave) = .next t)
      ∧ (∃ t, exec (.requestRead 0#7 0#8) (opened .noSlave) = .next t)
      ∧ (∃ t, exec (.start 0x7F#7) (ready .noSlave) = .next t)
      ∧ (∃ t, exec .endTxn (opened .noSlave) = .next t)
      ∧ (∃ t, exec .sendAck (opened .noSlave) = .next t)
      ∧ (∃ t, exec .sendNack (opened .noSlave) = .next t)
      ∧ (∃ t, exec .recvAck (opened .noSlave) = .next t)
      ∧ (∃ t, exec (.writeByte 0xFF#8) (opened .noSlave) = .next t)
      ∧ (∃ t, exec .readByte (opened .noSlave) = .next t)
      ∧ (∃ t, exec (.writeReg 127#7 0xFFFF#16) (ready .noSlave) = .next t)
      ∧ (∃ t, exec (.readReg 127#7) (ready .noSlave) = .next t) := by
  have h1 : (ready .noSlave).canOpen := by decide
  have h2 : (opened .noSlave).canTransfer := by decide
  refine ⟨⟨_, exec_of_mayRun ?_⟩, ⟨_, exec_of_mayRun trivial⟩, ⟨_, exec_of_mayRun h1⟩, ⟨_, exec_of_mayRun h2⟩,
    ⟨_, exec_of_mayRun h2⟩, ⟨_, exec_of_mayRun h2⟩, ⟨_, exec_of_mayRun h2⟩, ⟨_, exec_of_mayRun h2⟩,
    ⟨_, exec_of_mayRun h2⟩, ⟨_, exec_of_mayRun h1⟩, ⟨_, exec_of_mayRun h1⟩⟩
  exact (rfl : (blank .noSlave).inTxn = false)

theorem witness_ConfigurationErrorIff :
    (∃ t, exec (.readReg 127#7) (blank .noSlave) = .next t) ∧ (blank .noSlave).cfg.configured = false
      ∧ ∃ t, exec (.readReg 127#7) (ready .noSlave) = .next t :=
  ⟨⟨_, exec_of_unconfigured rfl rfl⟩, rfl, witness_every_command_answers.2.2.2.2.2.2.2.2.2.2⟩

theorem witness_OneResponsePerCommand : ∃ t, exec .recvAck (opened .noSlave) = .next t :=
  witness_every_command_answers.2.2.2.2.2.2.1

theorem witness_EventCountsByOpcode :
    (∃ t, exec (.start 0#7) (blank .noSlave) = .next t)
      ∧ (∃ t, exec (.writeReg 127#7 0xFFFF#16) (ready .noSlave) = .next t) :=
  ⟨⟨_, exec_of_unconfigured rfl rfl⟩, witness_every_command_answers.2.2.2.2.2.2.2.2.2.1⟩

theorem witness_RegisterCommandCensus :
    (ready .noSlave).canOpen ∧ (ready .noSlave).wire .sda = true := by decide
theorem witness_MinimumDuration : (ready .noSlave).canOpen := by decide

theorem witness_OneDelayPerTransition : ∃ t, exec .readByte (opened .noSlave) = .next t :=
  witness_every_command_answers.2.2.2.2.2.2.2.2.1

/-- The trace of RECV_ACK cut at its sample and, for the other clause, at its release. -/
theorem witness_OnlySdaReleasedAndSampled :
    (∃ t p, exec .recvAck (opened .noSlave) = .next t
        ∧ traceSince (opened .noSlave) t = (traceSince (opened .noSlave) t).take 4 ++ p :: (traceSince (opened .noSlave) t).drop 5
        ∧ p.event = .smp .sda true)
      ∧ ∃ t p, exec .recvAck (opened .noSlave) = .next t
        ∧ traceSince (opened .noSlave) t = [] ++ p :: (traceSince (opened .noSlave) t).drop 1
        ∧ p.event = .rel .sda := by
  have h : exec .recvAck (opened .noSlave) = .next ((opened .noSlave).completed .recvAck) :=
    exec_of_mayRun (by simp only [State.mayRun]; decide)
  exact ⟨⟨_, ⟨.smp .sda true, ⟨true, true⟩, ⟨true, true⟩⟩, h, by decide, rfl⟩,
    _, ⟨.rel .sda, ⟨false, false⟩, ⟨true, false⟩⟩, h, by decide, rfl⟩

theorem witness_EnvironmentObservesEveryDrive : ∃ t, exec .recvAck (opened .noSlave) = .next t :=
  witness_every_command_answers.2.2.2.2.2.2.1

theorem witness_OtherLinesUntouched :
    (∃ t, exec .endTxn (opened .noSlave) = .next t) ∧ (255#8 : LineId) ≠ (opened .noSlave).cfg.sdaLine
      ∧ (255#8 : LineId) ≠ (opened .noSlave).cfg.sclLine :=
  ⟨witness_every_command_answers.2.2.2.1, by decide, by decide⟩

theorem witness_FlagsChangeOnlyAsListed :
    (∃ t, exec (.start 0x7F#7) (ready .noSlave) = .next t) ∧ (ready .noSlave).cfg.configured = true
      ∧ (∃ t, exec .endTxn (opened .noSlave) = .next t)
      ∧ ∃ t, exec (.requestRead 0#7 0#8) (opened .noSlave) = .next t :=
  ⟨witness_every_command_answers.2.2.1, rfl, witness_every_command_answers.2.2.2.1, witness_every_command_answers.2.1⟩

theorem witness_RegisterWriters : ∃ t, exec .sendNack (opened .noSlave) = .next t :=
  witness_every_command_answers.2.2.2.2.2.1

theorem witness_StepRunsDecodedCommand :
    ({ ready .noSlave with commands := [0x20000021#32] } : State).seq = .idle
      ∧ decode 0x20000021#32 = .command (.start 0x21#7) := by decide

theorem witness_IdleBlockWaits : (blank .noSlave).seq = .idle ∧ (blank .noSlave).commands = [] := by decide

/-- The three clauses: a command that is taken, one that faults when presented, one that is refused. -/
theorem witness_SequencerRefinesCommand :
    (ready .noSlave).seq = .idle
      ∧ (present (.start 0x21#7) (ready .noSlave) = .next ((ready .noSlave).accept (.start 0x21#7))
          ∧ ((ready .noSlave).accept (.start 0x21#7)).seq ≠ .idle)
      ∧ (blank .noSlave).seq = .idle
      ∧ (present (.start 0x21#7) (blank .noSlave) = .next ((blank .noSlave).raise .configurationError)
          ∧ ((blank .noSlave).raise .configurationError).seq = .idle)
      ∧ present .endTxn (blank .noSlave) = .refused .noTransaction :=
  ⟨rfl, ⟨rfl, nofun⟩, rfl, ⟨rfl, rfl⟩, rfl⟩

/-- The last event of the longest event list, and the first of a short one. -/
theorem witness_SequencerPerformsOneEvent :
    ({ ready .noSlave with seq := .run (.writeReg 127#7 0#16) 233 false } : State).seq
        = .run (.writeReg 127#7 0#16) 233 false
      ∧ 233 < eventCount (programOf (.writeReg 127#7 0#16))
      ∧ ({ ready .noSlave with seq := .run (.start 0x21#7) 0 false } : State).seq = .run (.start 0x21#7) 0 false
      ∧ 0 < eventCount (programOf (.start 0x21#7)) := by decide +kernel

theorem witness_SequencerEndsCommand :
    ({ ready .noSlave with seq := .run (.configure 0#7 4#8 5#8) 0 false } : State).seq
      = .run (.configure 0#7 4#8 5#8) (eventCount (programOf (.configure 0#7 4#8 5#8))) false := by decide

/-- An open transaction with END to come. -/
def closing : State := { opened .noSlave with commands := [0x30000000#32] }

theorem closing_step : ∃ t, step closing = .next t :=
  ⟨(opened .noSlave).completed .endTxn,
    (exec_of_mayRun (i := .endTxn) (s := opened .noSlave) (by simp only [State.mayRun]; decide) :)⟩

theorem witness_StepKeepsControlInvariant : closing.ControlInv ∧ ∃ t, step closing = .next t :=
  ⟨⟨fun _ => rfl, fun _ => by decide, trivial⟩, closing_step⟩

theorem witness_NoModelFault : closing.ControlInv := witness_StepKeepsControlInvariant.1

theorem witness_StepKeepsBetweenCommands : closing.BetweenCommands ∧ ∃ t, step closing = .next t :=
  ⟨⟨rfl, fun _ => rfl, fun _ => by decide, fun _ => by decide⟩, closing_step⟩

/-- A bus before the first START with both lines released and the data line held at 0 by a slave (R121 item 5). -/
def heldLow : State := ready (.rslave { slave 0#16 with ph := .dev, n := 8 })

/-- Outside a transaction, the data line driven 0 and the clock line at a level. -/
def dataLow (scl : Bool) : State :=
  { ready .noSlave with pins := (ready .noSlave).pinsWith ⟨.output, false⟩ ⟨.output, scl⟩ }

/-- Every case of the two levels: the data line at 1; at 0 under a clock line at 1, driven or released; at 0 under a
clock line at 0. -/
theorem witness_StartConditionOnce :
    ((ready .noSlave).canOpen ∧ (ready .noSlave).wire .sda = true)
      ∧ (heldLow.canOpen ∧ (heldLow.pin 4#8).dir = .input ∧ (heldLow.pin 5#8).dir = .input ∧ heldLow.wire .sda = false
          ∧ heldLow.wire .scl = true ∧ (heldLow.drv .sda true).wire .scl = true)
      ∧ ((dataLow true).canOpen ∧ (dataLow true).wire .sda = false ∧ (dataLow true).wire .scl = true
          ∧ ((dataLow true).drv .sda true).wire .scl = true)
      ∧ ((dataLow false).canOpen ∧ (dataLow false).wire .sda = false ∧ (dataLow false).wire .scl = false)
      ∧ (heldLow.seq = .idle ∧ heldLow.inTxn = false ∧ (6#8 : LineId) ≠ 7#8
          ∧ ({ heldLow with cfg := ⟨0x21#7, 6#8, 7#8, true⟩ } : State).wire .sda = false) := by decide

/-- The symbols of CONFIGURE 0x21, 6, 7 and START 0x21 (R59). -/
def symbolsAfterMove (s : State) : Option (List Symbol) :=
  after (Sys2Proof.core.run 2 { s with commands := [0x10070621#32, 0x20000021#32] }) (symbolsSince s)

/-- R121 item 5 on lines CONFIGURE has just named: the old ones are driven 1 as END leaves them, the new ones are
released and a slave holds the data line at 0. -/
theorem test_start_after_move_to_held_line :
    symbolsAfterMove { heldLow with pins := heldLow.pinsWith ⟨.output, true⟩ ⟨.output, true⟩ } = some [.P, .S] := by
  decide +kernel

/-- The converse: the old lines at SDA 0, SCL 1, the new ones at 1, so event 0 changes nothing (R58). -/
theorem test_start_after_move_from_low_line : symbolsAfterMove (dataLow true) = some [.S] := by decide +kernel

theorem witness_StopConditionOnce :
    (opened .noSlave).canTransfer ∧ (opened .noSlave).pin (opened .noSlave).cfg.sclLine = ⟨.output, false⟩ := by decide

theorem witness_SlotsOfPrimitives :
    (opened (.rslave (slave 0#16))).canTransfer
      ∧ (opened (.rslave (slave 0#16))).pin (opened (.rslave (slave 0#16))).cfg.sclLine = ⟨.output, false⟩ := by
  decide

theorem witness_BracketLaw :
    (ready .noSlave).canOpen ∧ (ready .noSlave).seq = .idle ∧ (ready .noSlave).wire .sda = true
      ∧ ∀ i ∈ [Instr.writeByte 0x42#8, .recvAck, .requestRead 0#7 0#8, .readByte, .sendNack], i.inner = true := by
  decide

theorem witness_RegisterFrames : (ready .noSlave).canOpen ∧ (ready .noSlave).wire .sda = true := by decide

theorem witness_EmptyBusReadsOnes :
    (opened .noSlave).env = .noSlave ∧ (opened .noSlave).canTransfer ∧ (ready .noSlave).env = .noSlave
      ∧ (ready .noSlave).canOpen := by decide

/-- An observation with SCL driven high throughout and SDA unchanged, and a rising edge. -/
theorem witness_ReferenceSlaveHoldsItsOutput :
    (((slave 0#16).view ⟨.scl, .driven true⟩).scl = true ∧ (slave 0#16).scl = true
        ∧ (slave 0#16).sda = ((slave 0#16).view ⟨.scl, .driven true⟩).sda)
      ∧ (({ slave 0#16 with mscl := .driven false } : RSlave).view ⟨.scl, .driven true⟩).scl = true
      ∧ ({ slave 0#16 with mscl := .driven false } : RSlave).scl = false := by decide

theorem witness_RoundTripAgainstReferenceSlave :
    (ready (.rslave (slave 0#16))).canOpen ∧ (ready (.rslave (slave 0#16))).env = .rslave (slave 0#16)
      ∧ (slave 0#16).sa = (ready (.rslave (slave 0#16))).cfg.slaveAddr ∧ (slave 0#16).sda = true
      ∧ (slave 0#16).scl = true := by decide +kernel

end Sys2Proof.Tests
end

section
/-! PROOFS for the state family (10_state.md), the shared facts: what the checks of R210 decide and what a command that
is carried out leaves in the registers. -/

namespace Sys2Proof.Machine

open Sys2Proof

/-! ### The checks before a command -/

/-- The checks of R210 that stand before command `i`, in front of whatever is done when they pass. -/
def checked (i : Instr) (s : State) (go : State → Result) : Result :=
  match i with
  | .configure _ _ _ => between s go
  | .requestRead _ _ => go s
  | .start _ => opening s go
  | .writeReg _ _ => opening s go
  | .readReg _ => opening s go
  | .endTxn => within s go
  | .sendAck => within s go
  | .sendNack => within s go
  | .recvAck => within s go
  | .writeByte _ => within s go
  | .readByte => within s go

theorem exec_eq_checked (i : Instr) (s : State) : exec i s = checked i s (carryOut i (programOf i) (valueOf i)) := by
  cases i <;> rfl

theorem present_eq_checked (i : Instr) (s : State) : present i s = checked i s fun s => .next (s.accept i) := by
  cases i <;> rfl

/-- `opening` refuses, answers ConfigurationError, or lets the command go, whatever the command is (R173, R210). -/
theorem opening_cases (s : State) :
    (∃ r, ∀ go, opening s go = .refused r)
      ∨ (s.cfg.configured = false ∧ ∀ go, opening s go = .next (s.raise .configurationError))
      ∨ (s.canOpen ∧ ∀ go, opening s go = go s) := by
  by_cases hc : s.cfg.configured = false
  · exact .inr (.inl ⟨hc, fun _ => if_pos hc⟩)
  · by_cases ht : s.inTxn = true
    · exact .inl ⟨.transactionOpen, fun _ => (if_neg hc).trans (if_pos ht)⟩
    · by_cases hl : s.sameLines = true
      · exact .inl ⟨.sameLine, fun _ => (if_neg hc).trans ((if_neg ht).trans (if_pos hl))⟩
      · have h : s.canOpen := ⟨by simpa using hc, by simpa using ht, by simpa [State.sameLines] using hl⟩
        exact .inr (.inr ⟨h, opening_of_canOpen h⟩)

/-- `within` refuses or lets the command go, whatever the command is (R210). -/
theorem within_cases (s : State) :
    (∃ r, ∀ go, within s go = .refused r) ∨ (s.canTransfer ∧ ∀ go, within s go = go s) := by
  by_cases ht : s.transactionOpen = false
  · exact .inl ⟨.noTransaction, fun _ => if_pos ht⟩
  · by_cases hl : s.sameLines = true
    · exact .inl ⟨.sameLine, fun _ => (if_neg ht).trans (if_pos hl)⟩
    · obtain ⟨hc, hi⟩ : s.cfg.configured = true ∧ s.inTxn = true := by simpa [State.transactionOpen] using ht
      have h : s.canTransfer := ⟨hc, hi, by simpa [State.sameLines] using hl⟩
      exact .inr ⟨h, within_of_canTransfer h⟩

/-- What the checks decide does not depend on what follows them: a refusal, ConfigurationError, or the command goes
(R173, R210). -/
theorem checked_cases (i : Instr) (s : State) :
    (∃ r, ∀ go, checked i s go = .refused r)
      ∨ (i.opens = true ∧ s.cfg.configured = false ∧ ∀ go, checked i s go = .next (s.raise .configurationError))
      ∨ (s.mayRun i ∧ ∀ go, checked i s go = go s) := by
  cases i with
  | configure a d c =>
    by_cases ht : s.inTxn = true
    · exact .inl ⟨.configureInTransaction, fun _ => if_pos ht⟩
    · have h : s.inTxn = false := by simpa using ht
      exact .inr (.inr ⟨h, between_of_closed h⟩)
  | requestRead a n => exact .inr (.inr ⟨trivial, fun _ => rfl⟩)
  | start | writeReg | readReg => exact (opening_cases s).imp_right (.imp_left fun h => ⟨rfl, h⟩)
  | _ => exact (within_cases s).imp_right .inr

/-! ### What a command leaves in the registers -/

/-- `Leaves s i g`: command `i`, carried out from `s`, leaves `g` in the registers, the response aside. What READ_BYTE
and READ_REG sample is the environment's and left open. -/
inductive Leaves (s : State) : Instr → Registers → Prop
  | configure (a : Addr) (d c : LineId) : Leaves s (.configure a d c) { s.registers with cfg := ⟨a, d, c, true⟩ }
  | requestRead (a : Addr) (n : Count) : Leaves s (.requestRead a n) { s.registers with pend := ⟨a, n, true⟩ }
  | start (a : Addr) : Leaves s (.start a)
      { s.registers with
        cfg := { s.cfg with slaveAddr := a }, inTxn := true, pins := s.pinsWith ⟨.output, false⟩ ⟨.output, false⟩ }
  | endTxn : Leaves s .endTxn
      { s.registers with inTxn := false, pins := s.pinsWith ⟨.output, true⟩ ⟨.output, true⟩ }
  | sendAck : Leaves s .sendAck { s.registers with pins := s.pinsWith ⟨.output, false⟩ ⟨.output, false⟩ }
  | sendNack : Leaves s .sendNack { s.registers with pins := s.pinsWith ⟨.output, true⟩ ⟨.output, false⟩ }
  | recvAck : Leaves s .recvAck
      { s.registers with pins := s.pinsWith ⟨.input, (s.pin s.cfg.sdaLine).out⟩ ⟨.output, false⟩ }
  | writeByte (v : Byte) : Leaves s (.writeByte v)
      { s.registers with pins := s.pinsWith ⟨.output, v.getLsbD 0⟩ ⟨.output, false⟩, shift := 0#8, bitcnt := 8#4 }
  | readByte (x : Byte) : Leaves s .readByte
      { s.registers with
        pins := s.pinsWith ⟨.input, (s.pin s.cfg.sdaLine).out⟩ ⟨.output, false⟩, shift := x, bitcnt := 8#4 }
  | writeReg (r : RegIndex) (v : Value) : Leaves s (.writeReg r v)
      { s.registers with pins := s.pinsWith ⟨.output, true⟩ ⟨.output, true⟩, shift := 0#8, bitcnt := 8#4 }
  | readReg (r : RegIndex) (hi lo : Byte) : Leaves s (.readReg r)
      { s.registers with
        pins := s.pinsWith ⟨.output, true⟩ ⟨.output, true⟩, shift := lo, bitcnt := 8#4, rxhi := hi }

/-- Clearing `IN_TXN` where no transaction is open changes nothing: WRITE_REG and READ_REG leave the flag as they found
it (R151, R153). -/
theorem State.registers_closed {s : State} (h : s.inTxn = false) :
    { s.registers with inTxn := false } = s.registers := by
  rw [← h]
  rfl

/-- A command that may run leaves these registers; its program does not touch the response port (R31, R163). -/
theorem leaves_of_mayRun {i : Instr} {s : State} (h : s.mayRun i) :
    Leaves s i (runProgram (programOf i) (s.accept i)).registers := by
  have hq : (s.accept i).seq ≠ .idle := nofun
  cases i with
  | configure a d c => exact .configure a d c
  | requestRead a n => exact .requestRead a n
  | start a =>
    obtain ⟨-, -, hne⟩ := h
    have e : runProgram (programOf (.start a)) (s.accept (.start a))
        = runProgram startEvents ((s.accept (.start a)).setSlaveAddr a) := runProgram_cons _ _ _
    rw [e, (startEvents_run (s := (s.accept (.start a)).setSlaveAddr a) hne).1]
    exact .start a
  | endTxn => exact (endProgram_run (s := s.accept .endTxn) h.2.2).1 ▸ .endTxn
  | sendAck => exact (sendAck_ran (s := s.accept .sendAck) h.2.2).registers ▸ .sendAck
  | sendNack => exact (sendNack_ran (s := s.accept .sendNack) h.2.2).registers ▸ .sendNack
  | recvAck => exact (recvAck_ran (s := s.accept .recvAck) h.2.2 hq).1.registers ▸ .recvAck
  | writeByte v => exact (writeByte_ran (s := s.accept (.writeByte v)) h.2.2 v).registers ▸ .writeByte v
  | readByte => exact (readByte_ran (s := s.accept .readByte) h.2.2 hq).1.registers ▸ .readByte _
  | writeReg r v =>
    obtain ⟨-, ht, hne⟩ := h
    obtain ⟨_, _, _, _, hr, -⟩ := writeReg_run (s := s.accept (.writeReg r v)) hne hq r v
    have hl := Leaves.writeReg (s := s) r v
    rw [← State.registers_closed ht] at hl
    exact hr ▸ hl
  | readReg r =>
    obtain ⟨-, ht, hne⟩ := h
    obtain ⟨_, _, hi, lo, -, -, -, -, hr, -⟩ := readReg_run (s := s.accept (.readReg r)) hne hq r
    have hl := Leaves.readReg (s := s) r (assembleBits hi) (assembleBits lo)
    rw [← State.registers_closed ht] at hl
    exact hr ▸ hl

section Leaves

variable {s : State} {i : Instr} {g : Registers}

theorem Leaves.configured (h : Leaves s i g) :
    g.cfg.configured = if i.op = .configure then true else s.cfg.configured := by
  cases h <;> rfl

theorem Leaves.inTxn (h : Leaves s i g) :
    g.inTxn = if i.op = .start then true else if i.op = .endTxn then false else s.inTxn := by
  cases h <;> rfl

theorem Leaves.pend (h : Leaves s i g) (hi : i.op ≠ .requestRead) : g.pend = s.pend := by
  cases h with
  | requestRead => exact absurd rfl hi
  | _ => rfl

theorem Leaves.valid (h : Leaves s i g) (hi : i.op = .requestRead) : g.pend.valid = true := by
  cases h with
  | requestRead => rfl
  | _ => cases hi

theorem Leaves.lines (h : Leaves s i g) (hi : i.op ≠ .configure) :
    g.cfg.sdaLine = s.cfg.sdaLine ∧ g.cfg.sclLine = s.cfg.sclLine := by
  cases h with
  | configure => exact absurd rfl hi
  | _ => exact ⟨rfl, rfl⟩

theorem Leaves.slaveAddr (h : Leaves s i g) (hc : i.op ≠ .configure) (hs : i.op ≠ .start) :
    g.cfg.slaveAddr = s.cfg.slaveAddr := by
  cases h with
  | configure => exact absurd rfl hc
  | start => exact absurd rfl hs
  | _ => rfl

theorem Leaves.shifter (h : Leaves s i g) (hw : i.op ≠ .writeByte) (hr : i.op ≠ .readByte) (hwr : i.op ≠ .writeReg)
    (hrr : i.op ≠ .readReg) : g.shift = s.shift ∧ g.bitcnt = s.bitcnt := by
  cases h with
  | writeByte => exact absurd rfl hw
  | readByte => exact absurd rfl hr
  | writeReg => exact absurd rfl hwr
  | readReg => exact absurd rfl hrr
  | _ => exact ⟨rfl, rfl⟩

theorem Leaves.rxhi (h : Leaves s i g) (hi : i.op ≠ .readReg) : g.rxhi = s.rxhi := by
  cases h with
  | readReg => exact absurd rfl hi
  | _ => rfl

theorem Leaves.commands (h : Leaves s i g) : g.commands = s.commands := by
  cases h <;> rfl

/-- A command that leaves a transaction open either found it open and emits nothing (REQUEST_READ), or drove the clock
line low last (R123). -/
theorem Leaves.clock (h : Leaves s i g) (hr : s.mayRun i) (ht : g.inTxn = true) :
    g.cfg.sclLine = s.cfg.sclLine
      ∧ ((s.inTxn = true ∧ g.pins = s.pins) ∨ ∃ p, g.pins = s.pinsWith p ⟨.output, false⟩) := by
  cases h with
  | configure => exact absurd (ht.symm.trans hr) nofun
  | endTxn => cases ht
  | writeReg | readReg => exact absurd (ht.symm.trans hr.2.1) nofun
  | requestRead => exact ⟨rfl, .inl ⟨ht, rfl⟩⟩
  | _ => exact ⟨rfl, .inr ⟨_, rfl⟩⟩

end Leaves

end Sys2Proof.Machine
end

section
/-! PROOFS for the state family (10_state.md), the statements: the sequencer in flight, the invariants of every step,
what a command changes, and reset. -/

namespace Sys2Proof.Machine

open Sys2Proof

/-! ### The pieces of a program -/

theorem throughEvent_subset (p : Program) : throughEvent p ⊆ p := by
  have h := List.subset_append_left (throughEvent p) (afterEvents 1 p)
  rwa [throughEvent_append_afterEvents] at h

theorem afterEvents_subset {k : Nat} {p : Program} (h : k ≤ eventCount p) : afterEvents k p ⊆ p := by
  obtain ⟨pre, hp, -, -⟩ := exists_append_afterEvents h
  have hs := List.subset_append_right pre (afterEvents k p)
  rwa [← hp] at hs

/-- What is left when every event is performed emits nothing: the trace stays. -/
theorem runProgram_trace_afterEvents_all (p : Program) (s : State) :
    (runProgram (afterEvents (eventCount p) p) s).trace = s.trace := by
  obtain ⟨ps, h, -, hlen⟩ := runProgram_trace (afterEvents (eventCount p) p) s
  rw [eventCount_afterEvents, Nat.sub_self] at hlen
  rw [h, List.length_eq_zero_iff.mp hlen, List.append_nil]

/-- Below the length the piece performed next holds one event, so the sequencer goes one position on (R31). -/
theorem runProgram_throughEvent_seq {s : State} {i : Instr} {k : Nat} {b : Bool} (hq : s.seq = .run i k b)
    (hk : k < eventCount (programOf i)) :
    ∃ c, (runProgram (throughEvent (afterEvents k (programOf i))) s).seq = .run i (k + 1) c := by
  have hc : 0 < eventCount (afterEvents k (programOf i)) := by rw [eventCount_afterEvents]; omega
  have h := runProgram_seq hq (throughEvent (afterEvents k (programOf i)))
  rwa [eventCount_throughEvent hc] at h

/-! ### The sequencer's two kinds of step -/

theorem step_run_event {s : State} {i : Instr} {k : Nat} {b : Bool} (hq : s.seq = .run i k b)
    (hk : k < eventCount (programOf i)) :
    step s = .next (runProgram (throughEvent (afterEvents k (programOf i))) s) := by
  rw [step_run hq]
  exact if_pos hk

/-- The state a command in flight ends in when `rest` of its program is still to be done. -/
def State.finished (s : State) (i : Instr) (rest : Program) : State :=
  (runProgram rest s).respond .ok (valueOf i (runProgram rest s))

theorem step_run_end {s : State} {i : Instr} {b : Bool} (hq : s.seq = .run i (eventCount (programOf i)) b) :
    step s = .next (s.finished i (afterEvents (eventCount (programOf i)) (programOf i))) := by
  rw [step_run hq]
  exact (if_neg (lt_irrefl _)).trans (if_pos rfl)

theorem State.completed_eq_finished (s : State) (i : Instr) :
    s.completed i = (s.accept i).finished i (programOf i) := rfl

/-- A run takes its first step, then the others. -/
theorem core_run_succ {M : Host.Core} {s s' : M.State} (n : Nat) (h : M.step s = .next s') :
    M.run (n + 1) s = M.run n s' := by
  rw [Host.Core.run, h]

/-- As many sequencer steps as events are left, and one more, do the rest of the program and give the response. -/
theorem run_rest {s : State} {i : Instr} {k : Nat} {b : Bool} (n : Nat) (hq : s.seq = .run i k b)
    (hn : k + n = eventCount (programOf i)) :
    Sys2Proof.core.run (n + 1) s = .next (s.finished i (afterEvents k (programOf i))) := by
  induction n generalizing s k b with
  | zero =>
    obtain rfl : k = eventCount (programOf i) := hn
    exact core_run_succ (M := Sys2Proof.core) 0 (step_run_end hq)
  | succ n ih =>
    have hk : k < eventCount (programOf i) := by omega
    obtain ⟨c, hc⟩ := runProgram_throughEvent_seq hq hk
    have hrest : (runProgram (throughEvent (afterEvents k (programOf i))) s).finished i
          (afterEvents (k + 1) (programOf i)) = s.finished i (afterEvents k (programOf i)) := by
      rw [State.finished, ← runProgram_append, ← afterEvents_split]
      rfl
    rw [← hrest]
    exact (core_run_succ (M := Sys2Proof.core) (n + 1) (step_run_event hq hk)).trans (ih hc (by omega))

/-! ### What holds while a command is carried out -/

/-- Command `i` may be under way in this state: an open transaction has two different lines of a configured block, and
so has a command that emits; CONFIGURE is under way with no transaction open (R33, R210). -/
structure State.Carrying (s : State) (i : Instr) : Prop where
  opened : s.inTxn = true → s.cfg.configured = true ∧ s.cfg.sdaLine ≠ s.cfg.sclLine
  emits : i.emits = true → s.cfg.configured = true ∧ s.cfg.sdaLine ≠ s.cfg.sclLine
  closed : i.op = .configure → s.inTxn = false

theorem State.mayRun_emits {s : State} {i : Instr} (h : s.mayRun i) (he : i.emits = true) :
    s.cfg.configured = true ∧ s.cfg.sdaLine ≠ s.cfg.sclLine := by
  cases i with
  | configure | requestRead => cases he
  | _ => exact ⟨h.1, h.2.2⟩

theorem State.ControlInv.carrying {s : State} {i : Instr} (h : s.ControlInv) (hr : s.mayRun i) : s.Carrying i where
  opened ht := ⟨h.configured ht, h.linesDiffer ht⟩
  emits he := State.mayRun_emits hr he
  closed hi := by
    cases i with
    | configure => exact hr
    | _ => cases hi

theorem State.seqSound_of_idle {s : State} (hq : s.seq = .idle) : s.seqSound := by
  simp [State.seqSound, hq]

theorem State.seqSound_iff {s : State} {i : Instr} {k : Nat} {b : Bool} (hq : s.seq = .run i k b) :
    s.seqSound ↔ k ≤ eventCount (programOf i)
      ∧ (i.emits = true → s.cfg.configured = true ∧ s.cfg.sdaLine ≠ s.cfg.sclLine)
      ∧ (i.op = .configure → s.inTxn = false) := by
  simp [State.seqSound, hq]

theorem State.ControlInv.carrying_of_run {s : State} {i : Instr} {k : Nat} {b : Bool} (h : s.ControlInv)
    (hq : s.seq = .run i k b) : s.Carrying i := by
  obtain ⟨-, he, hc⟩ := (State.seqSound_iff hq).mp h.seqSound
  exact ⟨fun ht => ⟨h.configured ht, h.linesDiffer ht⟩, he, hc⟩

theorem State.Carrying.controlInv {s : State} {i : Instr} (h : s.Carrying i) (hs : s.seqSound) : s.ControlInv :=
  ⟨fun ht => (h.opened ht).1, fun ht => (h.opened ht).2, hs⟩

theorem State.Carrying.accept {s : State} {i : Instr} (h : s.Carrying i) : (s.accept i).Carrying i :=
  ⟨h.opened, h.emits, h.closed⟩

theorem op_ne_configure_of_emits {i : Instr} (h : i.emits = true) : i.op ≠ .configure := by
  cases i with
  | configure => cases h
  | _ => nofun

/-- A line of a command's own program keeps it: only CONFIGURE's moves the lines, with no transaction open, and of the
commands that emit nothing none opens a transaction. -/
theorem State.Carrying.apply {s : State} {i : Instr} {op : MicroOp} (h : s.Carrying i) (hop : op ∈ programOf i) :
    (op.apply s).Carrying i := by
  by_cases hb : i.emits = true
  · have hi := op_ne_configure_of_emits hb
    obtain ⟨hd, hl, hc, -⟩ := MicroOp.apply_lines (noSetCfg_programOf hi op hop) s
    have hlines : (op.apply s).cfg.configured = true ∧ (op.apply s).cfg.sdaLine ≠ (op.apply s).cfg.sclLine := by
      rw [hc, hd, hl]
      exact h.emits hb
    exact ⟨fun _ => hlines, fun _ => hlines, fun e => absurd e hi⟩
  · cases i with
    | configure a d c =>
      obtain rfl : op = .setCfg a d c := List.mem_singleton.mp hop
      have ht : s.inTxn = false := h.closed rfl
      exact ⟨fun e => absurd (ht.symm.trans e) nofun, nofun, fun _ => ht⟩
    | requestRead a n =>
      obtain rfl : op = .setPend a n := List.mem_singleton.mp hop
      exact ⟨h.opened, nofun, nofun⟩
    | _ => exact absurd rfl hb

theorem State.Carrying.runProgram {s : State} {i : Instr} {p : Program} (h : s.Carrying i) (hp : p ⊆ programOf i) :
    (runProgram p s).Carrying i := by
  induction p generalizing s with
  | nil => exact h
  | cons op p ih =>
    obtain ⟨hop, hp⟩ := List.cons_subset.mp hp
    exact ih (h.apply hop) hp

/-- A command that finishes leaves the control invariant: its response leaves the sequencer idle. -/
theorem State.Carrying.finished {s : State} {i : Instr} {p : Program} (h : s.Carrying i) (hp : p ⊆ programOf i) :
    (s.finished i p).ControlInv := by
  obtain ⟨ho, he, hc⟩ := h.runProgram hp
  exact State.Carrying.controlInv ⟨ho, he, hc⟩ (State.seqSound_of_idle rfl)

/-! ### The invariants of every step -/

/-- A command keeps the control invariant of an idle block. -/
theorem exec_keeps_controlInv {i : Instr} {s t : State} (hq : s.seq = .idle) (h : s.ControlInv)
    (he : exec i s = .next t) : t.ControlInv := by
  obtain ⟨-, -, rfl⟩ | ⟨hr, rfl⟩ := exec_next he
  · exact ⟨h.configured, h.linesDiffer, State.seqSound_of_idle hq⟩
  · rw [State.completed_eq_finished]
    exact (h.carrying hr).accept.finished (List.Subset.refl _)

/-- Settles O49: an idle step is a command's or changes no register, a step in flight performs lines of the command's
own program, and neither lets an open transaction lose its configured lines. -/
theorem stepKeepsControlInvariant : Obligations.StepKeepsControlInvariant := by
  intro s t h hstep
  obtain ⟨-, -, rfl⟩ | ⟨w, ws, why, hq, -, -, rfl⟩ | ⟨w, ws, i, hq, -, -, he⟩ | ⟨i, k, b, hq, hk, rfl⟩
    | ⟨i, b, hq, rfl⟩ := step_next hstep
  · exact h
  · exact ⟨h.configured, h.linesDiffer, State.seqSound_of_idle hq⟩
  · have h' : ({ s with commands := ws } : State).ControlInv :=
      ⟨h.configured, h.linesDiffer, State.seqSound_of_idle hq⟩
    exact exec_keeps_controlInv (s := { s with commands := ws }) hq h' he
  · obtain ⟨c, hc⟩ := runProgram_throughEvent_seq hq hk
    have ht := (h.carrying_of_run hq).runProgram
      (List.Subset.trans (throughEvent_subset _) (afterEvents_subset hk.le))
    exact ht.controlInv ((State.seqSound_iff hc).mpr ⟨hk, ht.emits, ht.closed⟩)
  · exact (h.carrying_of_run hq).finished (afterEvents_subset le_rfl)

theorem State.BetweenCommands.controlInv {s : State} (h : s.BetweenCommands) : s.ControlInv :=
  ⟨h.configured, h.linesDiffer, State.seqSound_of_idle h.idle⟩

/-- A command that leaves a transaction open leaves the clock line driven low (R123). -/
theorem completed_clockLow {i : Instr} {s : State} (hr : s.mayRun i) (h : s.inTxn = true → s.clockLow)
    (ht : (s.completed i).inTxn = true) : (s.completed i).clockLow := by
  obtain ⟨hl, ⟨ho, hp⟩ | ⟨p, hp⟩⟩ := (leaves_of_mayRun hr).clock hr ht
  · have hl' : (s.completed i).cfg.sclLine = s.cfg.sclLine := hl
    rw [State.clockLow, hl', State.pin_of_pins (t := s.completed i) hp]
    exact h ho
  · exact State.pin_scl_of_pinsWith hl hp

/-- Settles O52: the sequencer is idle after any command, the lines are kept as in the control invariant, and the clock
line is low by what each command leaves in the pins. -/
theorem stepKeepsBetweenCommands : Obligations.StepKeepsBetweenCommands := by
  intro s t h hstep
  have hinv := stepKeepsControlInvariant s t h.controlInv hstep
  obtain ⟨-, -, rfl⟩ | ⟨w, ws, why, hq, -, -, rfl⟩ | ⟨w, ws, i, hq, -, -, he⟩ | ⟨i, k, b, hq, -⟩ | ⟨i, b, hq, -⟩ :=
    step_next hstep
  · exact h
  · exact ⟨hq, h.configured, h.linesDiffer, h.clockLow⟩
  · refine ⟨(exec_next_ports (s := { s with commands := ws }) hq he).2.1, hinv.configured, hinv.linesDiffer, ?_⟩
    obtain ⟨-, -, rfl⟩ | ⟨hr, rfl⟩ := exec_next he
    · exact h.clockLow
    · exact completed_clockLow hr h.clockLow
  · exact absurd (h.idle.symm.trans hq) nofun
  · exact absurd (h.idle.symm.trans hq) nofun

/-- Settles O50: after reset no transaction is open and the sequencer is idle. -/
theorem resetMeetsInvariants : Obligations.ResetMeetsInvariants :=
  have h : State.reset.BetweenCommands := ⟨rfl, nofun, nofun, nofun⟩
  ⟨h.controlInv, h⟩

/-- Settles O51: an idle step ends in no fault of the model, and a sound position is not beyond the event list. -/
theorem noModelFault : Obligations.NoModelFault := by
  intro s h f hf
  cases hq : s.seq with
  | idle =>
    rw [step_idle hq, takeCommand] at hf
    split at hf
    · cases hf
    · rw [takeWord] at hf
      split at hf
      · exact exec_ne_fault _ _ f hf
      · cases hf
  | run i k b =>
    obtain ⟨hk, -, -⟩ := (State.seqSound_iff hq).mp h.seqSound
    obtain hk | rfl := hk.lt_or_eq
    · exact absurd ((step_run_event hq hk).symm.trans hf) nofun
    · exact absurd ((step_run_end hq).symm.trans hf) nofun

/-! ### What a command changes -/

/-- Settles O40: only CONFIGURE's program moves the lines, and it writes no pin. -/
theorem otherLinesUntouched : Obligations.OtherLinesUntouched := by
  intro i s t l he hd hc
  obtain ⟨-, -, rfl⟩ | ⟨-, rfl⟩ := exec_next he
  · rfl
  · by_cases hi : i.op = .configure
    · cases i with
      | configure => rfl
      | _ => cases hi
    · obtain ⟨-, -, -, hpin⟩ := runProgram_lines (noSetCfg_programOf hi) (s.accept i)
      exact hpin l hd hc

theorem op_ne_of_opens {i : Instr} (h : i.opens = true) :
    i.op ≠ .configure ∧ i.op ≠ .endTxn ∧ i.op ≠ .requestRead := by
  cases i with
  | start | writeReg | readReg => exact ⟨nofun, nofun, nofun⟩
  | _ => cases h

/-- Settles O41: a fault changes no flag, and a command that runs the flags of `Leaves`. -/
theorem flagsChangeOnlyAsListed : Obligations.FlagsChangeOnlyAsListed := by
  intro i s t he
  obtain ⟨ho, hu, rfl⟩ | ⟨hr, rfl⟩ := exec_next he
  · obtain ⟨hc, hend, hreq⟩ := op_ne_of_opens ho
    exact ⟨(if_neg hc).symm, fun _ h => absurd (hu.symm.trans h) nofun, fun h => absurd h hend, fun _ _ => rfl,
      fun _ => rfl, fun h => absurd h hreq⟩
  · have hl := leaves_of_mayRun hr
    have ht := hl.inTxn
    refine ⟨hl.configured, fun h _ => ht.trans (if_pos h), fun h => ?_, fun hs hend => ?_, hl.pend, hl.valid⟩
    · exact ht.trans (by simp [h])
    · exact ht.trans (by simp [hs, hend])

/-- Settles O42: a fault writes no register, and a command that runs those of `Leaves`. -/
theorem registerWriters : Obligations.RegisterWriters := by
  intro i s t he
  obtain ⟨-, -, rfl⟩ | ⟨hr, rfl⟩ := exec_next he
  · exact ⟨fun _ => ⟨rfl, rfl⟩, fun _ _ => rfl, fun _ _ _ _ => ⟨rfl, rfl⟩, fun _ => rfl, rfl⟩
  · have hl := leaves_of_mayRun hr
    exact ⟨hl.lines, hl.slaveAddr, hl.shifter, hl.rxhi, hl.commands⟩

/-! ### The sequencer -/

/-- Settles O46: presenting and executing pass the same checks; when they let the command go, the sequencer's steps put
its program together again. -/
theorem sequencerRefinesCommand : Obligations.SequencerRefinesCommand := by
  intro i s hq
  rw [present_eq_checked, exec_eq_checked]
  obtain ⟨r, h⟩ | ⟨-, -, h⟩ | ⟨-, h⟩ := checked_cases i s
  · simp only [h, implies_true, and_true]
    exact ⟨fun _ h0 => (by cases h0), fun _ h0 => (by cases h0)⟩
  · simp only [h, implies_true, and_true]
    refine ⟨fun s0 h0 hne => ?_, fun _ h0 _ => h0⟩
    cases h0
    exact absurd hq hne
  · simp only [h]
    refine ⟨fun s0 h0 _ => ?_, fun s0 h0 hidle => ?_, fun _ => ⟨nofun, nofun⟩⟩
    · obtain rfl : s.accept i = s0 := Host.Outcome.next.inj h0
      have hrun := run_rest (s := s.accept i) (eventCount (programOf i)) rfl (Nat.zero_add _)
      rwa [afterEvents_zero] at hrun
    · obtain rfl : s.accept i = s0 := Host.Outcome.next.inj h0
      exact absurd hidle nofun

/-- Settles O47: the program is cut at event `k`, and the step runs the writes before it and its line. -/
theorem sequencerPerformsOneEvent : Obligations.SequencerPerformsOneEvent := by
  intro s i k b hq hk
  obtain ⟨pre, hpre, hcount, hlast⟩ := exists_append_afterEvents hk.le
  have hpos : 0 < eventCount (afterEvents k (programOf i)) := by rw [eventCount_afterEvents]; omega
  obtain ⟨writes, op, hpiece, hop, hwrites⟩ := throughEvent_eq hpos
  obtain ⟨c, hc⟩ := runProgram_throughEvent_seq hq hk
  have hstep := step_run_event hq hk
  obtain ⟨-, hresp⟩ := runProgram_ports (throughEvent (afterEvents k (programOf i))) s
  have hrun : runProgram (throughEvent (afterEvents k (programOf i))) s = op.apply (runProgram writes s) := by
    rw [hpiece, runProgram_append]
    rfl
  obtain ⟨e, he⟩ := Option.isSome_iff_exists.mp ((op.isSome_eventIn (runProgram writes s)).trans hop)
  have htrace := MicroOp.apply_trace_of_eventIn he
  rw [runProgram_trace_of_writes hwrites] at htrace
  rw [hrun] at hc hstep hresp
  refine ⟨pre, writes, afterEvents (k + 1) (programOf i), op, _, e, c, ?_, hcount, hlast, hwrites, he, hstep, rfl, hc,
    eventsSince_of_append htrace, hresp⟩
  calc programOf i = pre ++ afterEvents k (programOf i) := hpre
    _ = pre ++ (throughEvent (afterEvents k (programOf i)) ++ afterEvents (k + 1) (programOf i)) := by
      rw [← afterEvents_split]
    _ = pre ++ writes ++ op :: afterEvents (k + 1) (programOf i) := by simp [hpiece]

/-- Settles O48: what is left at the length emits nothing, and the response is the only one. -/
theorem sequencerEndsCommand : Obligations.SequencerEndsCommand := by
  intro s i b hq
  have htrace := runProgram_trace_afterEvents_all (programOf i) s
  obtain ⟨-, hresp⟩ := runProgram_ports (afterEvents (eventCount (programOf i)) (programOf i)) s
  refine ⟨_, _, step_run_end hq, rfl, ?_, congrArg (· ++ _) hresp⟩
  exact eventsSince_of_append (ps := []) (htrace.trans (List.append_nil _).symm)

/-! ### Reset and the idle step -/

/-- Every line is an input after reset (R36). -/
theorem dir_reset (l : LineId) : (State.reset.pin l).dir = .input := by
  simp [State.pin, State.reset, resetPins]

/-- Settles O43: the flags and `SEQ` by the reset state's definition, the lines by `dir_reset`. -/
theorem resetState : Obligations.ResetState := ⟨rfl, rfl, rfl, rfl, dir_reset⟩

/-- Settles O44: the word at the head of the port is decoded and its command carried out. -/
theorem stepRunsDecodedCommand : Obligations.StepRunsDecodedCommand := by
  intro s w ws i hq hc hd
  rw [step_idle hq]
  simp only [takeCommand, hc, takeWord, hd]

end Sys2Proof.Machine
end

section
/-! PROOFS for the memory family (20_memory.md), the shared facts: the pin events each command emits, what a line of
pseudocode may do to SDA and SCL, and the bits of the byte READ_BYTE assembles. -/

namespace Sys2Proof.Machine

open Sys2Proof

/-! ### The events of a command -/

/-- `Emits s i es`: command `i`, carried out from `s`, emits the pin events `es`. What is sampled is the environment's
and left open. -/
inductive Emits (s : State) : Instr → List Event → Prop
  | configure (a : Addr) (d c : LineId) : Emits s (.configure a d c) []
  | requestRead (a : Addr) (n : Count) : Emits s (.requestRead a n) []
  | start (a : Addr) : Emits s (.start a) startEventList
  | endTxn : Emits s .endTxn endEventList
  | sendAck : Emits s .sendAck (bitEvents false)
  | sendNack : Emits s .sendNack (bitEvents true)
  | recvAck (a : Bool) : Emits s .recvAck (recvAckEvents a)
  | writeByte (v : Byte) : Emits s (.writeByte v) (byteEvents v)
  | readByte (bits : List Bool) (h : bits.length = 8) : Emits s .readByte (readByteEvents bits)
  | writeReg (r : RegIndex) (v : Value) (a0 a1 a2 a3 : Bool) : Emits s (.writeReg r v)
      (startEventList
        ++ ((byteEvents (devByte s.cfg.slaveAddr) ++ recvAckEvents a0) ++ (byteEvents (regByteW r) ++ recvAckEvents a1)
          ++ (byteEvents (hiByte v) ++ recvAckEvents a2) ++ (byteEvents (loByte v) ++ recvAckEvents a3))
        ++ endEventList)
  | readReg (r : RegIndex) (a0 a1 : Bool) (hi lo : List Bool) (hh : hi.length = 8) (hl : lo.length = 8) :
      Emits s (.readReg r)
      (startEventList
        ++ ((byteEvents (devByte s.cfg.slaveAddr) ++ recvAckEvents a0) ++ (byteEvents (regByteR r) ++ recvAckEvents a1)
          ++ (readByteEvents hi ++ bitEvents false) ++ (readByteEvents lo ++ bitEvents true))
        ++ endEventList)

/-- Where the trace does not grow there was no event. -/
theorem eventsSince_of_trace_eq {s t : State} (h : t.trace = s.trace) : eventsSince s t = [] :=
  eventsSince_of_append (ps := []) (h.trans (List.append_nil _).symm)

/-- A command whose program ran these events emits them. -/
theorem Ran.completed_eventsSince {s : State} {i : Instr} {es : List Event} {sy : List Symbol} {g : Registers}
    (h : Ran (s.accept i) es sy g (runProgram (programOf i) (s.accept i))) : eventsSince s (s.completed i) = es := by
  obtain ⟨ps, ht, he, -⟩ := h.trace
  exact eventsSince_completed ht he

/-- Begun with a low clock line, a command whose program ran these symbols puts them on the bus. -/
theorem Ran.completed_symbolsSince {s : State} {i : Instr} {es : List Event} {sy : List Symbol} {g : Registers}
    (h : Ran (s.accept i) es sy g (runProgram (programOf i) (s.accept i))) (hl : s.clockLow) :
    symbolsSince s (s.completed i) = sy := by
  obtain ⟨ps, ht, -, hs⟩ := h.trace
  rw [symbolsSince, traceSince_of_append (completed_trace ht)]
  exact (hs hl).symbols

@[simp] theorem Env.length_readBits (n : Nat) (e : Env) : (e.readBits n).length = n := Env.length_bits n _

/-- The pin events of a command that may run (R110 to R153). -/
theorem emits_of_mayRun {i : Instr} {s : State} (h : s.mayRun i) : Emits s i (eventsSince s (s.completed i)) := by
  have hq : (s.accept i).seq ≠ .idle := nofun
  cases i with
  | configure a d c => exact (eventsSince_of_trace_eq (t := s.completed (.configure a d c)) rfl) ▸ .configure a d c
  | requestRead a n => exact (eventsSince_of_trace_eq (t := s.completed (.requestRead a n)) rfl) ▸ .requestRead a n
  | start a =>
    obtain ⟨-, -, -, ps, ht, he, -⟩ := startEvents_run (s := (s.accept (.start a)).setSlaveAddr a) h.2.2
    have e : runProgram (programOf (.start a)) (s.accept (.start a))
        = runProgram startEvents ((s.accept (.start a)).setSlaveAddr a) := runProgram_cons _ _ _
    exact (eventsSince_completed ((congrArg State.trace e).trans ht) he) ▸ .start a
  | endTxn =>
    obtain ⟨-, -, ps, ht, he, -⟩ := endProgram_run (s := s.accept .endTxn) h.2.2
    exact (eventsSince_completed (i := .endTxn) ht he) ▸ .endTxn
  | sendAck => exact (sendAck_ran (s := s.accept .sendAck) h.2.2).completed_eventsSince ▸ .sendAck
  | sendNack => exact (sendNack_ran (s := s.accept .sendNack) h.2.2).completed_eventsSince ▸ .sendNack
  | recvAck => exact (recvAck_ran (s := s.accept .recvAck) h.2.2 hq).1.completed_eventsSince ▸ .recvAck _
  | writeByte v => exact (writeByte_ran (s := s.accept (.writeByte v)) h.2.2 v).completed_eventsSince ▸ .writeByte v
  | readByte =>
    have hlen := Env.length_readBits 8 (s.accept .readByte).env
    exact (readByte_ran (s := s.accept .readByte) h.2.2 hq).1.completed_eventsSince ▸ .readByte _ hlen
  | writeReg r v =>
    obtain ⟨a0, a1, a2, a3, -, ps, ht, he, -⟩ := writeReg_run (s := s.accept (.writeReg r v)) h.2.2 hq r v
    exact (eventsSince_completed ht he) ▸ .writeReg r v a0 a1 a2 a3
  | readReg r =>
    obtain ⟨a0, a1, hi, lo, hh, hl, -, -, -, ps, ht, he, -⟩ := readReg_run (s := s.accept (.readReg r)) h.2.2 hq r
    exact (eventsSince_completed ht he) ▸ .readReg r a0 a1 hi lo hh hl

/-! ### The delay after every transition -/

theorem delaysFollowTransitions_append {es fs : List Event} (he : delaysFollowTransitions es = true)
    (hf : delaysFollowTransitions fs = true) : delaysFollowTransitions (es ++ fs) = true := by
  induction es using delaysFollowTransitions.induct with
  | case1 => exact hf
  | case2 l v es ih => exact ih he
  | case3 l es ih => exact ih he
  | case4 l b es ih => exact ih he
  | case5 | case6 | case7 => simp_all [delaysFollowTransitions]

theorem delaysFollowTransitions_flatMap {f : Bool → List Event} (h : ∀ b, delaysFollowTransitions (f b) = true)
    (bits : List Bool) : delaysFollowTransitions (bits.flatMap f) = true := by
  induction bits with
  | nil => rfl
  | cons b bits ih => exact delaysFollowTransitions_append (h b) ih

theorem delaysFollowTransitions_byteEvents (v : Byte) : delaysFollowTransitions (byteEvents v) = true :=
  delaysFollowTransitions_flatMap (fun _ => rfl) _

theorem delaysFollowTransitions_readByteEvents (bits : List Bool) :
    delaysFollowTransitions (readByteEvents bits) = true :=
  delaysFollowTransitions_flatMap (f := sampleEvents) (fun _ => rfl) bits

theorem delaysFollowTransitions_sentByte (v : Byte) (a : Bool) :
    delaysFollowTransitions (byteEvents v ++ recvAckEvents a) = true :=
  delaysFollowTransitions_append (delaysFollowTransitions_byteEvents v) rfl

theorem delaysFollowTransitions_receivedByte (bits : List Bool) (a : Bool) :
    delaysFollowTransitions (readByteEvents bits ++ bitEvents a) = true :=
  delaysFollowTransitions_append (delaysFollowTransitions_readByteEvents bits) rfl

/-- A register command's event list: START's, four bytes each with its acknowledgment, END's (R151, R153). -/
theorem delaysFollowTransitions_transaction {b0 b1 b2 b3 : List Event} (h0 : delaysFollowTransitions b0 = true)
    (h1 : delaysFollowTransitions b1 = true) (h2 : delaysFollowTransitions b2 = true)
    (h3 : delaysFollowTransitions b3 = true) :
    delaysFollowTransitions (startEventList ++ (b0 ++ b1 ++ b2 ++ b3) ++ endEventList) = true :=
  have hbody := delaysFollowTransitions_append
    (delaysFollowTransitions_append (delaysFollowTransitions_append h0 h1) h2) h3
  delaysFollowTransitions_append (delaysFollowTransitions_append rfl hbody) rfl

/-- No command's event list lacks a delay or has one too many (R55). -/
theorem Emits.delays_follow {s : State} {i : Instr} {es : List Event} (h : Emits s i es) :
    delaysFollowTransitions es = true := by
  cases h with
  | writeByte v => exact delaysFollowTransitions_byteEvents v
  | readByte bits => exact delaysFollowTransitions_readByteEvents bits
  | writeReg r v a0 a1 a2 a3 =>
    exact delaysFollowTransitions_transaction (delaysFollowTransitions_sentByte _ a0)
      (delaysFollowTransitions_sentByte _ a1) (delaysFollowTransitions_sentByte _ a2)
      (delaysFollowTransitions_sentByte _ a3)
  | readReg r a0 a1 hi lo =>
    exact delaysFollowTransitions_transaction (delaysFollowTransitions_sentByte _ a0)
      (delaysFollowTransitions_sentByte _ a1) (delaysFollowTransitions_receivedByte hi false)
      (delaysFollowTransitions_receivedByte lo true)
  | _ => rfl

/-! ### What a line may do to SDA and SCL -/

/-- What is certain of the two lines in the middle of a program: SDA is released, SCL is driven to 1. -/
structure Hold where
  released : Bool
  high : Bool

/-- What is certain after a line of pseudocode, given what was before it. -/
def MicroOp.hold (h : Hold) : MicroOp → Hold
  | .drv .sda _ => { h with released := false }
  | .drv .scl v => { h with high := v }
  | .drvShift => { h with released := false }
  | .rel .sda => { h with released := true }
  | .rel .scl => { h with high := false }
  | .setCfg _ _ _ => ⟨false, false⟩
  | _ => h

/-- The line releases and samples SDA only, samples it released and with SCL at 1, and does not move the lines
(R53, R54). -/
def MicroOp.permitted (h : Hold) : MicroOp → Bool
  | .rel l => l == .sda
  | .smp l => l == .sda && h.released && h.high
  | .setCfg _ _ _ => false
  | _ => true

/-- Every line of the program is permitted where it stands. -/
def permittedFrom : Hold → Program → Bool
  | _, [] => true
  | h, op :: p => op.permitted h && permittedFrom (op.hold h) p

theorem permittedFrom_append (h : Hold) (p q : Program) :
    permittedFrom h (p ++ q) = (permittedFrom h p && permittedFrom (p.foldl MicroOp.hold h) q) := by
  induction p generalizing h with
  | nil => rfl
  | cons op p ih => simp [permittedFrom, ih, Bool.and_assoc]

/-- Programs that are permitted wherever they stand are so one after the other. -/
theorem permittedFrom_flatten {ps : List Program} (hps : ∀ p ∈ ps, ∀ h, permittedFrom h p = true) (h : Hold) :
    permittedFrom h ps.flatten = true := by
  induction ps generalizing h with
  | nil => rfl
  | cons p ps ih =>
    obtain ⟨hp, hps⟩ := List.forall_mem_cons.mp hps
    rw [List.flatten_cons, permittedFrom_append, hp, ih hps]
    rfl

/-- The lines of every program that emits are permitted, whatever is certain where it begins. -/
theorem permittedFrom_programOf {i : Instr} (he : i.emits = true) (h : Hold) :
    permittedFrom h (programOf i) = true := by
  cases i with
  | configure | requestRead => cases he
  | writeReg | readReg =>
    refine permittedFrom_flatten ?_ h
    simp only [List.forall_mem_cons, List.not_mem_nil, false_implies, implies_true, and_true]
    and_intros <;> exact fun _ => rfl
  | _ => rfl

/-- The state is as `h` says, and the two lines differ. -/
structure State.Holds (s : State) (h : Hold) : Prop where
  differ : s.cfg.sdaLine ≠ s.cfg.sclLine
  released : h.released = true → s.sdaReleased
  high : h.high = true → s.pin s.cfg.sclLine = ⟨.output, true⟩

theorem State.holds_nothing {s : State} (h : s.cfg.sdaLine ≠ s.cfg.sclLine) : s.Holds ⟨false, false⟩ :=
  ⟨h, nofun, nofun⟩

theorem State.Holds.drv_sda {s : State} {h : Hold} (hs : s.Holds h) (v : Bool) :
    (s.drv .sda v).Holds { h with released := false } :=
  ⟨hs.differ, nofun, fun hh => (s.pin_drv_ne (l := .sda) hs.differ.symm v).trans (hs.high hh)⟩

/-- A permitted line leaves the lines as `MicroOp.hold` says. -/
theorem State.Holds.apply {s : State} {h : Hold} {op : MicroOp} (hs : s.Holds h) (hp : op.permitted h = true) :
    (op.apply s).Holds (op.hold h) := by
  cases op with
  | setCfg a d c => cases hp
  | drvShift => exact hs.drv_sda _
  | drv l v =>
    cases l with
    | sda => exact hs.drv_sda v
    | scl =>
      refine ⟨hs.differ, fun hr => ?_, fun hv => ?_⟩
      · exact (congrArg Pin.dir (s.pin_drv_ne (l := .scl) hs.differ v)).trans (hs.released hr)
      · obtain rfl : v = true := hv
        exact s.pin_drv_same .scl true
  | rel l =>
    obtain rfl : l = .sda := by simpa [MicroOp.permitted] using hp
    exact ⟨hs.differ, fun _ => congrArg Pin.dir (s.pin_rel_same .sda),
      fun hh => (s.pin_rel_ne (l := .sda) hs.differ.symm).trans (hs.high hh)⟩
  | _ => exact ⟨hs.differ, hs.released, hs.high⟩

/-- An event found in environment `e` releases or samples no line but SDA, and samples it with SCL at 1 and at the
environment's level (R53, R54). -/
def TracePoint.SdaOnly (e : Env) (p : TracePoint) : Prop :=
  (∀ l, p.event = .rel l → l = .sda)
  ∧ ∀ l b, p.event = .smp l b → l = .sda ∧ p.after.scl = true ∧ b = e.level .sda

/-- So does each event of a trace, in the environment that has observed those before it. -/
def EachSdaOnly : Env → List TracePoint → Prop
  | _, [] => True
  | e, p :: ps => p.SdaOnly e ∧ EachSdaOnly (e.after [p.event]) ps

theorem EachSdaOnly.append {e : Env} {ps qs : List TracePoint} (hp : EachSdaOnly e ps)
    (hq : EachSdaOnly (e.after (ps.map TracePoint.event)) qs) : EachSdaOnly e (ps ++ qs) := by
  induction ps generalizing e with
  | nil => exact hq
  | cons p ps ih =>
    obtain ⟨h, hps⟩ := hp
    rw [List.map_cons, ← List.singleton_append, Env.after_append] at hq
    exact ⟨h, ih hps hq⟩

theorem EachSdaOnly.sdaOnly {e : Env} {pre post : List TracePoint} {p : TracePoint}
    (h : EachSdaOnly e (pre ++ p :: post)) : p.SdaOnly (e.after (pre.map TracePoint.event)) := by
  induction pre generalizing e with
  | nil => exact h.1
  | cons q pre ih =>
    rw [List.map_cons, ← List.singleton_append, Env.after_append]
    exact ih h.2

/-- A permitted line's event, found in the state the line is performed in. -/
theorem MicroOp.sdaOnly_of_eventIn {s : State} {h : Hold} {op : MicroOp} {e : Event} (hs : s.Holds h)
    (hp : op.permitted h = true) (he : op.eventIn s = some e) :
    TracePoint.SdaOnly s.env ⟨e, s.levels, (op.apply s).levels⟩ := by
  cases op with
  | rel l =>
    obtain rfl : l = .sda := by simpa [MicroOp.permitted] using hp
    cases he
    exact ⟨fun l hl => by cases hl; rfl, nofun⟩
  | smp l =>
    obtain ⟨⟨rfl, hr⟩, hh⟩ : (l = .sda ∧ h.released = true) ∧ h.high = true := by
      simpa [MicroOp.permitted] using hp
    cases he
    refine ⟨nofun, fun l b hb => ?_⟩
    cases hb
    exact ⟨rfl, State.wire_of_output (hs.high hh), State.wire_of_input (hs.released hr)⟩
  | drv | drvShift | dly => cases he; exact ⟨nofun, nofun⟩
  | _ => cases he

/-- What a permitted line adds to the trace. -/
theorem MicroOp.eachSdaOnly_apply {s : State} {h : Hold} {op : MicroOp} (hs : s.Holds h)
    (hp : op.permitted h = true) {ps : List TracePoint} (ht : (op.apply s).trace = s.trace ++ ps) :
    EachSdaOnly s.env ps := by
  cases he : op.eventIn s with
  | none =>
    obtain rfl : ps = [] := by
      have hw : op.isEvent = false := by rw [← op.isSome_eventIn s, he]; rfl
      have h0 := runProgram_trace_of_writes (p := [op]) (by simpa using hw) s
      exact List.append_right_eq_self.mp (ht.symm.trans h0)
    trivial
  | some e =>
    obtain rfl := List.append_cancel_left (ht.symm.trans (MicroOp.apply_trace_of_eventIn he))
    exact ⟨MicroOp.sdaOnly_of_eventIn hs hp he, trivial⟩

/-- What a program of permitted lines adds to the trace. -/
theorem eachSdaOnly_runProgram {p : Program} {s : State} {h : Hold} (hs : s.Holds h) (hp : permittedFrom h p = true) :
    ∃ ps, (runProgram p s).trace = s.trace ++ ps ∧ EachSdaOnly s.env ps := by
  induction p generalizing s h with
  | nil => exact ⟨[], (List.append_nil _).symm, trivial⟩
  | cons op p ih =>
    obtain ⟨hop, hp⟩ : op.permitted h = true ∧ permittedFrom (op.hold h) p = true := by
      simpa [permittedFrom] using hp
    obtain ⟨ps, h1, h2, -⟩ := op.apply_trace s
    obtain ⟨qs, g1, g2⟩ := ih (hs.apply hop) hp
    rw [h2] at g2
    exact ⟨ps ++ qs, by rw [runProgram_cons, g1, h1, List.append_assoc],
      (MicroOp.eachSdaOnly_apply hs hop h1).append g2⟩

/-- What a command adds to the trace: one that emits runs permitted lines on two different lines, the others add
nothing. -/
theorem eachSdaOnly_completed {i : Instr} {s : State} (hr : s.mayRun i) :
    ∃ ps, (s.completed i).trace = s.trace ++ ps ∧ EachSdaOnly s.env ps := by
  by_cases he : i.emits = true
  · have hs : (s.accept i).Holds ⟨false, false⟩ := State.holds_nothing (State.mayRun_emits hr he).2
    exact eachSdaOnly_runProgram hs (permittedFrom_programOf he _)
  · refine ⟨[], ?_, trivial⟩
    rw [List.append_nil]
    cases i with
    | configure | requestRead => rfl
    | _ => exact absurd rfl he

/-! ### The bits of an assembled byte -/

theorem bitsMsbFirst_eq (v : Byte) : bitsMsbFirst v = [v.getLsbD 7, v.getLsbD 6, v.getLsbD 5, v.getLsbD 4,
    v.getLsbD 3, v.getLsbD 2, v.getLsbD 1, v.getLsbD 0] := by
  simp [bitsMsbFirst, List.range, List.range.loop]

theorem getLsbD_shiftInByte (x : Byte) (b : Bool) (i : Nat) :
    (shiftInByte x b).getLsbD i = if i = 0 then b else decide (i < 8) && x.getLsbD (i - 1) := by
  cases b <;> cases i <;> simp [shiftInByte, bitByte, Nat.succ_lt_succ_iff]

/-- Shifting a bit in drops the first bit and adds the new one at the end (R132). -/
theorem bitsMsbFirst_shiftInByte (x : Byte) (b : Bool) :
    bitsMsbFirst (shiftInByte x b) = (bitsMsbFirst x).tail ++ [b] := by
  simp only [bitsMsbFirst_eq, getLsbD_shiftInByte]
  rfl

theorem bitsMsbFirst_foldl_shiftInByte (bits : List Bool) (x : Byte) :
    bitsMsbFirst (bits.foldl shiftInByte x) = (bitsMsbFirst x ++ bits).drop bits.length := by
  induction bits generalizing x with
  | nil => simp
  | cons b bits ih =>
    rw [List.foldl_cons, ih, bitsMsbFirst_shiftInByte, bitsMsbFirst_eq]
    simp

/-- The bits of the byte assembled from eight samples are the samples (R134). -/
theorem bitsMsbFirst_assembleBits {bits : List Bool} (h : bits.length = 8) :
    bitsMsbFirst (assembleBits bits) = bits := by
  rw [assembleBits, bitsMsbFirst_foldl_shiftInByte]
  exact List.drop_left' (by rw [h, bitsMsbFirst_eq]; rfl)

end Sys2Proof.Machine
end

section
/-! PROOFS for the memory family (20_memory.md), the statements: the pin events, what every command adds to the trace,
and the slots of the primitive commands. -/

namespace Sys2Proof.Machine

open Sys2Proof

/-! ### One pin event -/

/-- Settles O10, by what `DRV` does to the pins, the environment and the wire. -/
theorem driveEstablishesLevel : Obligations.DriveEstablishesLevel := fun s l v =>
  ⟨s.pin_drv_same l v, fun _ h => s.pin_drv_ne h v, s.drv_env l v, s.wire_drv_same l v⟩

/-- Settles O11, by what `REL` does to the pins, the environment and the wire. -/
theorem releaseGivesTheLineAway : Obligations.ReleaseGivesTheLineAway := fun s l =>
  ⟨s.pin_rel_same l, fun _ h => s.pin_rel_ne h, s.rel_env l, s.wire_rel_same l⟩

/-- Settles O12, by what `SMP` adds to the trace and does to the sequencer. -/
theorem sampleYieldsTheWire : Obligations.SampleYieldsTheWire := by
  refine fun s l => ⟨eventsSince_of_append (s.smp_trace l), State.wire_of_input, s.smp_pins l, s.smp_env l, ?_⟩
  intro i k b hq
  rw [State.smp_seq, hq]
  rfl

/-! ### What every command adds to the trace -/

/-- Settles O37: a fault emits nothing, and a command that runs one of the event lists of `Emits`. -/
theorem oneDelayPerTransition : Obligations.OneDelayPerTransition := by
  intro i s t he
  obtain ⟨-, -, rfl⟩ | ⟨hr, rfl⟩ := exec_next he
  · exact congrArg delaysFollowTransitions (eventsSince_of_trace_eq (s.raise_trace .configurationError))
  · exact (emits_of_mayRun hr).delays_follow

/-- Settles O38: a fault adds nothing to the trace, and a command that runs what its permitted lines add. -/
theorem onlySdaReleasedAndSampled : Obligations.OnlySdaReleasedAndSampled := by
  intro i s t he pre post p hcut
  have h : ∃ ps, t.trace = s.trace ++ ps ∧ EachSdaOnly s.env ps := by
    obtain ⟨-, -, rfl⟩ | ⟨hr, rfl⟩ := exec_next he
    · exact ⟨[], (List.append_nil _).symm, trivial⟩
    · exact eachSdaOnly_completed hr
  obtain ⟨ps, ht, hps⟩ := h
  rw [traceSince_of_append ht] at hcut
  subst hcut
  exact hps.sdaOnly

/-- Settles O39: a fault adds nothing, and a command that runs what its program adds. -/
theorem environmentObservesEveryDrive : Obligations.EnvironmentObservesEveryDrive := by
  intro i s t he
  obtain ⟨-, -, rfl⟩ | ⟨-, rfl⟩ := exec_next he
  · have ht : (s.raise .configurationError).trace = s.trace ++ [] := (List.append_nil _).symm
    rw [eventsSince_of_append ht, traceSince_of_append ht]
    exact ⟨rfl, ht⟩
  · obtain ⟨ps, ht, henv, -⟩ := runProgram_trace (programOf i) (s.accept i)
    have ht := completed_trace ht
    rw [eventsSince_of_append ht, traceSince_of_append ht]
    exact ⟨henv, ht⟩

/-! ### The slots of the primitives -/

/-- Settles O55: each primitive's program runs its slots from a low clock line; READ_BYTE's samples are the bits of the
byte assembled from them, RECV_ACK's the value of its response. -/
theorem slotsOfPrimitives : Obligations.SlotsOfPrimitives := by
  intro s ht hl
  have hne := ht.2.2
  have hq (i : Instr) : (s.accept i).seq ≠ .idle := nofun
  refine ⟨fun v => ⟨_, exec_of_mayRun ht, ?_⟩, ⟨_, exec_of_mayRun ht, ?_⟩, ⟨_, exec_of_mayRun ht, ?_⟩,
    ⟨_, exec_of_mayRun ht, ?_⟩, ?_⟩
  · exact (writeByte_ran (s := s.accept (.writeByte v)) hne v).completed_symbolsSince hl
  · exact (sendAck_ran (s := s.accept .sendAck) hne).completed_symbolsSince hl
  · exact (sendNack_ran (s := s.accept .sendNack) hne).completed_symbolsSince hl
  · obtain ⟨h, -⟩ := readByte_ran (s := s.accept .readByte) hne (hq _)
    have hshift : (s.completed .readByte).shift = assembleBits ((s.accept .readByte).env.readBits 8) := h.shift
    rw [h.completed_symbolsSince hl, hshift, byteSymbols, bitsMsbFirst_assembleBits (Env.length_readBits 8 _)]
  · obtain ⟨h, hb, -⟩ := recvAck_ran (s := s.accept .recvAck) hne (hq _)
    refine ⟨_, _, exec_of_mayRun ht, h.completed_symbolsSince hl, ?_⟩
    rw [← responseWord_ok_bit, ← valueOf_recvAck hb, State.completed, State.respond_responses,
      (runProgram_ports _ _).2]
    rfl

end Sys2Proof.Machine
end

section
/-! PROOFS for the encoding family (30_encoding.md), the shared facts: fields placed in a word and taken from it, the
rows of the opcode table, the decoder and the encoder, the assembler line, the bytes of an address and of a value, and
the fields of a response. -/

namespace Sys2Proof

/-! ### Fields of a word -/

theorem getLsbD_place {n : Nat} (field : BitVec n) (lo k : Nat) :
    (place field lo).getLsbD k = (decide (lo ≤ k ∧ k < 32) && field.getLsbD (k - lo)) := by
  by_cases hlo : lo ≤ k <;> by_cases hk : k < 32 <;> simp [place, hlo, hk]

/-- A field that fits into the word is read back from its place. -/
theorem extractLsb'_place_same {n lo : Nat} (field : BitVec n) (h : lo + n ≤ 32) :
    (place field lo).extractLsb' lo n = field := by
  refine BitVec.eq_of_getLsbD_eq fun k hk => ?_
  have hlt : lo + k < 32 := by omega
  rw [BitVec.getLsbD_extractLsb', getLsbD_place]
  simp [hk, hlt]

/-- A field leaves every bit off its place 0. -/
theorem extractLsb'_place_of_disjoint {n lo m pos : Nat} (field : BitVec n) (h : pos + m ≤ lo ∨ lo + n ≤ pos) :
    (place field lo).extractLsb' pos m = 0#m := by
  refine BitVec.eq_of_getLsbD_eq fun k hk => ?_
  obtain hbelow | habove := h
  · have hlo : ¬ lo ≤ pos + k := by omega
    simp [getLsbD_place, hlo]
  · have hn : n ≤ pos + k - lo := by omega
    simp [getLsbD_place, BitVec.getLsbD_of_ge _ _ hn]

/-- A field put back where it was taken from is the word with every other bit cleared. -/
theorem place_extractLsb' (w : Word) (lo n : Nat) :
    place (w.extractLsb' lo n) lo = w &&& place (BitVec.allOnes n) lo := by
  refine BitVec.eq_of_getLsbD_eq fun k hk => ?_
  rw [BitVec.getLsbD_and, getLsbD_place, getLsbD_place]
  by_cases hlo : lo ≤ k
  · simp [hlo, hk, Bool.and_comm]
  · simp [hlo]

/-- `OP` and the 28 bits below it make up a word (R80). -/
theorem place_opField_or_rest (w : Word) : place (opField w) 28 ||| (w &&& 0x0FFFFFFF#32) = w := by
  rw [opField, place_extractLsb', ← BitVec.and_or_distrib_left]
  exact BitVec.and_allOnes

theorem word_eq_iff (x y : Word) :
    x = y ↔ opField x = opField y ∧ x &&& 0x0FFFFFFF#32 = y &&& 0x0FFFFFFF#32 := by
  refine ⟨by rintro rfl; exact ⟨rfl, rfl⟩, fun ⟨hop, hrest⟩ => ?_⟩
  rw [← place_opField_or_rest x, hop, hrest, place_opField_or_rest y]

/-! ### The rows of the opcode table -/

theorem OpcodeRow.covers_iff (r : OpcodeRow) (w : Word) : r.covers w = true ↔ w &&& r.mask = r.pattern := beq_iff_eq

/-- A row fixes the whole of `OP`, at its opcode's value, and fixes no other bit to 1 (R83). -/
theorem row_opField : ∀ r ∈ opcodeTable,
    opField r.mask = 0xF#4 ∧ opField r.pattern = r.op.code ∧ r.pattern &&& 0x0FFFFFFF#32 = 0#32 := by decide

/-- No two rows have one opcode value (R83). -/
theorem row_eq_of_code_eq : ∀ r ∈ opcodeTable, ∀ q ∈ opcodeTable, r.op.code = q.op.code → r = q := by decide

/-- `OP` is 0x0 or 0xC to 0xF exactly when it is the opcode of no row (R83, R94). -/
theorem opcode_reserved_iff : ∀ op : BitVec 4,
    (op = 0x0#4 ∨ op = 0xC#4 ∨ op = 0xD#4 ∨ op = 0xE#4 ∨ op = 0xF#4) ↔ ∀ r ∈ opcodeTable, op ≠ r.op.code := by
  decide

/-- A word matches a row when its `OP` is the row's opcode and every bit the row's format reserves is 0 (R81, R83). -/
theorem matches_iff {r : OpcodeRow} (hr : r ∈ opcodeTable) (w : Word) :
    w &&& r.mask = r.pattern ↔ opField w = r.op.code ∧ w &&& r.mask &&& 0x0FFFFFFF#32 = 0#32 := by
  obtain ⟨hmask, hpattern, hrest⟩ := row_opField r hr
  have hop : opField (w &&& r.mask) = opField w := by
    rw [opField, BitVec.extractLsb'_and]
    exact (congrArg (opField w &&& ·) hmask).trans BitVec.and_allOnes
  rw [word_eq_iff, hop, hpattern, hrest]

/-- A word matches at most one row (R83). -/
theorem row_unique {w : Word} {r q : OpcodeRow} (hr : r ∈ opcodeTable) (hq : q ∈ opcodeTable)
    (hrw : w &&& r.mask = r.pattern) (hqw : w &&& q.mask = q.pattern) : r = q := by
  obtain ⟨hrop, -⟩ := (matches_iff hr w).mp hrw
  obtain ⟨hqop, -⟩ := (matches_iff hq w).mp hqw
  exact row_eq_of_code_eq r hr q hq (hrop.symm.trans hqop)

/-- A word matches no row exactly when its `OP` is no row's, or a bit that its row reserves is 1 (R94). -/
theorem matches_no_row_iff (w : Word) :
    (∀ r ∈ opcodeTable, w &&& r.mask ≠ r.pattern) ↔ (∀ r ∈ opcodeTable, opField w ≠ r.op.code)
      ∨ ∃ r ∈ opcodeTable, opField w = r.op.code ∧ w &&& r.mask &&& 0x0FFFFFFF#32 ≠ 0#32 := by
  constructor
  · intro hnone
    by_cases hop : ∃ r ∈ opcodeTable, opField w = r.op.code
    · obtain ⟨r, hr, hcode⟩ := hop
      exact .inr ⟨r, hr, hcode, fun hz => hnone r hr ((matches_iff hr w).mpr ⟨hcode, hz⟩)⟩
    · exact .inl fun r hr hcode => hop ⟨r, hr, hcode⟩
  · intro h q hq hqw
    obtain ⟨hcode, hz⟩ := (matches_iff hq w).mp hqw
    obtain hnone | ⟨r, hr, hrcode, hbit⟩ := h
    · exact hnone q hq hcode
    · obtain rfl := row_eq_of_code_eq r hr q hq (hrcode.symm.trans hcode)
      exact hbit hz

/-! ### The decoder -/

/-- A word decodes to a command exactly when it matches a row and the command is the row's, with the word's operands
(R82, R83). -/
theorem decode_eq_command_iff (w : Word) (i : Instr) :
    decode w = .command i ↔ ∃ r ∈ opcodeTable, w &&& r.mask = r.pattern ∧ r.op.withOperands w = i := by
  cases hf : opcodeTable.find? (fun r => r.covers w) with
  | none =>
    have hnone : ∀ r ∈ opcodeTable, ¬ r.covers w = true := List.find?_eq_none.mp hf
    simp only [decode, hf, reduceCtorEq, false_iff, not_exists, not_and]
    exact fun r hr hw => absurd ((r.covers_iff w).mpr hw) (hnone r hr)
  | some q =>
    have hq := List.mem_of_find?_eq_some hf
    have hqw := (q.covers_iff w).mp (List.find?_some (p := fun r : OpcodeRow => r.covers w) hf)
    simp only [decode, hf, Decoded.command.injEq]
    refine ⟨fun h => ⟨q, hq, hqw, h⟩, fun ⟨r, hr, hrw, h⟩ => ?_⟩
    rw [row_unique hq hr hqw hrw]
    exact h

/-- A word is illegal exactly when it matches no row (R94). -/
theorem decode_eq_illegal_iff (w : Word) :
    (∃ why, decode w = .illegal why) ↔ ∀ r ∈ opcodeTable, w &&& r.mask ≠ r.pattern := by
  have hcommand : (∃ i, decode w = .command i) ↔ ∃ r ∈ opcodeTable, w &&& r.mask = r.pattern := by
    simp [decode_eq_command_iff]
  have hillegal : (∃ why, decode w = .illegal why) ↔ ¬ ∃ i, decode w = .command i := by
    cases decode w <;> simp
  rw [hillegal, hcommand]
  simp

/-! ### The encoder -/

/-- The operands are read back from the places the command's format puts them at (R81, R82). -/
theorem withOperands_encode (i : Instr) : i.op.withOperands (encode i) = i := by
  cases i with
  | endTxn | sendAck | sendNack | recvAck | readByte => rfl
  | _ =>
    simp [Instr.op, Op.withOperands, encode, formatA, formatB, formatC, formatW, formatR, formatQ, addrField,
      value8Field, value16Field, regField, sdaField, sclField, countField, BitVec.extractLsb'_or,
      extractLsb'_place_same, extractLsb'_place_of_disjoint]

/-- Every command's word is covered by the row of its opcode (R81, R83). -/
theorem encode_covered (i : Instr) : Laws.EncodingRow.Statement i := by
  cases i with
  | configure a d c => exact Laws.EncodingRow.configure a d c
  | start a => exact Laws.EncodingRow.start a
  | endTxn => exact Laws.EncodingRow.endTxn
  | sendAck => exact Laws.EncodingRow.sendAck
  | sendNack => exact Laws.EncodingRow.sendNack
  | recvAck => exact Laws.EncodingRow.recvAck
  | writeByte v => exact Laws.EncodingRow.writeByte v
  | readByte => exact Laws.EncodingRow.readByte
  | writeReg r v => exact Laws.EncodingRow.writeReg r v
  | readReg r => exact Laws.EncodingRow.readReg r
  | requestRead a n => exact Laws.EncodingRow.requestRead a n

/-- A row's command with the operands of a word is encoded as the row's fixed bits, and every bit of the word that the
row leaves to an operand (R81, R83). -/
theorem encode_withOperands (w : Word) {r : OpcodeRow} (hr : r ∈ opcodeTable) :
    encode (r.op.withOperands w) = r.pattern ||| (w &&& ~~~r.mask) := by
  revert r
  simp only [opcodeTable, List.forall_mem_cons, List.not_mem_nil, false_implies, implies_true, and_true,
    Op.withOperands, encode, formatN, formatA, formatB, formatC, formatW, formatR, formatQ, addrField, value8Field,
    value16Field, regField, sdaField, sclField, countField, place_extractLsb', BitVec.or_assoc,
    ← BitVec.and_or_distrib_left]
  and_intros <;> simp [place, Op.code]

/-- A word that matches a row is made up of the row's fixed bits and the bits the row leaves to an operand (R83). -/
theorem pattern_or_operands {w : Word} {r : OpcodeRow} (h : w &&& r.mask = r.pattern) :
    r.pattern ||| (w &&& ~~~r.mask) = w := by
  rw [← h, ← BitVec.and_or_distrib_left, BitVec.or_not_self, BitVec.and_allOnes]

/-! ### The assembler line -/

theorem fits_iff (w n : Nat) : fits w n = true ↔ n < 2 ^ w := decide_eq_true_iff

theorem fits_toNat {w : Nat} (x : BitVec w) : fits w x.toNat = true := (fits_iff w _).mpr x.isLt

theorem toNat_ofNat_of_fits {w n : Nat} (h : fits w n = true) : (BitVec.ofNat w n).toNat = n :=
  (BitVec.toNat_ofNat n w).trans (Nat.mod_eq_of_lt ((fits_iff w n).mp h))

theorem wellFormed_toAsm (i : Instr) : i.toAsm.wellFormed = true := by
  cases i <;> simp [Instr.toAsm, AsmLine.wellFormed, fits_toNat]

theorem command_toAsm (i : Instr) : i.toAsm.command = i := by
  cases i <;> simp [Instr.toAsm, AsmLine.command]

/-- A well-formed line is its command's: no operand was cut (R97). -/
theorem toAsm_command {l : AsmLine} (h : l.wellFormed = true) : l.command.toAsm = l := by
  cases l <;>
    simp_all [AsmLine.wellFormed, AsmLine.command, Instr.toAsm, toNat_ofNat_of_fits, -BitVec.toNat_ofNat]

/-- A line assembles to a command exactly when it is that command's line (R97). -/
theorem assemble_eq_some_iff (l : AsmLine) (i : Instr) : l.assemble = some i ↔ i.toAsm = l := by
  constructor
  · intro h
    obtain ⟨hl, rfl⟩ : l.wellFormed = true ∧ l.command = i := by simpa [AsmLine.assemble] using h
    exact toAsm_command hl
  · rintro rfl
    rw [AsmLine.assemble, if_pos (wellFormed_toAsm i), command_toAsm]

end Sys2Proof

namespace Sys2Proof.Machine

open Sys2Proof

/-! ### The bytes of an address and of a value -/

/-- The device-address byte is the address above a 0 (R90). -/
theorem devByte_eq_append (a : Addr) : devByte a = a ++ 0#1 := by
  rw [devByte, BitVec.append_def, BitVec.shiftLeftZeroExtend_eq]
  rfl

/-- The register-address byte of a write is the index above a 0 (R91). -/
theorem regByteW_eq_append (r : RegIndex) : regByteW r = r ++ 0#1 := devByte_eq_append r

/-- The register-address byte of a read is the index above a 1 (R91). -/
theorem regByteR_eq_append (r : RegIndex) : regByteR r = r ++ 1#1 := by
  rw [regByteR, BitVec.append_def, BitVec.shiftLeftZeroExtend_eq]
  rfl

theorem toNat_append_bit {n : Nat} (x : BitVec n) (b : BitVec 1) : (x ++ b).toNat = 2 * x.toNat + b.toNat := by
  rw [BitVec.toNat_append, ← Nat.shiftLeft_add_eq_or_of_lt b.isLt, Nat.shiftLeft_eq, Nat.mul_comm]

/-- Reassembly puts the high byte above the low one (R92). -/
theorem assembleValue_eq_append (hi lo : Byte) : assembleValue hi lo = hi ++ lo := by
  rw [BitVec.append_def, BitVec.shiftLeftZeroExtend_eq]
  rfl

/-! ### The response -/

/-- The response word is the status placed at bit 28 and the value placed at bit 0 (R96). -/
theorem responseWord_eq_place (st : Status) (v : Value) :
    responseWord st v = place (statusCode st) 28 ||| place v 0 := by
  simp [responseWord, place]

@[simp] theorem status_responseWord (st : Status) (v : Value) :
    (responseWord st v).extractLsb' 28 4 = statusCode st := by
  rw [responseWord_eq_place, BitVec.extractLsb'_or, extractLsb'_place_same _ (by decide),
    extractLsb'_place_of_disjoint _ (by decide), BitVec.or_zero]

@[simp] theorem reserved_responseWord (st : Status) (v : Value) : (responseWord st v).extractLsb' 16 12 = 0#12 := by
  rw [responseWord_eq_place, BitVec.extractLsb'_or, extractLsb'_place_of_disjoint _ (by decide),
    extractLsb'_place_of_disjoint _ (by decide), BitVec.or_zero]

@[simp] theorem value_responseWord (st : Status) (v : Value) : (responseWord st v).extractLsb' 0 16 = v := by
  rw [responseWord_eq_place, BitVec.extractLsb'_or, extractLsb'_place_of_disjoint _ (by decide),
    extractLsb'_place_same _ (by decide), BitVec.zero_or]

/-- A completed command gives one response: OK, with its value (R96). -/
theorem State.completed_responses (s : State) (i : Instr) :
    (s.completed i).responses
      = s.responses ++ [responseWord .ok (valueOf i (runProgram (programOf i) (s.accept i)))] :=
  congrArg (· ++ _) (runProgram_ports (programOf i) (s.accept i)).2

/-- Only READ_REG, READ_BYTE and RECV_ACK have a result (R96). -/
theorem valueOf_eq_zero {i : Instr} (hreg : i.op ≠ .readReg) (hbyte : i.op ≠ .readByte) (hack : i.op ≠ .recvAck)
    (t : State) : valueOf i t = 0#16 := by
  cases i with
  | readReg r => exact absurd rfl hreg
  | readByte => exact absurd rfl hbyte
  | recvAck => exact absurd rfl hack
  | _ => rfl

end Sys2Proof.Machine
end

section
/-! PROOFS for the encoding family (30_encoding.md), the statements: command words, the assembler line, the bytes on the
wire, the response and the frames of the register commands. -/

namespace Sys2Proof.Machine

open Sys2Proof

/-! ### Command words -/

/-- Settles O1: a command's word matches the row of its opcode, and its operands are read back from that word. -/
theorem decodeOfEncode : Obligations.DecodeOfEncode := by
  intro i
  obtain ⟨r, hr, hop, hcovers⟩ := encode_covered i
  refine (decode_eq_command_iff _ i).mpr ⟨r, hr, (r.covers_iff _).mp hcovers, ?_⟩
  rw [hop, withOperands_encode]

/-- Settles O2: the word matches the command's row, whose mask leaves to operands exactly the bits it does not fix. -/
theorem encodeOfDecode : Obligations.EncodeOfDecode := by
  intro w i h
  obtain ⟨r, hr, hw, rfl⟩ := (decode_eq_command_iff w i).mp h
  rw [encode_withOperands w hr, pattern_or_operands hw]

/-- Settles O3: every row fixes `OP`, and no two rows have one opcode. -/
theorem opcodeRowsDisjoint : Obligations.OpcodeRowsDisjoint := fun _ _ _ => row_unique

/-- Settles O4: the decoder finds no row, and a row is missed by `OP` or by a reserved bit. -/
theorem illegalIffReserved : Obligations.IllegalIffReserved := by
  refine fun w => ⟨decode_eq_illegal_iff w, (decode_eq_illegal_iff w).trans ?_⟩
  rw [matches_no_row_iff, ← opcode_reserved_iff]
  simp only [or_assoc]

/-- Settles O5: the eleven words are the encoder's, so O1 decodes them; the two illegal ones by evaluation. -/
theorem workedWordsDecode : Obligations.WorkedWordsDecode :=
  ⟨decodeOfEncode (.configure 0x21#7 4#8 5#8), decodeOfEncode (.start 0x21#7), decodeOfEncode .endTxn,
    decodeOfEncode .sendAck, decodeOfEncode .sendNack, decodeOfEncode .recvAck, decodeOfEncode (.writeByte 0xB0#8),
    decodeOfEncode .readByte, decodeOfEncode (.writeReg 0x08#7 0x1234#16), decodeOfEncode (.readReg 0x08#7),
    decodeOfEncode (.requestRead 0x21#7 2#8), ⟨_, rfl⟩, ⟨_, rfl⟩⟩

/-- Settles O6: assembling a line and writing a command's line are each other's inverse. -/
theorem assemblyIsFaithful : Obligations.AssemblyIsFaithful :=
  ⟨fun i => (assemble_eq_some_iff _ i).mpr rfl, fun l i => (assemble_eq_some_iff l i).mp⟩

/-! ### The bytes on the wire -/

/-- Settles O7: an address byte is the seven bits above one more bit. -/
theorem addressBytes : Obligations.AddressBytes := by
  refine ⟨fun a => ?_, fun r => ⟨?_, ?_, ?_⟩⟩
  · rw [devByte_eq_append, toNat_append_bit]
    rfl
  · rw [regByteW_eq_append, toNat_append_bit]
    rfl
  · rw [regByteR_eq_append, toNat_append_bit]
    rfl
  · rw [regByteW_eq_append, regByteR_eq_append, BitVec.xor_append, BitVec.xor_self]
    rfl

/-- Settles O8: reassembly appends the two bytes, and the split takes them apart. -/
theorem valueSplitLossless : Obligations.ValueSplitLossless := by
  refine ⟨fun v => ?_, fun hi lo => ?_⟩
  · rw [assembleValue_eq_append]
    exact BitVec.extractLsb'_append_extractLsb'
  · rw [assembleValue_eq_append]
    exact ⟨BitVec.extractLsb'_append_eq_left, BitVec.extractLsb'_append_eq_right⟩

/-- Settles O33: a fault responds its status and value 0, a command that runs OK and its value. -/
theorem oneResponsePerCommand : Obligations.OneResponsePerCommand := by
  intro i s t he
  obtain ⟨-, -, rfl⟩ | ⟨-, rfl⟩ := exec_next he
  · refine ⟨_, s.raise_responses .configurationError, ?_⟩
    simp [statusCode]
  · refine ⟨_, s.completed_responses i, ?_⟩
    simp only [status_responseWord, reserved_responseWord, value_responseWord]
    exact ⟨by decide, trivial, fun h => absurd rfl h, fun hreg hbyte hack => valueOf_eq_zero hreg hbyte hack _⟩

/-- Settles O57: the symbols each register command's program runs; READ_REG's samples are the bits of the bytes it
leaves in `RXHI` and `SHIFT`. -/
theorem registerFrames : Obligations.RegisterFrames := by
  intro s hs hw
  have hne := hs.2.2
  have hq (i : Instr) : (s.accept i).seq ≠ .idle := nofun
  refine ⟨fun r v => ?_, fun r => ?_⟩
  · obtain ⟨a0, a1, a2, a3, -, ps, ht, -, hsym⟩ := writeReg_run (s := s.accept (.writeReg r v)) hne (hq _) r v
    refine ⟨_, a0, a1, a2, a3, exec_of_mayRun hs, ?_⟩
    rw [symbolsSince, traceSince_of_append (completed_trace ht), hsym hw]
    simp only [List.append_assoc]
    rfl
  · obtain ⟨a0, a1, hi, lo, hhi, hlo, -, -, hreg, ps, ht, -, hsym⟩ :=
      readReg_run (s := s.accept (.readReg r)) hne (hq _) r
    have hrxhi : (s.completed (.readReg r)).rxhi = assembleBits hi := congrArg Registers.rxhi hreg
    have hshift : (s.completed (.readReg r)).shift = assembleBits lo := congrArg Registers.shift hreg
    refine ⟨_, a0, a1, exec_of_mayRun hs, ?_⟩
    rw [symbolsSince, traceSince_of_append (completed_trace ht), hsym hw, hrxhi, hshift]
    simp only [byteSymbols, bitsMsbFirst_assembleBits hhi, bitsMsbFirst_assembleBits hlo, List.append_assoc]
    rfl

end Sys2Proof.Machine
end

section
/-! PROOFS for the configuration family (40_config.md): the command of a word that matches a row, the state the two
bookkeeping commands leave, and the statements. -/

namespace Sys2Proof

/-- A word that matches a row is the row's command, with the operands the word holds (R82, R83). -/
theorem decode_of_matches {w : Word} {r : OpcodeRow} (hr : r ∈ opcodeTable) (h : w &&& r.mask = r.pattern) :
    decode w = .command (r.op.withOperands w) :=
  (decode_eq_command_iff w _).mpr ⟨r, hr, h, rfl⟩

end Sys2Proof

namespace Sys2Proof.Machine

open Sys2Proof

/-! ### The bookkeeping commands -/

/-- The response of a command without a result is the word 0 (R96). -/
theorem State.respond_ok_zero (s : State) :
    s.respond .ok 0#16 = { s with seq := .idle, responses := s.responses ++ [0x00000000#32] } := by
  rw [State.respond, responseWord_ok]
  rfl

/-- CONFIGURE's program is its register writes (R110). -/
theorem completed_configure (s : State) (a : Addr) (d c : LineId) :
    s.completed (.configure a d c) = (s.setCfg a d c).respond .ok 0#16 := rfl

/-- REQUEST_READ's program is its register writes (R112). -/
theorem completed_requestRead (s : State) (a : Addr) (n : Count) :
    s.completed (.requestRead a n) = (s.setPend a n).respond .ok 0#16 := rfl

/-- Settles O13: the word matches CONFIGURE's row; outside a transaction the command completes with `CFG` written. -/
theorem configureRecords : Obligations.ConfigureRecords := by
  refine ⟨fun w hw => ?_, fun s a d c ht => ?_⟩
  · exact decode_of_matches (r := ⟨.configure, 0x10000000#32, 0xFF000080#32⟩) (by decide) hw
  · rw [exec_of_mayRun (i := .configure a d c) ht, completed_configure, State.respond_ok_zero]
    rfl

/-- Settles O14: the word matches REQUEST_READ's row; the command may run in every state and completes with `PEND`
written. -/
theorem requestReadRecords : Obligations.RequestReadRecords := by
  refine ⟨fun w hw => ?_, fun s a n => ?_⟩
  · exact decode_of_matches (r := ⟨.requestRead, 0xB0000000#32, 0xFFFF0080#32⟩) (by decide) hw
  · rw [exec_of_mayRun (i := .requestRead a n) trivial, completed_requestRead, State.respond_ok_zero]
    rfl

end Sys2Proof.Machine
end

section
/-! PROOFS for the START/STOP family (41_start_stop.md), the shared facts: the symbols one command adds to the trace,
the step of the command port that takes it, and the steps of a transaction. -/

namespace Sys2Proof.Machine

open Sys2Proof

/-! ### Symbols added to the trace -/

/-- The trace of `t` is that of `s` and a stretch that a harness reads as `syms`, begun and ended with no slot under
way. -/
def AddsSymbols (s t : State) (syms : List Symbol) : Prop :=
  ∃ ps, t.trace = s.trace ++ ps ∧ Slots ps syms

theorem AddsSymbols.of_trace_eq {s t : State} (h : t.trace = s.trace) : AddsSymbols s t [] :=
  ⟨[], h.trans (List.append_nil _).symm, Slots.nil⟩

theorem AddsSymbols.trans {s t u : State} {ss zs : List Symbol} (h : AddsSymbols s t ss) (g : AddsSymbols t u zs) :
    AddsSymbols s u (ss ++ zs) := by
  obtain ⟨ps, ht, hs⟩ := h
  obtain ⟨qs, hu, hz⟩ := g
  exact ⟨ps ++ qs, by rw [hu, ht, List.append_assoc], hs.append hz⟩

theorem AddsSymbols.symbolsSince_eq {s t : State} {syms : List Symbol} (h : AddsSymbols s t syms) :
    symbolsSince s t = syms := by
  obtain ⟨ps, ht, hs⟩ := h
  rw [symbolsSince, traceSince_of_append ht, hs.symbols]

/-- Begun with a low clock line, a command whose program ran these symbols adds them. -/
theorem Ran.addsSymbols {s : State} {i : Instr} {es : List Event} {sy : List Symbol} {g : Registers}
    (h : Ran (s.accept i) es sy g (runProgram (programOf i) (s.accept i))) (hl : s.clockLow) :
    AddsSymbols s (s.completed i) sy := by
  obtain ⟨ps, ht, -, hs⟩ := h.trace
  exact ⟨ps, completed_trace ht, hs hl⟩

/-! ### The symbols of START, of END and of the commands between them -/

/-- What START makes: a STOP condition comes first where event 0 raises SDA under an SCL that is and stays at 1
(R121). -/
def State.startSymbols (s : State) : List Symbol :=
  if s.wire .sda = false ∧ s.wire .scl = true ∧ (s.drv .sda true).wire .scl = true then [.P, .S] else [.S]

theorem State.startSymbols_of_sda_high {s : State} (h : s.wire .sda = true) : s.startSymbols = [.S] := by
  simp [State.startSymbols, h]

/-- START's program as the command runs it (R120). -/
theorem startCommand_run {s : State} (h : s.canOpen) (a : Addr) :
    (runProgram (programOf (.start a)) (s.accept (.start a))).registers
        = { s.registers with
            cfg := { s.cfg with slaveAddr := a }
            inTxn := true
            pins := s.pinsWith ⟨.output, false⟩ ⟨.output, false⟩ }
      ∧ ∃ ps, (runProgram (programOf (.start a)) (s.accept (.start a))).trace = s.trace ++ ps
        ∧ ps.map TracePoint.event = startEventList ∧ Slots ps s.startSymbols := by
  have hrun : runProgram (programOf (.start a)) (s.accept (.start a))
      = runProgram startEvents ((s.accept (.start a)).setSlaveAddr a) := runProgram_cons _ _ _
  have hsyms : s.startSymbols
      = (if (!s.wire .sda && s.wire .scl && (s.drv .sda true).wire .scl) = true then [.P] else []) ++ [.S] := by
    rw [State.startSymbols, apply_ite (· ++ [Symbol.S])]
    simp [and_assoc]
  obtain ⟨hregs, -, -, ps, ht, he, hs⟩ := startEvents_run (s := (s.accept (.start a)).setSlaveAddr a) h.2.2
  rw [hrun, hsyms]
  exact ⟨hregs, ps, ht, he, hs⟩

theorem addsSymbols_start {s : State} (h : s.canOpen) (a : Addr) :
    AddsSymbols s (s.completed (.start a)) s.startSymbols := by
  obtain ⟨-, ps, ht, -, hs⟩ := startCommand_run h a
  exact ⟨ps, completed_trace ht, hs⟩

theorem addsSymbols_end {s : State} (h : s.canTransfer) (hl : s.clockLow) :
    AddsSymbols s (s.completed .endTxn) [.P] := by
  obtain ⟨-, -, ps, ht, -, hs⟩ := endProgram_run (s := s.accept .endTxn) h.2.2
  exact ⟨ps, ht, hs hl⟩

theorem State.mayRun_of_inner {s : State} {i : Instr} (hi : i.inner = true) (h : s.canTransfer) : s.mayRun i := by
  cases i with
  | configure | start | endTxn | writeReg | readReg => cases hi
  | requestRead => trivial
  | _ => exact h

/-- A command between START and END makes one bit per slot and no condition (R59, R62, R124). -/
theorem addsSymbols_inner {s : State} {i : Instr} (hi : i.inner = true) (h : s.canTransfer) (hl : s.clockLow) :
    ∃ bits : List Bool, bits.length = i.slots ∧ AddsSymbols s (s.completed i) (bits.map .bit) := by
  obtain ⟨-, -, hne⟩ := h
  have hq (i : Instr) : (s.accept i).seq ≠ .idle := nofun
  cases i with
  | configure | start | endTxn | writeReg | readReg => cases hi
  | requestRead => exact ⟨[], rfl, .of_trace_eq rfl⟩
  | writeByte v =>
    exact ⟨bitsMsbFirst v, by rw [bitsMsbFirst_eq]; rfl,
      (writeByte_ran (s := s.accept (.writeByte v)) hne v).addsSymbols hl⟩
  | sendAck => exact ⟨[false], rfl, (sendAck_ran (s := s.accept .sendAck) hne).addsSymbols hl⟩
  | sendNack => exact ⟨[true], rfl, (sendNack_ran (s := s.accept .sendNack) hne).addsSymbols hl⟩
  | readByte =>
    exact ⟨_, Env.length_readBits 8 _, (readByte_ran (s := s.accept .readByte) hne (hq _)).1.addsSymbols hl⟩
  | recvAck => exact ⟨[_], rfl, (recvAck_ran (s := s.accept .recvAck) hne (hq _)).1.addsSymbols hl⟩

/-! ### The step that takes a command -/

/-- What the host has yet to present decides nothing about a command (R210). -/
theorem State.mayRun_with_commands {s : State} {i : Instr} (h : s.mayRun i) (ws : List Word) :
    ({ s with commands := ws } : State).mayRun i := by
  cases i <;> exact h

theorem State.completed_commands (s : State) (i : Instr) : (s.completed i).commands = s.commands :=
  (runProgram_ports (programOf i) (s.accept i)).1

/-- A step that takes the word of a command that may run carries the command out (R31). -/
theorem step_encode {s : State} {i : Instr} {ws : List Word} (hq : s.seq = .idle)
    (hc : s.commands = encode i :: ws) (hr : s.mayRun i) :
    step s = .next (({ s with commands := ws } : State).completed i) := by
  rw [stepRunsDecodedCommand s _ ws i hq hc (decodeOfEncode i)]
  exact exec_of_mayRun (State.mayRun_with_commands hr ws)

/-- The only step of a run of length 1. -/
theorem core_run_one {s t : State} (h : step s = .next t) : Sys2Proof.core.run 1 s = .next t :=
  core_run_succ (M := Sys2Proof.core) 0 h

theorem step_start {s : State} {a : Addr} {ws : List Word} (hq : s.seq = .idle)
    (hc : s.commands = encode (.start a) :: ws) (h : s.canOpen) :
    ∃ t, step s = .next t ∧ AddsSymbols s t s.startSymbols ∧ t.inTxn = true ∧ t.commands = ws := by
  have hl := leaves_of_mayRun (s := { s with commands := ws }) (i := .start a) h
  have hsym := addsSymbols_start (s := { s with commands := ws }) h a
  exact ⟨_, step_encode hq hc h, hsym, hl.inTxn, State.completed_commands _ _⟩

theorem step_end {s : State} {ws : List Word} (hq : s.seq = .idle) (hc : s.commands = encode .endTxn :: ws)
    (h : s.canTransfer) (hl : s.clockLow) : ∃ t, step s = .next t ∧ AddsSymbols s t [.P] :=
  ⟨_, step_encode hq hc h, addsSymbols_end (s := { s with commands := ws }) h hl⟩

theorem op_ne_of_inner {i : Instr} (h : i.inner = true) : i.op ≠ .start ∧ i.op ≠ .endTxn := by
  cases i with
  | configure | start | endTxn | writeReg | readReg => cases h
  | _ => exact ⟨nofun, nofun⟩

theorem step_inner {s : State} {i : Instr} {ws : List Word} (hq : s.seq = .idle) (hc : s.commands = encode i :: ws)
    (hi : i.inner = true) (h : s.canTransfer) (hl : s.clockLow) :
    ∃ (t : State) (bits : List Bool), step s = .next t ∧ bits.length = i.slots ∧ AddsSymbols s t (bits.map .bit)
      ∧ t.inTxn = true ∧ t.commands = ws := by
  obtain ⟨bits, hlen, hsym⟩ := addsSymbols_inner (s := { s with commands := ws }) hi h hl
  have hr := State.mayRun_of_inner hi h
  obtain ⟨hstart, hend⟩ := op_ne_of_inner hi
  have ht := (leaves_of_mayRun (State.mayRun_with_commands hr ws)).inTxn
  rw [if_neg hstart, if_neg hend] at ht
  exact ⟨_, bits, step_encode hq hc hr, hlen, hsym, ht.trans h.2.1, State.completed_commands _ _⟩

/-! ### The steps of a transaction -/

/-- An idle block with no transaction open is between commands. -/
theorem State.betweenCommands_of_closed {s : State} (hq : s.seq = .idle) (ht : s.inTxn = false) :
    s.BetweenCommands := by
  constructor <;> simp [hq, ht]

theorem State.BetweenCommands.canTransfer {s : State} (h : s.BetweenCommands) (ht : s.inTxn = true) :
    s.canTransfer :=
  ⟨h.configured ht, ht, h.linesDiffer ht⟩

/-- Inside a transaction the steps of any commands that may stand there and of END make one bit per slot and a STOP
condition: each command finds the transaction open and the clock line low, and leaves both so (R123, R124). -/
theorem run_inner_end {s : State} {is : List Instr} {ws : List Word} (hb : s.BetweenCommands) (ht : s.inTxn = true)
    (his : ∀ i ∈ is, i.inner = true) (hc : s.commands = is.map encode ++ encode .endTxn :: ws) :
    ∃ (t : State) (bits : List Bool), Sys2Proof.core.run (is.length + 1) s = .next t
      ∧ bits.length = (is.map Instr.slots).sum ∧ AddsSymbols s t (bits.map .bit ++ [.P]) := by
  induction is generalizing s with
  | nil =>
    obtain ⟨t, hstep, hsym⟩ := step_end hb.idle hc (hb.canTransfer ht) (hb.clockLow ht)
    exact ⟨t, [], core_run_one hstep, rfl, hsym⟩
  | cons i is ih =>
    obtain ⟨hi, his⟩ := List.forall_mem_cons.mp his
    obtain ⟨u, bits, hstep, hlen, hsym, hu, hcu⟩ := step_inner hb.idle hc hi (hb.canTransfer ht) (hb.clockLow ht)
    obtain ⟨t, bits', hrun, hlen', hsym'⟩ := ih (stepKeepsBetweenCommands s u hb hstep) hu his hcu
    refine ⟨t, bits ++ bits', (core_run_succ (M := Sys2Proof.core) _ hstep).trans hrun, ?_, ?_⟩
    · rw [List.length_append, hlen, hlen', List.map_cons, List.sum_cons]
    · rw [List.map_append, List.append_assoc]
      exact hsym.trans hsym'

/-- Begun with SDA at 1, START makes its START condition alone, and opens the transaction the other steps run in
(R124). -/
theorem run_bracket {s : State} {a : Addr} {is : List Instr} {ws : List Word} (h : s.canOpen) (hq : s.seq = .idle)
    (hsda : s.wire .sda = true) (his : ∀ i ∈ is, i.inner = true)
    (hc : s.commands = encode (.start a) :: (is.map encode ++ encode .endTxn :: ws)) :
    ∃ (t : State) (bits : List Bool), Sys2Proof.core.run (is.length + 2) s = .next t
      ∧ bits.length = (is.map Instr.slots).sum ∧ AddsSymbols s t ([.S] ++ (bits.map .bit ++ [.P])) := by
  obtain ⟨u, hstep, hstart, hu, hcu⟩ := step_start hq hc h
  rw [State.startSymbols_of_sda_high hsda] at hstart
  have hb := stepKeepsBetweenCommands s u (State.betweenCommands_of_closed hq h.2.1) hstep
  obtain ⟨t, bits, hrun, hlen, hsym⟩ := run_inner_end hb hu his hcu
  exact ⟨t, bits, (core_run_succ (M := Sys2Proof.core) _ hstep).trans hrun, hlen, hstart.trans hsym⟩

end Sys2Proof.Machine
end

section
/-! PROOFS for the START/STOP family (41_start_stop.md), the statements: what START and END do, the conditions they
make, and the bracket law. -/

namespace Sys2Proof.Machine

open Sys2Proof

/-! ### START and END -/

/-- The response word of a command without a result (R96). -/
theorem responseWord_ok_zero : responseWord .ok 0#16 = 0x00000000#32 := rfl

/-- Settles O15: the word matches START's row; unconfigured the command is a fault, and where it may run its program
leaves the registers and emits the events of `startCommand_run`. -/
theorem startSequence : Obligations.StartSequence := by
  refine ⟨fun w hw => ?_, fun s a hu => ?_, fun s a h => ?_⟩
  · exact decode_of_matches (r := ⟨.start, 0x20000000#32, 0xFFFFFF80#32⟩) (by decide) hw
  · exact exec_of_unconfigured rfl hu
  · obtain ⟨hregs, ps, ht, he, -⟩ := startCommand_run h a
    refine ⟨_, exec_of_mayRun h, eventsSince_completed ht he, ?_⟩
    rw [← responseWord_ok_zero]
    exact completed_of_registers hregs rfl

/-- Settles O16: the word matches END's row; inside a transaction the program leaves the registers and emits the events
of `endProgram_run`. -/
theorem endSequence : Obligations.EndSequence := by
  refine ⟨fun w hw => ?_, fun s h => ?_⟩
  · exact decode_of_matches (r := ⟨.endTxn, 0x30000000#32, 0xFFFFFFFF#32⟩) (by decide) hw
  · obtain ⟨hregs, -, ps, ht, he, -⟩ := endProgram_run (s := s.accept .endTxn) h.2.2
    refine ⟨_, exec_of_mayRun h, eventsSince_completed (i := .endTxn) ht he, ?_⟩
    rw [← responseWord_ok_zero]
    exact completed_of_registers hregs rfl

/-! ### The conditions -/

/-- Settles O53: START makes `startSymbols`; CONFIGURE adds nothing to the trace, and the levels START finds after it
are those of the lines it names. -/
theorem startConditionOnce : Obligations.StartConditionOnce := by
  refine ⟨fun s a h => ⟨_, exec_of_mayRun h, (addsSymbols_start h a).symbolsSince_eq⟩, ?_⟩
  rintro s u a b d c ws hq ht hdc rfl
  have hconfigure := step_encode (i := .configure b d c)
    (s := { s with commands := encode (.configure b d c) :: encode (.start a) :: ws }) hq rfl ht
  rw [completed_configure] at hconfigure
  obtain ⟨t, hstart, hsym, -⟩ := step_start (a := a) (ws := ws)
    (s := (({ s with commands := encode (.start a) :: ws } : State).setCfg b d c).respond .ok 0#16) rfl rfl
    ⟨rfl, ht, hdc⟩
  exact ⟨t, (core_run_succ (M := Sys2Proof.core) 1 hconfigure).trans (core_run_one hstart), hsym.symbolsSince_eq⟩

/-- Settles O54: the symbols of END from a low clock line. -/
theorem stopConditionOnce : Obligations.StopConditionOnce := fun _ h hl =>
  ⟨_, exec_of_mayRun h, (addsSymbols_end h hl).symbolsSince_eq⟩

/-- Settles O56, from the state in which the host has the transaction's words to present. -/
theorem bracketLaw : Obligations.BracketLaw := by
  intro s a is ws h hq hsda his
  obtain ⟨t, bits, hrun, hlen, hsym⟩ := run_bracket
    (s := { s with commands := encode (.start a) :: (is.map encode ++ encode .endTxn :: ws) }) h hq hsda his rfl
  exact ⟨t, bits, hrun, hlen, hsym.symbolsSince_eq⟩

end Sys2Proof.Machine
end

section
/-! PROOFS for the byte shifter family (42_byte_shifter.md): the bits of a byte determine it, and the statements. -/

namespace Sys2Proof.Machine

open Sys2Proof

/-! ### The bits of a byte -/

@[simp] theorem length_bitsMsbFirst (v : Byte) : (bitsMsbFirst v).length = 8 := by
  rw [bitsMsbFirst_eq]
  rfl

/-- Two bytes with the same bits in sending order are the same byte (R130). -/
theorem bitsMsbFirst_injective : Function.Injective bitsMsbFirst := by
  intro v x h
  simp only [bitsMsbFirst_eq, List.cons.injEq, and_true] at h
  obtain ⟨h7, h6, h5, h4, h3, h2, h1, h0⟩ := h
  refine BitVec.eq_of_getLsbD_eq fun i hi => ?_
  interval_cases i
  exacts [h0, h1, h2, h3, h4, h5, h6, h7]

/-- Settles O9: the bits of an assembled byte are the samples, so the byte assembled from the bits of `v` has `v`'s bits
and is `v`. -/
theorem shifterLaws : Obligations.ShifterLaws :=
  ⟨bitsMsbFirst_eq,
    fun v => bitsMsbFirst_injective (bitsMsbFirst_assembleBits (length_bitsMsbFirst v)),
    fun _ => bitsMsbFirst_assembleBits⟩

/-! ### WRITE_BYTE and READ_BYTE -/

/-- Settles O17: the word matches WRITE_BYTE's row; inside a transaction the program leaves the registers and emits the
events of `writeByte_ran`. -/
theorem writeByteSequence : Obligations.WriteByteSequence := by
  refine ⟨fun w hw => ?_, fun s v h => ?_⟩
  · exact decode_of_matches (r := ⟨.writeByte, 0x70000000#32, 0xFFFFFF00#32⟩) (by decide) hw
  · have hran := writeByte_ran (s := s.accept (.writeByte v)) h.2.2 v
    refine ⟨_, exec_of_mayRun h, hran.completed_eventsSince, ?_⟩
    rw [← responseWord_ok_zero]
    exact completed_of_registers hran.registers rfl

/-- Settles O18: the word matches READ_BYTE's row; inside a transaction the bits are the eight the environment puts on
the released SDA, and the response is the `SHIFT` that `readByte_ran` assembles from them. -/
theorem readByteSequence : Obligations.ReadByteSequence := by
  refine ⟨fun w hw => ?_, fun s h => ?_⟩
  · exact decode_of_matches (r := ⟨.readByte, 0x80000000#32, 0xFFFFFFFF#32⟩) (by decide) hw
  · obtain ⟨hran, -⟩ := readByte_ran (s := s.accept .readByte) h.2.2 nofun
    refine ⟨_, _, exec_of_mayRun h, Env.length_readBits 8 s.env, hran.completed_eventsSince, ?_⟩
    rw [← responseWord_ok_byte]
    exact completed_of_registers hran.registers (valueOf_readByte hran.shift)

end Sys2Proof.Machine
end

section
/-! PROOFS for the ACK/NACK family (43_ack.md): what a driven and a sampled acknowledgment slot leave, and the
statements. -/

namespace Sys2Proof.Machine

open Sys2Proof

/-! ### SEND_ACK and SEND_NACK -/

/-- A command whose program is one slot in which SI2CM drives SDA at `b`, and which has no result: its events and the
state it leaves (R140, R141). -/
theorem completed_of_driveSlot {s : State} {i : Instr} {b : Bool}
    (h : Ran (s.accept i) (bitEvents b) [.bit b]
      { (s.accept i).registers with pins := (s.accept i).pinsWith ⟨.output, b⟩ ⟨.output, false⟩ }
      (runProgram (programOf i) (s.accept i)))
    (hv : valueOf i (runProgram (programOf i) (s.accept i)) = 0#16) :
    eventsSince s (s.completed i) = bitEvents b
      ∧ s.completed i = { s with
          seq := .idle
          pins := s.pinsWith ⟨.output, b⟩ ⟨.output, false⟩
          responses := s.responses ++ [0x00000000#32]
          env := (s.completed i).env
          trace := (s.completed i).trace } := by
  refine ⟨h.completed_eventsSince, ?_⟩
  rw [← responseWord_ok_zero]
  exact completed_of_registers h.registers hv

/-- Settles O19: the word matches SEND_ACK's row; inside a transaction the program is the slot of `sendAck_ran`. -/
theorem sendAckSequence : Obligations.SendAckSequence := by
  refine ⟨fun w hw => ?_, fun s h => ?_⟩
  · exact decode_of_matches (r := ⟨.sendAck, 0x40000000#32, 0xFFFFFFFF#32⟩) (by decide) hw
  · have hran := sendAck_ran (s := s.accept .sendAck) h.2.2
    exact ⟨_, exec_of_mayRun h, completed_of_driveSlot hran rfl⟩

/-- Settles O20: the word matches SEND_NACK's row; inside a transaction the program is the slot of `sendNack_ran`. -/
theorem sendNackSequence : Obligations.SendNackSequence := by
  refine ⟨fun w hw => ?_, fun s h => ?_⟩
  · exact decode_of_matches (r := ⟨.sendNack, 0x50000000#32, 0xFFFFFFFF#32⟩) (by decide) hw
  · have hran := sendNack_ran (s := s.accept .sendNack) h.2.2
    exact ⟨_, exec_of_mayRun h, completed_of_driveSlot hran rfl⟩

/-! ### RECV_ACK -/

/-- Settles O21: the word matches RECV_ACK's row; inside a transaction the sampled bit is the one the environment puts
on the released SDA, and `recvAck_ran` delivers it to the command in flight, whose response it is. -/
theorem recvAckSequence : Obligations.RecvAckSequence := by
  refine ⟨fun w hw => ?_, fun s h => ?_⟩
  · exact decode_of_matches (r := ⟨.recvAck, 0x60000000#32, 0xFFFFFFFF#32⟩) (by decide) hw
  · obtain ⟨hran, hbit, -⟩ := recvAck_ran (s := s.accept .recvAck) h.2.2 nofun
    refine ⟨_, _, exec_of_mayRun h, hran.completed_eventsSince, ?_⟩
    rw [← responseWord_ok_bit]
    exact completed_of_registers hran.registers (valueOf_recvAck hbit)

/-! ### The sampled bit is the response only -/

/-- Two responses given from the same registers leave states that differ in the response, the environment and the trace
only. -/
theorem State.respond_of_registers_eq {t u : State} (h : u.registers = t.registers) (st : Status) (x y : Value) :
    u.respond st y = { t.respond st x with
      responses := (u.respond st y).responses
      env := u.env
      trace := u.trace } := by
  obtain ⟨hcfg, hpend, htxn, hshift, hbitcnt, hrxhi, hpins, hcommands, -⟩ := Registers.mk.inj h
  simp only [State.respond, hcfg, hpend, htxn, hshift, hbitcnt, hrxhi, hpins, hcommands]

/-- The events of RECV_ACK are the same for either bit but for the bit itself (R142). -/
theorem shape_recvAckEvents (a b : Bool) :
    (recvAckEvents a).map Event.shape = (recvAckEvents b).map Event.shape := rfl

/-- Settles O27: in both environments `recvAck_ran` leaves the same registers and the same events but for the bit. -/
theorem recvAckBitIsResponseOnly : Obligations.RecvAckBitIsResponseOnly := by
  intro s e h
  obtain ⟨hs, -⟩ := recvAck_ran (s := s.accept .recvAck) h.2.2 nofun
  obtain ⟨he, -⟩ := recvAck_ran (s := ({ s with env := e } : State).accept .recvAck) h.2.2 nofun
  refine ⟨_, _, exec_of_mayRun (i := .recvAck) h, exec_of_mayRun (i := .recvAck) h, ?_, ?_⟩
  · exact State.respond_of_registers_eq (he.registers.trans hs.registers.symm) .ok _ _
  · rw [Ran.completed_eventsSince (i := .recvAck) hs, Ran.completed_eventsSince (i := .recvAck) he]
    exact shape_recvAckEvents _ _

end Sys2Proof.Machine
end

section
/-! PROOFS for the register access family (44_register_access.md), the shared facts: what READ_REG samples and leaves,
the census of an event list and of a frame, and the reference slave in a transaction of its own. -/

namespace Sys2Proof.Machine

open Sys2Proof

/-! ### What READ_REG samples and leaves -/

/-- Where no transaction is open the END of a register command leaves `IN_TXN` as the command found it (R151, R153). -/
theorem State.registers_closed_with {s : State} (h : s.inTxn = false) (p : Vector Pin 256) (x y : Byte)
    (n : BitVec 4) :
    ({ s.registers with inTxn := false, pins := p, shift := x, bitcnt := n, rxhi := y } : Registers)
      = { s.registers with pins := p, shift := x, bitcnt := n, rxhi := y } :=
  congrArg (fun g : Registers => { g with pins := p, shift := x, bitcnt := n, rxhi := y }) (State.registers_closed h)

/-- The events of a register command up to its register-address byte `v` and that byte's acknowledgment (R93, R151,
R153). -/
def addressEvents (a : Addr) (v : Byte) (a0 a1 : Bool) : List Event :=
  startEventList ++ (byteEvents (devByte a) ++ recvAckEvents a0) ++ (byteEvents v ++ recvAckEvents a1)

/-- What READ_REG samples, emits and leaves: the samples are what the environment, having observed the events before
them, puts on the released SDA (R132, R153). -/
theorem readReg_completed {s : State} (h : s.canOpen) (r : RegIndex) :
    ∃ a0 a1 hi lo, hi.length = 8 ∧ lo.length = 8
      ∧ hi = (s.env.after (addressEvents s.cfg.slaveAddr (regByteR r) a0 a1)).readBits 8
      ∧ lo = (s.env.after (addressEvents s.cfg.slaveAddr (regByteR r) a0 a1
          ++ (readByteEvents hi ++ bitEvents false))).readBits 8
      ∧ eventsSince s (s.completed (.readReg r))
        = addressEvents s.cfg.slaveAddr (regByteR r) a0 a1 ++ (readByteEvents hi ++ bitEvents false)
          ++ (readByteEvents lo ++ bitEvents true) ++ endEventList
      ∧ s.completed (.readReg r) = { s with
          shift := assembleBits lo
          bitcnt := 8#4
          rxhi := assembleBits hi
          seq := .idle
          pins := s.pinsWith ⟨.output, true⟩ ⟨.output, true⟩
          responses := s.responses ++ [(assembleValue (assembleBits hi) (assembleBits lo)).zeroExtend 32]
          env := (s.completed (.readReg r)).env
          trace := (s.completed (.readReg r)).trace } := by
  obtain ⟨a0, a1, hi, lo, hhi, hlo, ehi, elo, hregs, ps, ht, he, -⟩ :=
    readReg_run (s := s.accept (.readReg r)) h.2.2 nofun r
  have hregs := hregs.trans (State.registers_closed_with h.2.1 _ _ _ _)
  have hvalue := valueOf_readReg r hregs
  simp only [State.accept_env, State.accept_cfg, ← List.append_assoc] at ehi elo he
  refine ⟨a0, a1, hi, lo, hhi, hlo, ?_, ?_, ?_, ?_⟩
  · simpa only [addressEvents, ← List.append_assoc] using ehi
  · simpa only [addressEvents, ← List.append_assoc] using elo
  · simpa only [addressEvents, ← List.append_assoc] using eventsSince_completed (i := .readReg r) ht he
  · rw [← responseWord_ok]
    exact completed_of_registers hregs hvalue

/-! ### The census of an event list -/

/-- How many `DRV`, `REL`, `SMP` and `DLY` events a list holds (R158). -/
def census (es : List Event) : ℕ × ℕ × ℕ × ℕ :=
  (es.countP Event.isDrv, es.countP Event.isRel, es.countP Event.isSmp, es.countP Event.isDly)

@[simp] theorem census_append (es fs : List Event) : census (es ++ fs) = census es + census fs := by
  simp [census]

/-- A list's length and the four counts of its census: every event is of exactly one kind (R50). -/
theorem counts_of_census {es : List Event} {d r m y : ℕ} (h : census es = (d, r, m, y)) :
    es.length = d + r + m + y ∧ es.countP Event.isDrv = d ∧ es.countP Event.isRel = r ∧ es.countP Event.isSmp = m
      ∧ es.countP Event.isDly = y := by
  obtain ⟨rfl, rfl, rfl, rfl⟩ : es.countP Event.isDrv = d ∧ es.countP Event.isRel = r ∧ es.countP Event.isSmp = m
      ∧ es.countP Event.isDly = y := by simpa only [census, Prod.mk.injEq] using h
  refine ⟨?_, rfl, rfl, rfl, rfl⟩
  clear h
  induction es with
  | nil => rfl
  | cons e es ih =>
    rw [List.length_cons, ih]
    cases e <;> simp [List.countP_cons, Event.isDrv, Event.isRel, Event.isSmp, Event.isDly] <;> omega

/-- Slots of one census, as many as there are bits. -/
theorem census_flatMap {f : Bool → List Event} {c : ℕ × ℕ × ℕ × ℕ} (h : ∀ b, census (f b) = c) (bits : List Bool) :
    census (bits.flatMap f) = bits.length • c := by
  induction bits with
  | nil => exact (zero_nsmul c).symm
  | cons b bits ih => rw [List.flatMap_cons, census_append, h, ih, List.length_cons, succ_nsmul']

/-- A byte sent and the slot of RECV_ACK (R130, R142). -/
theorem census_sentByte (v : Byte) (a : Bool) : census (byteEvents v ++ recvAckEvents a) = (26, 1, 1, 27) := by
  have hbit (b : Bool) : census (bitEvents b) = (3, 0, 0, 3) := rfl
  rw [census_append, byteEvents, census_flatMap hbit, length_bitsMsbFirst]
  rfl

/-- A byte received and the slot of SEND_ACK or SEND_NACK (R132, R140, R141). -/
theorem census_receivedByte {bits : List Bool} (h : bits.length = 8) (b : Bool) :
    census (readByteEvents bits ++ bitEvents b) = (19, 1, 8, 20) := by
  have hsample (b : Bool) : census (sampleEvents b) = (2, 0, 1, 2) := rfl
  rw [census_append, readByteEvents, census_append, census_flatMap hsample, h]
  rfl

/-- A register command's event list: START's, four bytes each with its acknowledgment, END's (R151, R153). -/
theorem census_transaction (b0 b1 b2 b3 : List Event) :
    census (startEventList ++ (b0 ++ b1 ++ b2 ++ b3) ++ endEventList)
      = (4, 0, 0, 4) + (census b0 + census b1 + census b2 + census b3) + (3, 0, 0, 3) := by
  simp only [census_append]
  rfl

theorem Emits.census_writeReg {s : State} {r : RegIndex} {v : Value} {es : List Event}
    (h : Emits s (.writeReg r v) es) : census es = (111, 4, 4, 115) := by
  cases h
  rw [census_transaction, census_sentByte, census_sentByte, census_sentByte, census_sentByte]
  rfl

theorem Emits.census_readReg {s : State} {r : RegIndex} {es : List Event} (h : Emits s (.readReg r) es) :
    census es = (97, 4, 18, 101) := by
  cases h with
  | readReg _ _ _ hi lo hhi hlo =>
    rw [census_transaction, census_sentByte, census_sentByte, census_receivedByte hhi, census_receivedByte hlo]
    rfl

/-! ### The census of a frame -/

/-- A byte's symbols are eight slots (R59, R62). -/
theorem byteSymbols_census (v : Byte) :
    (byteSymbols v).length = 8 ∧ (byteSymbols v).count .S = 0 ∧ (byteSymbols v).count .P = 0 := by
  simp [byteSymbols, List.count_eq_zero]

/-- The frame of a register command (R93): four bytes each with its acknowledgment slot, between the conditions. -/
theorem frame_census (v0 v1 v2 v3 : Byte) (a0 a1 a2 a3 : Bool) {syms : List Symbol}
    (h : syms = [.S] ++ byteSymbols v0 ++ [.bit a0] ++ byteSymbols v1 ++ [.bit a1] ++ byteSymbols v2 ++ [.bit a2]
      ++ byteSymbols v3 ++ [.bit a3] ++ [.P]) :
    syms.length = 36 + 1 + 1 ∧ syms.count .S = 1 ∧ syms.count .P = 1 := by
  subst h
  simp [byteSymbols_census]

/-! ### The reference slave in a transaction of its own -/

/-- The slave sees both lines at 1 (R186). -/
structure RSlave.AtRest (e : RSlave) : Prop where
  sda : e.sda = true
  scl : e.scl = true

theorem regByteW_select (r : RegIndex) : (regByteW r).extractLsb' 1 7 = r := devByte_select r

theorem regByteR_select (r : RegIndex) : (regByteR r).extractLsb' 1 7 = r := by
  rw [regByteR_eq_append]
  exact BitVec.extractLsb'_append_eq_left

theorem regByteW_direction (r : RegIndex) : (regByteW r).getLsbD 0 = false := by simp [regByteW]
theorem regByteR_direction (r : RegIndex) : (regByteR r).getLsbD 0 = true := by simp [regByteR]

/-- The slave once a transaction has selected it and register address byte `v` has been acknowledged: the register is
selected, and the slave receives or sends, by the direction asked for (R188). -/
def RSlave.addressed (e : RSlave) (v : Byte) : RSlave :=
  { e with
    ph := if v.getLsbD 0 then .rhi else .whi, n := 0, sh := 0#8, idx := v.extractLsb' 1 7, rw := v.getLsbD 0
    msda := .released, mscl := .driven false, lb := none, cond := false }

theorem RSlave.betweenSlots_addressed (e : RSlave) (v : Byte) : (e.addressed v).BetweenSlots := ⟨rfl, rfl, rfl⟩

/-- START and the address bytes of a command to the slave's own address (R93, R187, R188). -/
theorem RSlave.after_addressBytes {e : RSlave} (h : e.AtRest) (v : Byte) (a0 a1 : Bool) :
    (Env.rslave e).after (addressEvents e.sa v a0 a1) = .rslave (e.addressed v) := by
  rw [addressEvents, Env.after_append, Env.after_append _ startEventList, RSlave.after_startEvents h.sda h.scl,
    RSlave.after_devByte rfl rfl ⟨rfl, rfl, rfl⟩ rfl, RSlave.after_regByte rfl rfl ⟨rfl, rfl, rfl⟩ rfl]
  rfl

/-- WRITE_REG's events against the slave they address (R157): the one register is written, and the slave is idle and
sees the bus at rest again. -/
theorem RSlave.after_writeReg {e : RSlave} (h : e.AtRest) (r : RegIndex) (v : Value) (a0 a1 a2 a3 : Bool) :
    ∃ e', (Env.rslave e).after
          (addressEvents e.sa (regByteW r) a0 a1 ++ (byteEvents (hiByte v) ++ recvAckEvents a2)
            ++ (byteEvents (loByte v) ++ recvAckEvents a3) ++ endEventList) = .rslave e'
      ∧ e'.ph = .idle ∧ e'.reg = e.reg.set r.toNat v r.isLt ∧ e'.sa = e.sa ∧ e'.AtRest := by
  have hph : (e.addressed (regByteW r)).ph = .whi := by simp only [RSlave.addressed, regByteW_direction]; rfl
  obtain ⟨hjoin, -⟩ := valueSplitLossless
  rw [Env.after_append _ _ endEventList, Env.after_append _ _ (byteEvents (loByte v) ++ _),
    Env.after_append _ _ (byteEvents (hiByte v) ++ _), RSlave.after_addressBytes h,
    RSlave.after_hiByte rfl rfl (e.betweenSlots_addressed _) hph, RSlave.after_loByte rfl rfl ⟨rfl, rfl, rfl⟩ rfl]
  obtain ⟨e', he, hidle, hreg, hsa, hsda, hscl⟩ := RSlave.after_endEvents (e := { e.addressed (regByteW r) with
    ph := .ign, hi := hiByte v
    reg := e.reg.set ((regByteW r).extractLsb' 1 7).toNat (assembleValue (hiByte v) (loByte v)) (BitVec.isLt _) })
    ⟨rfl, rfl, rfl⟩
  simp only [regByteW_select, hjoin] at hreg
  exact ⟨e', he, hidle, hreg, hsa, hsda, hscl⟩

/-- Two bytes read from a slave that is to send, the first acknowledged and the second not, and END's events (R153,
R188): the bits are the selected register's, high byte first, and the slave is idle with its registers as they were. -/
theorem RSlave.after_bytesRead {e : RSlave} (h : e.ph = .rhi) (hn : e.n = 0) (hb : e.BetweenSlots)
    {hi lo : List Bool} (hhi : hi.length = 8) (hlo : lo.length = 8) :
    (Env.rslave e).readBits 8 = bitsMsbFirst (hiByte (e.regAt e.idx))
      ∧ ((Env.rslave e).after (readByteEvents hi ++ bitEvents false)).readBits 8
        = bitsMsbFirst (loByte (e.regAt e.idx))
      ∧ ∃ e', (((Env.rslave e).after (readByteEvents hi ++ bitEvents false)).after
            (readByteEvents lo ++ bitEvents true)).after endEventList = .rslave e'
        ∧ e'.ph = .idle ∧ e'.reg = e.reg := by
  obtain ⟨hibits, hisent⟩ := RSlave.after_sentByte (.inl ⟨h, rfl⟩) hn hb hhi false
  obtain ⟨lobits, losent⟩ := RSlave.after_sentByte (e := { e with ph := .rlo, msda := .driven false })
    (.inr ⟨rfl, rfl⟩) hn ⟨hb.mscl, hb.cond, hb.lb⟩ hlo true
  obtain ⟨e', he, hidle, hreg, -⟩ := RSlave.after_endEvents (e := { e with ph := .ign, msda := .driven true })
    ⟨hb.mscl, hb.cond, hb.lb⟩
  rw [if_pos h] at hibits
  rw [hisent]
  exact ⟨hibits, lobits, e', (congrArg (Env.after · endEventList) losent).trans he, hidle, hreg⟩

/-- READ_REG's response to a slave it addresses is the register's value, and the slave is left idle with its registers
as they were (R157). -/
theorem readReg_of_rslave {s : State} {e : RSlave} (h : s.canOpen) (he : s.env = .rslave e)
    (hsa : e.sa = s.cfg.slaveAddr) (hrest : e.AtRest) (r : RegIndex) :
    ∃ u e', exec (.readReg r) s = .next u ∧ u.responses = s.responses ++ [(e.regAt r).zeroExtend 32]
      ∧ u.env = .rslave e' ∧ e'.reg = e.reg ∧ e'.ph = .idle := by
  obtain ⟨hjoin, -⟩ := valueSplitLossless
  obtain ⟨-, hbyte, -⟩ := shifterLaws
  obtain ⟨a0, a1, hi, lo, hhi, hlo, ehi, elo, hevents, hstate⟩ := readReg_completed h r
  have hexec : exec (.readReg r) s = .next (s.completed (.readReg r)) := exec_of_mayRun h
  obtain ⟨henv, -⟩ := environmentObservesEveryDrive _ _ _ hexec
  have haddr := RSlave.after_addressBytes hrest (regByteR r) a0 a1
  have hph : (e.addressed (regByteR r)).ph = .rhi := by simp only [RSlave.addressed, regByteR_direction]; rfl
  obtain ⟨hibits, lobits, e', hend, hidle, hreg⟩ :=
    RSlave.after_bytesRead hph rfl (e.betweenSlots_addressed _) hhi hlo
  have hidx : (e.addressed (regByteR r)).regAt (e.addressed (regByteR r)).idx = e.regAt r :=
    congrArg e.regAt (regByteR_select r)
  rw [he, ← hsa, haddr, hibits, hidx] at ehi
  rw [he, ← hsa, Env.after_append, haddr, lobits, hidx] at elo
  refine ⟨_, e', hexec, ?_, ?_, hreg, hidle⟩
  · rw [hstate, ehi, elo, hbyte, hbyte, hjoin]
  · rw [henv, hevents, he, ← hsa, Env.after_append _ _ endEventList, Env.after_append _ _ (readByteEvents lo ++ _),
      Env.after_append _ (addressEvents _ _ _ _), haddr, hend]

end Sys2Proof.Machine
end

section
/-! PROOFS for the register access family (44_register_access.md), the primitives: commands issued one after another,
what of a state does not depend on which command is in flight, and the register commands as their primitives. -/

namespace Sys2Proof.Machine

open Sys2Proof

/-! ### Commands issued one after another -/

/-- The state after the commands `is`, each carried out where the one before it ended (R31). -/
def State.issued (s : State) (is : List Instr) : State := is.foldl State.completed s

/-- Each of the commands `is` may run where it is issued (R210). -/
def State.mayIssue : State → List Instr → Prop
  | _, [] => True
  | s, i :: is => s.mayRun i ∧ (s.completed i).mayIssue is

@[simp] theorem State.issued_nil (s : State) : s.issued [] = s := rfl

@[simp] theorem State.issued_cons (s : State) (i : Instr) (is : List Instr) :
    s.issued (i :: is) = (s.completed i).issued is := rfl

theorem State.issued_append (s : State) (is js : List Instr) : s.issued (is ++ js) = (s.issued is).issued js :=
  List.foldl_append

theorem State.completed_rxhi (s : State) (i : Instr) :
    (s.completed i).rxhi = (runProgram (programOf i) (s.accept i)).rxhi := rfl

theorem State.completed_shift (s : State) (i : Instr) :
    (s.completed i).shift = (runProgram (programOf i) (s.accept i)).shift := rfl

theorem State.issued_seq {s : State} (h : s.seq = .idle) (is : List Instr) : (s.issued is).seq = .idle := by
  induction is generalizing s with
  | nil => exact h
  | cons i is ih => exact ih rfl

/-- No command reads what the host has yet to present (R8). -/
theorem MicroOp.apply_with_commands (op : MicroOp) (s : State) (ws : List Word) :
    op.apply { s with commands := ws } = { op.apply s with commands := ws } := by
  cases op <;> rfl

theorem runProgram_with_commands (p : Program) (s : State) (ws : List Word) :
    runProgram p { s with commands := ws } = { runProgram p s with commands := ws } := by
  induction p generalizing s with
  | nil => rfl
  | cons op p ih => rw [runProgram_cons, runProgram_cons, op.apply_with_commands, ih]

theorem State.completed_with_commands (s : State) (i : Instr) (ws : List Word) :
    ({ s with commands := ws } : State).completed i = { s.completed i with commands := ws } := by
  have hrun := runProgram_with_commands (programOf i) (s.accept i) ws
  have hvalue : ∀ t : State, valueOf i { t with commands := ws } = valueOf i t := by cases i <;> exact fun _ => rfl
  rw [State.completed, State.completed]
  change State.respond (runProgram (programOf i) { s.accept i with commands := ws }) _
    (valueOf i (runProgram (programOf i) { s.accept i with commands := ws })) = _
  rw [hrun, hvalue]
  rfl

/-- The steps of an idle block that is presented the words of commands that may run (R31). -/
theorem run_issued {s : State} {is : List Instr} (hq : s.seq = .idle) (h : s.mayIssue is) (ws : List Word) :
    Sys2Proof.core.run is.length { s with commands := is.map encode ++ ws }
      = .next { s.issued is with commands := ws } := by
  induction is generalizing s with
  | nil => rfl
  | cons i is ih =>
    obtain ⟨hi, his⟩ := h
    have hstep := step_encode (s := { s with commands := (i :: is).map encode ++ ws }) hq rfl
      (State.mayRun_with_commands hi _)
    rw [State.completed_with_commands s i] at hstep
    exact (core_run_succ (M := Sys2Proof.core) _ hstep).trans (ih rfl his)

theorem op_ne_configure_of_inner {i : Instr} (h : i.inner = true) : i.op ≠ .configure := by
  cases i with
  | configure => cases h
  | _ => nofun

/-- A command that may stand inside a transaction leaves it open (R32, R124). -/
theorem State.canTransfer_completed {s : State} {i : Instr} (hi : i.inner = true) (h : s.canTransfer) :
    (s.completed i).canTransfer := by
  have hl := leaves_of_mayRun (State.mayRun_of_inner hi h)
  obtain ⟨hstart, hend⟩ := op_ne_of_inner hi
  have hconf := op_ne_configure_of_inner hi
  obtain ⟨hc, ht, hne⟩ := h
  obtain ⟨hd, hk⟩ := hl.lines hconf
  refine ⟨hl.configured.trans ((if_neg hconf).trans hc), hl.inTxn.trans ?_, ?_⟩
  · rw [if_neg hstart, if_neg hend, ht]
  · exact fun heq => hne (hd.symm.trans (heq.trans hk))

/-- Inside a transaction any commands that may stand there and END may be issued (R124, R210). -/
theorem State.mayIssue_inner_end {s : State} {is : List Instr} (his : ∀ i ∈ is, i.inner = true) (h : s.canTransfer) :
    s.mayIssue (is ++ [.endTxn]) := by
  induction is generalizing s with
  | nil => exact ⟨h, trivial⟩
  | cons i is ih =>
    obtain ⟨hi, his⟩ := List.forall_mem_cons.mp his
    exact ⟨State.mayRun_of_inner hi h, ih his (State.canTransfer_completed hi h)⟩

theorem State.mayIssue_transaction {s : State} {is : List Instr} (his : ∀ i ∈ is, i.inner = true) (h : s.canOpen)
    (a : Addr) : s.mayIssue (.start a :: (is ++ [.endTxn])) := by
  have hl := leaves_of_mayRun (i := .start a) h
  obtain ⟨hd, hk⟩ := hl.lines nofun
  refine ⟨h, ?_⟩
  obtain ⟨hc, -, hne⟩ := h
  exact State.mayIssue_inner_end his
    ⟨hl.configured.trans hc, hl.inTxn, fun heq => hne (hd.symm.trans (heq.trans hk))⟩

/-- Only READ_REG writes `RXHI` (R163). -/
theorem State.issued_rxhi {s : State} {is : List Instr} (h : s.mayIssue is) (his : ∀ i ∈ is, i.op ≠ .readReg) :
    (s.issued is).rxhi = s.rxhi := by
  induction is generalizing s with
  | nil => rfl
  | cons i is ih =>
    obtain ⟨hr, h⟩ := h
    obtain ⟨hi, his⟩ := List.forall_mem_cons.mp his
    exact (ih h his).trans ((leaves_of_mayRun hr).rxhi hi)

/-- The response to a command that may run (R96). -/
def State.answer (s : State) (i : Instr) : Word :=
  responseWord .ok (valueOf i (runProgram (programOf i) (s.accept i)))

/-- The responses to commands issued one after another. -/
def State.answers : State → List Instr → List Word
  | _, [] => []
  | s, i :: is => s.answer i :: (s.completed i).answers is

theorem State.length_answers (s : State) (is : List Instr) : (s.answers is).length = is.length := by
  induction is generalizing s with
  | nil => rfl
  | cons i is ih => exact congrArg Nat.succ (ih _)

theorem State.issued_responses (s : State) (is : List Instr) :
    (s.issued is).responses = s.responses ++ s.answers is := by
  induction is generalizing s with
  | nil => exact (List.append_nil _).symm
  | cons i is ih =>
    rw [State.issued_cons, ih, State.completed_responses, List.append_assoc]
    rfl

/-- READ_BYTE responds the `SHIFT` it leaves (R132). -/
theorem State.answer_readByte (s : State) : s.answer .readByte = (s.completed .readByte).shift.zeroExtend 32 :=
  responseWord_ok_byte _

theorem State.accept_ne_idle (s : State) (i : Instr) : (s.accept i).seq ≠ .idle := nofun

/-! ### What does not depend on the command in flight -/

/-- A state without its ports, its sequencer position and `RXHI`: what a command and the primitives it is made of must
agree in (R156). -/
def State.bare (s : State) : State := { s with seq := .idle, commands := [], responses := [], rxhi := 0#8 }

theorem State.bare_shift (s : State) : s.bare.shift = s.shift := rfl

theorem State.bare_completed (s : State) (i : Instr) :
    (s.completed i).bare = (runProgram (programOf i) (s.accept i)).bare := rfl

/-- A line of pseudocode samples (R54). -/
def MicroOp.samples : MicroOp → Bool
  | .smp _ => true
  | _ => false

/-- A line of pseudocode reads the bit last sampled (R132). -/
def MicroOp.readsBit : MicroOp → Bool
  | .shiftIn => true
  | _ => false

/-- No line of the program reads a bit the program has not sampled; `known` says that one has been sampled before. -/
def readsOwnBits : Bool → Program → Bool
  | _, [] => true
  | known, op :: p => (!op.readsBit || known) && readsOwnBits (op.samples || known) p

theorem readsOwnBits_append {p q : Program} (hq : ∀ known, readsOwnBits known q = true) {known : Bool}
    (hp : readsOwnBits known p = true) : readsOwnBits known (p ++ q) = true := by
  induction p generalizing known with
  | nil => exact hq known
  | cons op p ih =>
    obtain ⟨hop, hp⟩ := Bool.and_eq_true_iff.mp hp
    exact Bool.and_eq_true_iff.mpr ⟨hop, ih hp⟩

theorem readsOwnBits_flatten {ps : List Program} (h : ∀ p ∈ ps, ∀ known, readsOwnBits known p = true)
    (known : Bool) : readsOwnBits known ps.flatten = true := by
  induction ps generalizing known with
  | nil => rfl
  | cons p ps ih =>
    obtain ⟨hp, hps⟩ := List.forall_mem_cons.mp h
    exact readsOwnBits_append (ih hps) (hp known)

/-- No command reads a bit that another one has sampled (R32). -/
theorem readsOwnBits_programOf (i : Instr) (known : Bool) : readsOwnBits known (programOf i) = true := by
  cases i with
  | writeReg | readReg =>
    refine readsOwnBits_flatten ?_ known
    simp only [List.forall_mem_cons, List.not_mem_nil, false_implies, implies_true, and_true]
    and_intros <;> exact fun _ => rfl
  | _ => rfl

/-- Two states with a command in flight agree in all but the ports, the position and `RXHI`, and in the bit last sampled
where it is `known`. -/
structure Alike (known : Bool) (s t : State) : Prop where
  bare : t.bare = s.bare
  flying : s.seq ≠ .idle ∧ t.seq ≠ .idle
  bit : known = true → t.seq.bit = s.seq.bit

/-- What a line that does not read the sampled bit does to the rest of the state depends on that alone. -/
theorem MicroOp.bare_apply {op : MicroOp} (h : op.readsBit = false) (s : State) :
    (op.apply s).bare = (op.apply s.bare).bare := by
  cases op with
  | shiftIn => cases h
  | _ => unfold State.bare; rfl

/-- The bit last sampled, after a line of pseudocode (R54). -/
theorem MicroOp.bit_apply {op : MicroOp} (h : op.samples = false) (s : State) : (op.apply s).seq.bit = s.seq.bit := by
  cases op with
  | smp l => cases h
  | _ => simp [MicroOp.apply]

theorem State.bare_shiftIn (s : State) :
    s.shiftIn.bare
      = { s.bare with shift := shiftInByte s.bare.shift s.seq.bit, bitcnt := s.bare.bitcnt + 1#4 } := rfl

theorem State.wire_bare (s : State) (l : Line) : s.bare.wire l = s.wire l := rfl

theorem State.bit_smp {s : State} (h : s.seq ≠ .idle) (l : Line) : (s.smp l).seq.bit = s.wire l := by
  rw [State.smp_seq, Seq.bit_tick, Seq.bit_deliver h]

theorem Alike.apply {known : Bool} {s t : State} {op : MicroOp} (h : Alike known s t)
    (hop : (!op.readsBit || known) = true) : Alike (op.samples || known) (op.apply s) (op.apply t) := by
  obtain ⟨hbare, ⟨hs, ht⟩, hbit⟩ := h
  refine ⟨?_, ⟨runProgram_ne_idle hs [op], runProgram_ne_idle ht [op]⟩, fun hk => ?_⟩
  · cases hr : op.readsBit with
    | false => rw [MicroOp.bare_apply hr, hbare, ← MicroOp.bare_apply hr]
    | true =>
      have hk : known = true := by simpa [hr] using hop
      cases op with
      | shiftIn => rw [MicroOp.apply, MicroOp.apply, State.bare_shiftIn, State.bare_shiftIn, hbare, hbit hk]
      | _ => cases hr
  · cases hm : op.samples with
    | false => rw [MicroOp.bit_apply hm, MicroOp.bit_apply hm, hbit (by simpa [hm] using hk)]
    | true =>
      cases op with
      | smp l =>
        rw [MicroOp.apply, MicroOp.apply, State.bit_smp hs, State.bit_smp ht, ← t.wire_bare, hbare, s.wire_bare]
      | _ => cases hm

theorem Alike.runProgram {known : Bool} {s t : State} {p : Program} (h : Alike known s t)
    (hp : readsOwnBits known p = true) : (runProgram p t).bare = (runProgram p s).bare := by
  induction p generalizing known s t with
  | nil => exact h.bare
  | cons op p ih =>
    obtain ⟨hop, hp⟩ : (!op.readsBit || known) = true ∧ readsOwnBits (op.samples || known) p = true :=
      Bool.and_eq_true_iff.mp hp
    exact ih (h.apply hop) hp

/-- The programs of commands, run in the flight of another, do what the commands do when they are issued (R150,
R156). -/
theorem bare_runProgram_eq_issued {s t : State} (ht : t.seq ≠ .idle) (h : t.bare = s.bare) (is : List Instr) :
    (runProgram (is.map programOf).flatten t).bare = (s.issued is).bare := by
  induction is generalizing s t with
  | nil => exact h
  | cons i is ih =>
    rw [List.map_cons, List.flatten_cons, runProgram_append]
    have hstart : Alike false (s.accept i) t := ⟨h, ⟨s.accept_ne_idle i, ht⟩, nofun⟩
    exact ih (runProgram_ne_idle ht _) (hstart.runProgram (readsOwnBits_programOf i false))

/-- Two idle states that agree in all but the ports and `RXHI` are one state but for these. -/
theorem State.eq_of_bare_eq {s t : State} (h : t.bare = s.bare) (hs : s.seq = .idle) (ht : t.seq = .idle)
    (ws : List Word) :
    { t with commands := ws } = { s with commands := ws, responses := t.responses, rxhi := t.rxhi } := by
  calc { t with commands := ws }
    _ = { t.bare with seq := .idle, commands := ws, responses := t.responses, rxhi := t.rxhi } := by rw [← ht]; rfl
    _ = { s.bare with seq := .idle, commands := ws, responses := t.responses, rxhi := t.rxhi } := by rw [h]
    _ = { s with commands := ws, responses := t.responses, rxhi := t.rxhi } := by rw [← hs]; rfl

/-! ### The register commands and their primitives -/

/-- The primitives of WRITE_REG (R151). -/
def writeRegPrimitives (a : Addr) (r : RegIndex) (v : Value) : List Instr :=
  [.start a, .writeByte (devByte a), .recvAck, .writeByte (regByteW r), .recvAck, .writeByte (hiByte v), .recvAck,
    .writeByte (loByte v), .recvAck, .endTxn]

/-- The primitives of READ_REG up to its first data byte, and those after it (R153). -/
def readRegFirstPrimitives (a : Addr) (r : RegIndex) : List Instr :=
  [.start a, .writeByte (devByte a), .recvAck, .writeByte (regByteR r), .recvAck, .readByte]

def readRegLastPrimitives : List Instr := [.sendAck, .readByte, .sendNack, .endTxn]

theorem runProgram_startConfigured_eq_start (s : State) :
    runProgram startConfiguredProgram s = runProgram (programOf (.start s.cfg.slaveAddr)) s := rfl

theorem cfg_runProgram_start (s : State) (a : Addr) :
    (runProgram (programOf (.start a)) s).cfg = { s.cfg with slaveAddr := a } := by
  simp [programOf, startProgram, startEvents, MicroOp.apply]

theorem runProgram_writeDevByte (s : State) :
    runProgram writeDevByteProgram s = runProgram (programOf (.writeByte (devByte s.cfg.slaveAddr))) s := rfl

/-- WRITE_REG's program is its primitives' programs one after another (R150, R151). -/
theorem runProgram_writeReg (s : State) (r : RegIndex) (v : Value) :
    runProgram (programOf (.writeReg r v)) s
      = runProgram ((writeRegPrimitives s.cfg.slaveAddr r v).map programOf).flatten s := by
  change runProgram (writeRegProgram r v) s = _
  simp only [writeRegProgram, writeRegPrimitives, runProgram_flatten, List.map_cons, List.map_nil, List.foldl_cons,
    List.foldl_nil, runProgram_writeDevByte, cfg_runProgram_start, runProgram_startConfigured_eq_start]
  rfl

/-- READ_REG's program is its primitives' programs, with `RXHI` written after the first data byte (R150, R153). -/
theorem runProgram_readReg (s : State) (r : RegIndex) :
    runProgram (programOf (.readReg r)) s
      = runProgram (readRegLastPrimitives.map programOf).flatten
        (runProgram ((readRegFirstPrimitives s.cfg.slaveAddr r).map programOf).flatten s).latchHi := by
  change runProgram (readRegProgram r) s = _
  simp only [readRegProgram, readRegFirstPrimitives, readRegLastPrimitives, runProgram_flatten, List.map_cons,
    List.map_nil, List.foldl_cons, List.foldl_nil, runProgram_writeDevByte, cfg_runProgram_start,
    runProgram_startConfigured_eq_start]
  rfl

theorem mayIssue_writeRegPrimitives {s : State} (h : s.canOpen) (a : Addr) (r : RegIndex) (v : Value) :
    s.mayIssue (writeRegPrimitives a r v) :=
  State.mayIssue_transaction
    (is := [.writeByte (devByte a), .recvAck, .writeByte (regByteW r), .recvAck, .writeByte (hiByte v), .recvAck,
      .writeByte (loByte v), .recvAck]) (by simp [Instr.inner]) h a

theorem mayIssue_readRegPrimitives {s : State} (h : s.canOpen) (a : Addr) (r : RegIndex) :
    s.mayIssue (readRegFirstPrimitives a r ++ readRegLastPrimitives) :=
  State.mayIssue_transaction
    (is := [.writeByte (devByte a), .recvAck, .writeByte (regByteR r), .recvAck, .readByte, .sendAck, .readByte,
      .sendNack]) (by simp [Instr.inner]) h a

/-- WRITE_REG does what its primitives do when they are issued (R156). -/
theorem bare_completed_writeReg (s : State) (r : RegIndex) (v : Value) :
    (s.completed (.writeReg r v)).bare = (s.issued (writeRegPrimitives s.cfg.slaveAddr r v)).bare := by
  rw [State.bare_completed, runProgram_writeReg]
  exact bare_runProgram_eq_issued (s.accept_ne_idle _) rfl _

/-- `RXHI` keeps its value in a program that does not write it. -/
theorem runProgram_rxhi {p : Program} (h : .latchHi ∉ p) (s : State) : (runProgram p s).rxhi = s.rxhi := by
  induction p generalizing s with
  | nil => rfl
  | cons op p ih =>
    obtain ⟨hop, hp⟩ := List.ne_and_not_mem_of_not_mem_cons h
    rw [runProgram_cons, ih hp]
    cases op with
    | latchHi => exact absurd rfl hop
    | _ => rfl

/-- READ_REG does what its primitives do when they are issued; `RXHI` is the first data byte (R153, R156). -/
theorem bare_completed_readReg (s : State) (r : RegIndex) :
    (s.completed (.readReg r)).bare
        = (s.issued (readRegFirstPrimitives s.cfg.slaveAddr r ++ readRegLastPrimitives)).bare
      ∧ (s.completed (.readReg r)).rxhi = (s.issued (readRegFirstPrimitives s.cfg.slaveAddr r)).shift := by
  have hfirst := bare_runProgram_eq_issued (s := s) (s.accept_ne_idle (.readReg r)) rfl
    (readRegFirstPrimitives s.cfg.slaveAddr r)
  have hflying := runProgram_ne_idle (s.accept_ne_idle (.readReg r))
    ((readRegFirstPrimitives s.cfg.slaveAddr r).map programOf).flatten
  rw [State.completed_rxhi, State.bare_completed, runProgram_readReg, State.accept_cfg]
  generalize runProgram ((readRegFirstPrimitives s.cfg.slaveAddr r).map programOf).flatten (s.accept (.readReg r)) = x
    at hfirst hflying
  constructor
  · rw [State.issued_append]
    exact bare_runProgram_eq_issued (t := x.latchHi) hflying hfirst _
  · rw [runProgram_rxhi (by decide), State.latchHi_rxhi, ← State.bare_shift, hfirst, State.bare_shift]

theorem State.shift_completed_sendNack (s : State) : (s.completed .sendNack).shift = s.shift := by
  simp [State.completed_shift, programOf, sendNackProgram, MicroOp.apply]

theorem State.shift_completed_endTxn (s : State) : (s.completed .endTxn).shift = s.shift := by
  simp [State.completed_shift, programOf, endProgram, MicroOp.apply]

/-- The responses to READ_REG's primitives: each READ_BYTE responds the byte it leaves in `SHIFT`, and neither SEND_NACK
nor END writes `SHIFT` (R132). -/
theorem answers_readRegPrimitives (s : State) (a : Addr) (r : RegIndex) :
    ∃ r0 r1 r2 r3 r4 r6 r8 r9 : Word, s.answers (readRegFirstPrimitives a r ++ readRegLastPrimitives)
      = [r0, r1, r2, r3, r4, (s.issued (readRegFirstPrimitives a r)).shift.zeroExtend 32, r6,
          (s.issued (readRegFirstPrimitives a r ++ readRegLastPrimitives)).shift.zeroExtend 32, r8, r9] := by
  simp only [readRegFirstPrimitives, readRegLastPrimitives, List.cons_append, List.nil_append, State.answers,
    State.issued_cons, State.issued_nil, State.answer_readByte, State.shift_completed_endTxn,
    State.shift_completed_sendNack]
  exact ⟨_, _, _, _, _, _, _, _, rfl⟩

/-- READ_REG responds the bytes it leaves in `RXHI` and `SHIFT` (R153). -/
theorem answer_readReg (s : State) (r : RegIndex) :
    s.answer (.readReg r)
      = (assembleValue (s.completed (.readReg r)).rxhi (s.completed (.readReg r)).shift).zeroExtend 32 := by
  have hvalue (t : State) : valueOf (.readReg r) t = assembleValue t.rxhi t.shift := rfl
  rw [State.answer, responseWord_ok, hvalue, State.completed_rxhi, State.completed_shift]

end Sys2Proof.Machine
end

section
/-! PROOFS for the register access family (44_register_access.md), the statements: the two sequences, their primitives,
the acknowledgment bits, the census and the round trip. -/

namespace Sys2Proof.Machine

open Sys2Proof

/-! ### WRITE_REG and READ_REG -/

/-- Settles O22: the word matches WRITE_REG's row; unconfigured the command is a fault, and where it may run its program
leaves the registers and emits the events of `writeReg_run`. -/
theorem writeRegSequence : Obligations.WriteRegSequence := by
  refine ⟨fun w hw => ?_, fun s r v hu => ?_, fun s r v h => ?_⟩
  · exact decode_of_matches (r := ⟨.writeReg, 0x90000000#32, 0xFF800000#32⟩) (by decide) hw
  · exact exec_of_unconfigured rfl hu
  · obtain ⟨a0, a1, a2, a3, hregs, ps, ht, he, -⟩ := writeReg_run (s := s.accept (.writeReg r v)) h.2.2 nofun r v
    refine ⟨_, a0, a1, a2, a3, exec_of_mayRun h, ?_, ?_⟩
    · rw [eventsSince_completed (i := .writeReg r v) ht he]
      simp only [List.append_assoc]
      rfl
    · rw [← responseWord_ok_zero]
      exact completed_of_registers (hregs.trans (State.registers_closed_with h.2.1 _ _ _ _)) rfl

/-- Settles O23: the word matches READ_REG's row; unconfigured the command is a fault, and where it may run it is
`readReg_completed`. -/
theorem readRegSequence : Obligations.ReadRegSequence := by
  refine ⟨fun w hw => ?_, fun s r hu => ?_, fun s r h => ?_⟩
  · exact decode_of_matches (r := ⟨.readReg, 0xA0000000#32, 0xFF80FFFF#32⟩) (by decide) hw
  · exact exec_of_unconfigured rfl hu
  · obtain ⟨a0, a1, hi, lo, hhi, hlo, -, -, hevents, hstate⟩ := readReg_completed h r
    exact ⟨_, a0, a1, hi, lo, exec_of_mayRun h, hhi, hlo, hevents, hstate⟩

/-- Settles O26: from both environments WRITE_REG leaves the state and emits the events of O22, in which only the four
sampled bits are the environment's. -/
theorem writeRegIgnoresAcknowledgments : Obligations.WriteRegIgnoresAcknowledgments := by
  intro s e r v h
  obtain ⟨-, -, hrun⟩ := writeRegSequence
  obtain ⟨t, a0, a1, a2, a3, ht, hte, hts⟩ := hrun s r v h
  obtain ⟨u, b0, b1, b2, b3, hu, hue, hus⟩ := hrun { s with env := e } r v h
  refine ⟨t, u, ht, hu, ?_, ?_⟩
  · exact hus.trans (congrArg (fun x : State => { x with env := u.env, trace := u.trace }) hts).symm
  · rw [hte, hue]
    simp only [List.map_append, shape_recvAckEvents a0 b0, shape_recvAckEvents a1 b1, shape_recvAckEvents a2 b2,
      shape_recvAckEvents a3 b3]

/-- Settles O35: the census of the events each command emits, and of the frame it puts on the bus. -/
theorem registerCommandCensus : Obligations.RegisterCommandCensus := by
  refine fun s h => ⟨fun r v => ⟨_, exec_of_mayRun (i := .writeReg r v) h, ?_⟩,
    fun r => ⟨_, exec_of_mayRun (i := .readReg r) h, ?_⟩⟩
  · obtain ⟨hlen, hdrv, hrel, hsmp, hdly⟩ := counts_of_census (emits_of_mayRun (i := .writeReg r v) h).census_writeReg
    refine ⟨hlen, hdrv, hrel, hsmp, hdly, fun hw => ?_⟩
    obtain ⟨hwrite, -⟩ := registerFrames s h hw
    obtain ⟨t, a0, a1, a2, a3, ht, hsyms⟩ := hwrite r v
    obtain rfl := Host.Outcome.next.inj ((exec_of_mayRun (i := .writeReg r v) h).symm.trans ht)
    exact frame_census _ _ _ _ _ _ _ _ hsyms
  · obtain ⟨hlen, hdrv, hrel, hsmp, hdly⟩ := counts_of_census (emits_of_mayRun (i := .readReg r) h).census_readReg
    refine ⟨hlen, hdrv, hrel, hsmp, hdly, fun hw => ?_⟩
    obtain ⟨-, hread⟩ := registerFrames s h hw
    obtain ⟨t, a0, a1, ht, hsyms⟩ := hread r
    obtain rfl := Host.Outcome.next.inj ((exec_of_mayRun (i := .readReg r) h).symm.trans ht)
    exact frame_census _ _ _ _ _ _ _ _ hsyms

/-! ### The primitives -/

/-- Settles O24: the command and its primitives do the same, and none of them writes `RXHI`. -/
theorem writeRegIsTenPrimitives : Obligations.WriteRegIsTenPrimitives := by
  intro s r v ws h hq
  have hmacro : s.mayIssue [.writeReg r v] := ⟨h, trivial⟩
  have hprims := mayIssue_writeRegPrimitives h s.cfg.slaveAddr r v
  have hrxhi := (State.issued_rxhi hprims (by simp [writeRegPrimitives, Instr.op])).trans
    (State.issued_rxhi hmacro (by simp [Instr.op])).symm
  have heq := State.eq_of_bare_eq (bare_completed_writeReg s r v).symm rfl (State.issued_seq hq _) ws
  have hresp := State.issued_responses s (writeRegPrimitives s.cfg.slaveAddr r v)
  have hrun := run_issued hq hprims ws
  have hrunMacro := run_issued hq hmacro ws
  rw [State.issued_cons, State.issued_nil] at hrxhi hrunMacro
  generalize s.issued (writeRegPrimitives s.cfg.slaveAddr r v) = u at hresp hrun heq hrxhi
  generalize s.completed (.writeReg r v) = t at hrunMacro heq hrxhi
  exact ⟨_, _, s.answers (writeRegPrimitives s.cfg.slaveAddr r v), hrunMacro, hrun, rfl, State.length_answers _ _,
    hresp, heq.trans (by rw [hrxhi])⟩

/-- Settles O25: the command and its primitives do the same but for `RXHI`, in which the command keeps the byte that the
first READ_BYTE responds. -/
theorem readRegIsTenPrimitives : Obligations.ReadRegIsTenPrimitives := by
  intro s r ws h hq
  have hmacro : s.mayIssue [.readReg r] := ⟨h, trivial⟩
  have hprims := mayIssue_readRegPrimitives h s.cfg.slaveAddr r
  obtain ⟨hbare, hhi⟩ := bare_completed_readReg s r
  obtain ⟨r0, r1, r2, r3, r4, r6, r8, r9, hanswers⟩ := answers_readRegPrimitives s s.cfg.slaveAddr r
  have hrxhi := State.issued_rxhi hprims (by simp [readRegFirstPrimitives, readRegLastPrimitives, Instr.op])
  have heq := State.eq_of_bare_eq hbare.symm rfl (State.issued_seq hq _) ws
  have hrun := run_issued hq hprims ws
  have hresp := State.issued_responses s (readRegFirstPrimitives s.cfg.slaveAddr r ++ readRegLastPrimitives)
  have hlo : (s.completed (.readReg r)).shift
      = (s.issued (readRegFirstPrimitives s.cfg.slaveAddr r ++ readRegLastPrimitives)).shift := by
    rw [← State.bare_shift, hbare, State.bare_shift]
  have hrunMacro := run_issued hq hmacro ws
  have hrespMacro := State.completed_responses s (.readReg r)
  rw [← State.answer, answer_readReg, hhi, hlo] at hrespMacro
  rw [State.issued_cons, State.issued_nil] at hrunMacro
  rw [hanswers] at hresp
  generalize s.issued (readRegFirstPrimitives s.cfg.slaveAddr r ++ readRegLastPrimitives) = u
    at hresp hrun heq hrxhi hrespMacro
  generalize s.issued (readRegFirstPrimitives s.cfg.slaveAddr r) = x at hresp hrespMacro
  generalize s.completed (.readReg r) = t at hrunMacro heq hrespMacro
  exact ⟨_, _, r0, r1, r2, r3, r4, r6, r8, r9, x.shift, u.shift, hrunMacro, hrun, hresp, hrespMacro, rfl,
    heq.trans (by rw [hrxhi])⟩

/-! ### The round trip -/

/-- Settles O60: WRITE_REG's events write the register and leave the slave at rest, so that READ_REG finds the value
there. -/
theorem roundTripAgainstReferenceSlave : Obligations.RoundTripAgainstReferenceSlave := by
  intro s e r v h he hsa hsda hscl
  obtain ⟨-, -, hwrite⟩ := writeRegSequence
  obtain ⟨t, a0, a1, a2, a3, ht, hevents, hstate⟩ := hwrite s r v h
  obtain ⟨henv, -⟩ := environmentObservesEveryDrive _ _ _ ht
  obtain ⟨e1, he1, hidle1, hreg1, hsa1, hrest1⟩ := RSlave.after_writeReg ⟨hsda, hscl⟩ r v a0 a1 a2 a3
  have hcfg : t.cfg = s.cfg := by rw [hstate]
  have htxn : t.inTxn = s.inTxn := by rw [hstate]
  have hresp : t.responses = s.responses ++ [0x00000000#32] := by rw [hstate]
  have hopen : t.canOpen := by rwa [State.canOpen, hcfg, htxn]
  rw [hevents, he, ← hsa] at henv
  obtain ⟨u, e2, hu, huresp, hue, hreg2, hidle2⟩ :=
    readReg_of_rslave hopen (henv.trans he1) (by rw [hsa1, hsa, hcfg]) hrest1 r
  have hvalue : e1.regAt r = v := by rw [RSlave.regAt]; simp only [hreg1, Vector.getElem_set_self]
  rw [hresp, hvalue, List.append_assoc] at huresp
  exact ⟨t, u, e1, e2, ht, henv.trans he1, hreg1, hidle1, hu, huresp, hue, hreg2, hidle2⟩

end Sys2Proof.Machine
end

section
/-! PROOFS for the exceptions family (60_exceptions.md), the shared facts: which commands can fault, a state with more
history in front of it, the empty bus, and what of the reference slave's output an observation can change. -/

namespace Sys2Proof.Machine

open Sys2Proof

/-! ### The faults -/

/-- A command that begins a transaction and may run finds a configured block (R173). -/
theorem State.configured_of_mayRun {s : State} {i : Instr} (h : s.mayRun i) (hi : i.opens = true) :
    s.cfg.configured = true := by
  cases i with
  | start | writeReg | readReg =>
    obtain ⟨hconf, -⟩ := h
    exact hconf
  | _ => cases hi

/-- At `Idle` an illegal word is taken and answered with IllegalCommand (R174). -/
theorem step_illegal {s : State} {w : Word} {ws : List Word} {why : Illegal} (hq : s.seq = .idle)
    (hc : s.commands = w :: ws) (hd : decode w = .illegal why) :
    step s = .next (({ s with commands := ws } : State).raise .illegalCommand) := by
  rw [step_idle hq]
  simp only [takeCommand, hc, takeWord, hd]

/-! ### More history in front -/

/-- The state with the responses `rs` and the trace `ps` in front of its own. -/
def State.withHistory (s : State) (rs : List Word) (ps : List TracePoint) : State :=
  { s with responses := rs ++ s.responses, trace := ps ++ s.trace }

/-- An outcome with `rs` and `ps` in front of what was responded and traced in its next state, if there is one. -/
def outcomeWithHistory (rs : List Word) (ps : List TracePoint) : Result → Result
  | .next t => .next (t.withHistory rs ps)
  | .fault f => .fault f
  | .refused r => .refused r

section History

variable (s : State) (rs : List Word) (ps : List TracePoint)

theorem State.record_withHistory (before : Levels) (e : Event) :
    (s.withHistory rs ps).record before e = (s.record before e).withHistory rs ps :=
  congrArg (fun tr => { s.record before e with responses := rs ++ s.responses, trace := tr })
    (List.append_assoc ps s.trace _)

theorem State.respond_withHistory (st : Status) (v : Value) :
    (s.withHistory rs ps).respond st v = (s.respond st v).withHistory rs ps :=
  congrArg (fun out => { s.respond st v with responses := out, trace := ps ++ s.trace })
    (List.append_assoc rs s.responses _)

theorem State.raise_withHistory (st : Status) :
    (s.withHistory rs ps).raise st = (s.raise st).withHistory rs ps :=
  congrArg (fun out => { s with responses := out, trace := ps ++ s.trace }) (List.append_assoc rs s.responses _)

theorem State.drv_withHistory (l : Line) (v : Bool) :
    (s.withHistory rs ps).drv l v = (s.drv l v).withHistory rs ps :=
  State.record_withHistory ((s.setPin (s.lineId l) ⟨.output, v⟩).tell l (.driven v)) rs ps s.levels (.drv l v)

theorem State.rel_withHistory (l : Line) : (s.withHistory rs ps).rel l = (s.rel l).withHistory rs ps :=
  State.record_withHistory ((s.setPin (s.lineId l) ⟨.input, (s.pin (s.lineId l)).out⟩).tell l .released) rs ps
    s.levels (.rel l)

theorem State.smp_withHistory (l : Line) : (s.withHistory rs ps).smp l = (s.smp l).withHistory rs ps :=
  State.record_withHistory { s with seq := s.seq.deliver (s.wire l) } rs ps s.levels (.smp l (s.wire l))

/-- A line of pseudocode only adds to the history: an event its trace point, a register write nothing (R50). -/
theorem MicroOp.apply_withHistory (op : MicroOp) :
    op.apply (s.withHistory rs ps) = (op.apply s).withHistory rs ps := by
  cases op with
  | drv l v => exact s.drv_withHistory rs ps l v
  | drvShift => exact s.drv_withHistory rs ps .sda (shiftTop s.shift)
  | rel l => exact s.rel_withHistory rs ps l
  | smp l => exact s.smp_withHistory rs ps l
  | dly => exact s.record_withHistory rs ps s.levels .dly
  | _ => rfl

theorem runProgram_withHistory (p : Program) :
    runProgram p (s.withHistory rs ps) = (runProgram p s).withHistory rs ps := by
  induction p generalizing s with
  | nil => rfl
  | cons op p ih => rw [runProgram_cons, runProgram_cons, op.apply_withHistory, ih]

theorem valueOf_withHistory (i : Instr) : valueOf i (s.withHistory rs ps) = valueOf i s := by
  cases i <;> rfl

/-- A command's end gives the same response (R96). -/
theorem State.finished_withHistory (i : Instr) (p : Program) :
    (s.withHistory rs ps).finished i p = (s.finished i p).withHistory rs ps := by
  rw [State.finished, runProgram_withHistory, valueOf_withHistory, State.respond_withHistory]
  rfl

theorem carryOut_withHistory (i : Instr) :
    carryOut i (programOf i) (valueOf i) (s.withHistory rs ps)
      = outcomeWithHistory rs ps (carryOut i (programOf i) (valueOf i) s) :=
  congrArg Host.Outcome.next ((s.accept i).finished_withHistory rs ps i (programOf i))

section Checks

variable {s rs ps} {go : State → Result} (h : go (s.withHistory rs ps) = outcomeWithHistory rs ps (go s))
include h

theorem opening_withHistory :
    opening (s.withHistory rs ps) go = outcomeWithHistory rs ps (opening s go) := by
  rw [opening, opening, h, State.raise_withHistory]
  simp only [apply_ite (outcomeWithHistory rs ps)]
  rfl

theorem within_withHistory :
    within (s.withHistory rs ps) go = outcomeWithHistory rs ps (within s go) := by
  rw [within, within, h]
  simp only [apply_ite (outcomeWithHistory rs ps)]
  rfl

theorem between_withHistory :
    between (s.withHistory rs ps) go = outcomeWithHistory rs ps (between s go) := by
  rw [between, between, h, apply_ite (outcomeWithHistory rs ps)]
  rfl

/-- The checks of R210 read the flags and the lines only. -/
theorem checked_withHistory (i : Instr) :
    checked i (s.withHistory rs ps) go = outcomeWithHistory rs ps (checked i s go) := by
  cases i with
  | configure => exact between_withHistory h
  | requestRead => exact h
  | start | writeReg | readReg => exact opening_withHistory h
  | _ => exact within_withHistory h

end Checks

theorem exec_withHistory (i : Instr) :
    exec i (s.withHistory rs ps) = outcomeWithHistory rs ps (exec i s) := by
  rw [exec_eq_checked, exec_eq_checked]
  exact checked_withHistory (carryOut_withHistory s rs ps i) i

theorem takeWord_withHistory (w : Word) :
    takeWord w (s.withHistory rs ps) = outcomeWithHistory rs ps (takeWord w s) := by
  rw [takeWord, takeWord]
  cases decode w with
  | command i => exact exec_withHistory s rs ps i
  | illegal why => exact congrArg Host.Outcome.next (s.raise_withHistory rs ps .illegalCommand)

theorem takeCommand_withHistory :
    takeCommand (s.withHistory rs ps) = outcomeWithHistory rs ps (takeCommand s) := by
  have hc : (s.withHistory rs ps).commands = s.commands := rfl
  rw [takeCommand, takeCommand, hc]
  cases s.commands with
  | nil => rfl
  | cons w ws => exact takeWord_withHistory { s with commands := ws } rs ps w

theorem sequencerStep_withHistory (i : Instr) (k : Nat) :
    sequencerStep i k (s.withHistory rs ps) = outcomeWithHistory rs ps (sequencerStep i k s) := by
  have hpiece := runProgram_withHistory s rs ps (throughEvent (afterEvents k (programOf i)))
  have hend := s.finished_withHistory rs ps i (afterEvents k (programOf i))
  rw [State.finished] at hend
  simp only [sequencerStep, hpiece, hend, apply_ite (outcomeWithHistory rs ps)]
  rfl

end History

/-! ### The empty bus -/

/-- A completed command's response, from the value its program leaves (R96). -/
theorem State.completed_responses_of_value {s : State} {i : Instr} {x : Value}
    (h : valueOf i (runProgram (programOf i) (s.accept i)) = x) :
    (s.completed i).responses = s.responses ++ [responseWord .ok x] := by
  rw [State.completed_responses, h]

@[simp] theorem Env.after_noSlave (es : List Event) : Env.noSlave.after es = .noSlave := by
  rw [Env.after]
  induction observed es with
  | nil => rfl
  | cons o os ih => exact ih

theorem Env.bits_noSlave (n : Nat) : Env.noSlave.bits n = List.replicate n true := by
  induction n with
  | zero => rfl
  | succ n ih => exact congrArg (true :: ·) ih

/-- Every byte read from the empty bus is 0xFF (R190). -/
theorem assembleBits_noSlave : assembleBits (Env.noSlave.readBits 8) = 0xFF#8 := by
  rw [show Env.noSlave.readBits 8 = List.replicate 8 true from Env.bits_noSlave 8]
  rfl

/-! ### The reference slave's output -/

/-- The slave's output does not depend on its view of the master's pins (R186). -/
@[simp] theorem RSlave.out_view (e : RSlave) (o : Observation) : (e.view o).out = e.out := by
  obtain ⟨l, d⟩ := o
  cases l <;> rfl

/-- A rising edge only takes the bit of the slot (R187). -/
theorem RSlave.observe_rise {e : RSlave} {o : Observation} (h : e.scl = false) (h1 : (e.view o).scl = true) :
    e.observe o = { e.view o with lb := some (e.view o).sda, cond := false } := by
  simp only [RSlave.observe, h, h1]

/-- While SCL is and stays at 1 and SDA keeps its level, the slave only watches the pins (R187). -/
theorem RSlave.observe_steady {e : RSlave} {o : Observation} (h : e.scl = true) (h1 : (e.view o).scl = true)
    (hd : e.sda = (e.view o).sda) : e.observe o = e.view o := by
  simp only [RSlave.observe, h, h1, hd]
  cases (e.view o).sda <;> rfl

end Sys2Proof.Machine
end

section
/-! PROOFS for the exceptions family (60_exceptions.md), the statements: the two faults and what they leave behind, the
idle block, the empty bus and the reference slave. -/

namespace Sys2Proof.Machine

open Sys2Proof

/-! ### The faults -/

/-- Settles O30: a fault is the only answer of an unconfigured block to a command that begins a transaction, and a
command that runs responds OK. -/
theorem configurationErrorIff : Obligations.ConfigurationErrorIff := by
  intro i s t he
  obtain ⟨hi, hconf, rfl⟩ | ⟨hr, rfl⟩ := exec_next he
  · exact .inl ⟨hi, hconf, rfl⟩
  · refine .inr ⟨fun ⟨hi, hconf⟩ => ?_, _, (s.completed_responses i).trans (by rw [responseWord_ok])⟩
    rw [State.configured_of_mayRun hr hi] at hconf
    cases hconf

/-- Settles O31: the decoder finds no row, and the word is taken before any check. -/
theorem illegalWordRaises : Obligations.IllegalWordRaises := by
  intro s w ws hq hc hnone
  obtain ⟨why, hd⟩ := (decode_eq_illegal_iff w).mpr hnone
  exact step_illegal hq hc hd

/-- Settles O32: neither the command port nor the sequencer reads what is in front of the responses and the trace. -/
theorem historyIsNeverRead : Obligations.HistoryIsNeverRead := by
  intro s rs ps
  have hstep : step (s.withHistory rs ps) = outcomeWithHistory rs ps (step s) := by
    have hs : (s.withHistory rs ps).seq = s.seq := rfl
    rw [step, step, hs]
    cases s.seq with
    | idle => exact takeCommand_withHistory s rs ps
    | run i k b => exact sequencerStep_withHistory s rs ps i k
  exact hstep

/-- Settles O45: the idle step looks at the command port, which is empty. -/
theorem idleBlockWaits : Obligations.IdleBlockWaits := by
  intro s hq hc
  rw [step_idle hq]
  simp only [takeCommand, hc]

/-! ### Environments -/

/-- Settles O58: on the empty bus every sampled bit is 1, and the three responses are made of sampled bits. -/
theorem emptyBusReadsOnes : Obligations.EmptyBusReadsOnes := by
  refine fun s he => ⟨fun h => ⟨_, exec_of_mayRun (i := .recvAck) h, ?_⟩,
    fun h => ⟨_, exec_of_mayRun (i := .readByte) h, ?_⟩, fun r h => ⟨_, exec_of_mayRun (i := .readReg r) h, ?_⟩⟩
  · obtain ⟨-, hbit, -⟩ := recvAck_ran (s := s.accept .recvAck) h.2.2 nofun
    rw [State.accept_env, he] at hbit
    exact State.completed_responses_of_value (valueOf_recvAck hbit)
  · obtain ⟨hran, -⟩ := readByte_ran (s := s.accept .readByte) h.2.2 nofun
    rw [State.accept_env, he, assembleBits_noSlave] at hran
    exact State.completed_responses_of_value (valueOf_readByte (b := 0xFF#8) hran.shift)
  · obtain ⟨a0, a1, hi, lo, -, -, ehi, elo, -, hstate⟩ := readReg_completed h r
    rw [he, Env.after_noSlave] at ehi elo
    rw [hstate, ehi, elo, assembleBits_noSlave]
    rfl

/-- Settles O59: a rising edge, and an observation that keeps both levels, leave all that the output depends on. -/
theorem referenceSlaveHoldsItsOutput : Obligations.ReferenceSlaveHoldsItsOutput := by
  intro e o h1 hd
  cases h : e.scl with
  | false => exact (congrArg RSlave.out (RSlave.observe_rise h h1)).trans (e.out_view o)
  | true => rw [RSlave.observe_steady h h1 (hd h), RSlave.out_view]

end Sys2Proof.Machine
end

section
/-! PROOFS for the reset and hazards family (70_reset_and_hazards.md), the shared facts: the refusals of the legality
table by name, and the events of every command by kind. -/

namespace Sys2Proof.Machine

open Sys2Proof

/-! ### The legality table -/

section Refusals

variable {s : State} (go : State → Result)

theorem opening_of_inTxn (hc : s.cfg.configured = true) (ht : s.inTxn = true) :
    opening s go = .refused .transactionOpen := by
  simp [opening, hc, ht]

theorem opening_of_one_line (hc : s.cfg.configured = true) (ht : s.inTxn = false)
    (hl : s.cfg.sdaLine = s.cfg.sclLine) : opening s go = .refused .sameLine := by
  simp [opening, hc, ht, State.sameLines, hl]

theorem within_of_closed (h : s.cfg.configured = false ∨ s.inTxn = false) :
    within s go = .refused .noTransaction :=
  if_pos (Bool.and_eq_false_iff.mpr h)

theorem within_of_one_line (hc : s.cfg.configured = true) (ht : s.inTxn = true)
    (hl : s.cfg.sdaLine = s.cfg.sclLine) : within s go = .refused .sameLine := by
  simp [within, State.transactionOpen, hc, ht, State.sameLines, hl]

theorem between_of_inTxn (ht : s.inTxn = true) : between s go = .refused .configureInTransaction := if_pos ht

end Refusals

/-- START, WRITE_REG and READ_REG stand behind the checks of a command that begins a transaction (R210). -/
theorem checked_of_opens {i : Instr} (hi : i.opens = true) (s : State) (go : State → Result) :
    checked i s go = opening s go := by
  cases i with
  | start | writeReg | readReg => rfl
  | _ => cases hi

/-- The other commands with pin events stand behind the checks of a command inside a transaction (R210). -/
theorem checked_of_emits {i : Instr} (he : i.emits = true) (hi : i.opens = false) (s : State)
    (go : State → Result) : checked i s go = within s go := by
  cases i with
  | configure | requestRead => cases he
  | start | writeReg | readReg => cases hi
  | _ => rfl

/-! ### Events by opcode -/

/-- How many `DRV`, `REL`, `SMP` and `DLY` events a command of the opcode emits (R220). -/
def eventCensus : Op → ℕ × ℕ × ℕ × ℕ
  | .configure => (0, 0, 0, 0)
  | .requestRead => (0, 0, 0, 0)
  | .start => (4, 0, 0, 4)
  | .endTxn => (3, 0, 0, 3)
  | .sendAck => (3, 0, 0, 3)
  | .sendNack => (3, 0, 0, 3)
  | .recvAck => (2, 1, 1, 3)
  | .writeByte => (24, 0, 0, 24)
  | .readByte => (16, 1, 8, 17)
  | .writeReg => (111, 4, 4, 115)
  | .readReg => (97, 4, 18, 101)

/-- A byte sent, without the acknowledgment slot of `census_sentByte` (R130). -/
theorem census_byteEvents (v : Byte) : census (byteEvents v) = (24, 0, 0, 24) :=
  add_right_cancel ((census_append _ (recvAckEvents false)).symm.trans (census_sentByte v false))

/-- A byte received, without the acknowledgment slot of `census_receivedByte` (R132). -/
theorem census_readByteEvents {bits : List Bool} (h : bits.length = 8) :
    census (readByteEvents bits) = (16, 1, 8, 17) :=
  add_right_cancel ((census_append _ (bitEvents false)).symm.trans (census_receivedByte h false))

/-- The events of a command by kind are its opcode's: neither operands nor sampled bits change their number (R220). -/
theorem Emits.census_eq {s : State} {i : Instr} {es : List Event} (h : Emits s i es) :
    census es = eventCensus i.op := by
  cases i with
  | writeReg => exact h.census_writeReg
  | readReg => exact h.census_readReg
  | writeByte v =>
    cases h
    exact census_byteEvents v
  | readByte =>
    cases h with
    | readByte bits hlen => exact census_readByteEvents hlen
  | _ =>
    cases h
    rfl

end Sys2Proof.Machine
end

section
/-! PROOFS for the reset and hazards family (70_reset_and_hazards.md), the statements: the legality table, the numbers of
events and the shortest durations. -/

namespace Sys2Proof.Machine

open Sys2Proof

/-! ### Legal order -/

/-- Settles O28: ConfigurationError and the commands that may run are the two ways to answer next. -/
theorem meaningIffLegalOrder : Obligations.MeaningIffLegalOrder := by
  refine fun i s => ⟨fun ⟨t, he⟩ => ?_, ?_⟩
  · obtain ⟨hi, hconf, -⟩ | ⟨hr, -⟩ := exec_next he
    · exact .inr ⟨hi, hconf⟩
    · exact .inl hr
  · rintro (hr | ⟨hi, hconf⟩)
    · exact ⟨_, exec_of_mayRun hr⟩
    · exact ⟨_, exec_of_unconfigured hi hconf⟩

/-- Settles O29: every command stands behind one of the three checks, and each check names its refusals. -/
theorem noMeaningIsRefused : Obligations.NoMeaningIsRefused := by
  refine ⟨fun s i hi hconf ht => ?_, fun s i he hi hclosed => ?_, fun s a d c ht => between_of_inTxn _ ht,
    fun s i hi hconf ht hl => ?_, fun s i he hi hconf ht hl => ?_⟩
  · rw [exec_eq_checked, checked_of_opens hi, opening_of_inTxn _ hconf ht]
  · rw [exec_eq_checked, checked_of_emits he hi, within_of_closed _ hclosed]
  · rw [exec_eq_checked, checked_of_opens hi, opening_of_one_line _ hconf ht hl]
  · rw [exec_eq_checked, checked_of_emits he hi, within_of_one_line _ hconf ht hl]

/-! ### Events and durations -/

/-- Settles O34: a fault emits nothing, and a command that runs the events of its opcode's census. -/
theorem eventCountsByOpcode : Obligations.EventCountsByOpcode := by
  intro i s t he
  obtain ⟨hi, hconf, rfl⟩ | ⟨hr, rfl⟩ := exec_next he
  · rw [if_pos ⟨hi, hconf⟩, eventsSince_of_trace_eq (s.raise_trace .configurationError)]
    rfl
  · have hrun : ¬(i.opens = true ∧ s.cfg.configured = false) := fun ⟨hi, hconf⟩ =>
      Bool.false_ne_true (hconf.symm.trans (State.configured_of_mayRun hr hi))
    obtain ⟨hlen, -, -, -, hdly⟩ := counts_of_census (emits_of_mayRun hr).census_eq
    rw [if_neg hrun, hlen, hdly]
    cases i.op <;> rfl

/-- Settles O36: the durations are the `DLY` counts of O35, and `T_DELAY_US` is a successor. -/
theorem minimumDuration : Obligations.MinimumDuration := by
  intro s h
  obtain ⟨hwrite, hread⟩ := registerCommandCensus s h
  refine ⟨fun r v => ?_, fun r => ?_, Nat.succ_pos _⟩
  · obtain ⟨t, ht, -, -, -, -, hdly, -⟩ := hwrite r v
    exact ⟨t, ht, congrArg (· * Config.delayUs) hdly⟩
  · obtain ⟨t, ht, -, -, -, -, hdly, -⟩ := hread r
    exact ⟨t, ht, congrArg (· * Config.delayUs) hdly⟩

end Sys2Proof.Machine
end
